-- ==== Sys2Proof/Word.lean ====
section
/-! DEFINITION. The word types: a byte is 8 bits everywhere (20_memory.md R40); dimensions and the mode value are 16 bits,
pixel words and the header's length 16 or 32 bits. -/

namespace Sys2Proof

abbrev Byte := BitVec 8
abbrev Half := BitVec 16
abbrev Word := BitVec 32

end Sys2Proof
end

