-- ==== Sys2Proof/Machine/Bits.lean ====
section
/-! DEFINITION. Byte order and floor arithmetic of 00_scope.md R7 and 41_pixel_encode.md R112. -/

namespace Sys2Proof.Machine

/-- `le_N(v)`: the low `n` bytes of `v`, least significant first (00_scope.md R7). -/
def leBytes : Nat → Nat → List Byte
  | 0, _ => []
  | n + 1, v => BitVec.ofNat 8 v :: leBytes n (v / 256)

/-- The natural a byte list stands for when its first byte is the least significant. -/
def leValue : List Byte → Nat
  | [] => 0
  | b :: bs => b.toNat + 256 * leValue bs

/-- `be_N(v)`, the reverse list (00_scope.md R7). -/
def beBytes (n v : Nat) : List Byte := (leBytes n v).reverse

/-- `floor(c * k / 255)`, exact and truncating (41_pixel_encode.md R112, R113). -/
def scale255 (c k : Nat) : Nat := c * k / 255

/-- `value & (2^w - 1)` on a byte (30_encoding.md R80). -/
def maskLow (value : Byte) (w : Nat) : Byte := value &&& BitVec.ofNat 8 (2 ^ w - 1)

/-- A one-bit value from a flag. -/
def bit (b : Bool) : BitVec 1 := BitVec.ofBool b

end Sys2Proof.Machine
end

