-- ==== Sys2Proof/Config.lean ====
section
/-! DEFINITION. The closed sets of names the spec uses (base modes, fault causes, source layouts, byte orders), the
implementation parameters of 00_scope.md R6 as one structure of plain data, and the free values. The parameters' default
values stand in Machine/Mode.lean. -/

namespace Sys2Proof

/-- The sixteen base modes, in the order of 30_encoding.md R63. -/
inductive FormatName where
  | alpha8 | rgb565 | argb8888 | argb4444 | argb1555 | ai44 | rgba8888 | rgba4444
  | rgba5551 | i8 | i4 | i2 | i1 | alpha4 | alpha2 | alpha1
  deriving DecidableEq, Repr

/-- The fault causes of 60_exceptions.md R181. -/
inductive Cause where
  | unknownFormat | unsupportedSourcePixelLayout | unsupportedTargetMode
  | maskUnavailableOrInvalid | malformedPaletteSource | headerFieldRange | capacityExceeded
  deriving DecidableEq, Repr

/-- `SRC_DESC.LAYOUT` (10_state.md R24). -/
inductive Layout where
  | indexed | rgb | rgba | other
  deriving DecidableEq, Repr

/-- `PIXEL_WORD_ORDER` (00_scope.md R6, 20_memory.md R44). -/
inductive WordOrder where
  | le | be
  deriving DecidableEq, Repr

/-- `MODE_CODE`: the base code of each base mode (00_scope.md R6, 30_encoding.md R63), a parameter. -/
structure ModeCode where
  alpha8 : BitVec 4
  rgb565 : BitVec 4
  argb8888 : BitVec 4
  argb4444 : BitVec 4
  argb1555 : BitVec 4
  ai44 : BitVec 4
  rgba8888 : BitVec 4
  rgba4444 : BitVec 4
  rgba5551 : BitVec 4
  i8 : BitVec 4
  i4 : BitVec 4
  i2 : BitVec 4
  i1 : BitVec 4
  alpha4 : BitVec 4
  alpha2 : BitVec 4
  alpha1 : BitVec 4
  deriving DecidableEq, Repr

/-- `CAUSE_CODE`: the number of each fault cause (60_exceptions.md R181), a parameter. -/
structure CauseCode where
  unknownFormat : BitVec 4
  unsupportedSourcePixelLayout : BitVec 4
  unsupportedTargetMode : BitVec 4
  maskUnavailableOrInvalid : BitVec 4
  malformedPaletteSource : BitVec 4
  headerFieldRange : BitVec 4
  capacityExceeded : BitVec 4
  deriving DecidableEq, Repr

/-- The named parameters of 00_scope.md R6 and 92_eei_decisions.md §2. A capacity `none` is the
default "unbounded". DESIGN CHOICE (log 1): State holds one such record, which no step changes, so that a
statement for every state is a statement for every value of the parameters. -/
structure Params where
  modeCode : ModeCode
  causeCode : CauseCode
  wordOrder : WordOrder
  bufCap : Option Nat
  outCap : Option Nat
  deriving DecidableEq, Repr

/-- FREE VALUE (log 3): what SRC holds at a byte the host has not supplied ("not the block's; whatever
the host holds", 10_state.md R34). It has no body: no proof can see its value. -/
opaque Config.srcUnsupplied : Nat → BitVec 8

/-- FREE VALUE (log 3): what MASK holds at a byte the host has not supplied (10_state.md R34). -/
opaque Config.maskUnsupplied : Nat → BitVec 8

/-- FREE VALUE (log 24): the effective alpha of an ENC.AI44 with MASK_EN = 1 and no mask operand, for which `eff_alpha` states no
value (41_pixel_encode.md R110); a function of the token's index and alpha. -/
opaque Config.absentMask : BitVec 8 → Option (BitVec 8) → BitVec 8

end Sys2Proof
end

