-- ==== Sys2Proof/Machine/Mode.lean ====
section
/-! DEFINITION. The mode table (30_encoding.md R63, R85; 40_mode_resolve.md R91), the pixel widths and row
lengths of each base mode (41_pixel_encode.md R100, R114; 20_memory.md R50), and the parameters' default values (00_scope.md R6). -/

namespace Sys2Proof

/-- The base modes in the order of 30_encoding.md R63. -/
def FormatName.all : List FormatName :=
  [.alpha8, .rgb565, .argb8888, .argb4444, .argb1555, .ai44, .rgba8888, .rgba4444,
   .rgba5551, .i8, .i4, .i2, .i1, .alpha4, .alpha2, .alpha1]

/-- `MODE_CODE[name]`. -/
def ModeCode.code (t : ModeCode) : FormatName → BitVec 4
  | .alpha8 => t.alpha8
  | .rgb565 => t.rgb565
  | .argb8888 => t.argb8888
  | .argb4444 => t.argb4444
  | .argb1555 => t.argb1555
  | .ai44 => t.ai44
  | .rgba8888 => t.rgba8888
  | .rgba4444 => t.rgba4444
  | .rgba5551 => t.rgba5551
  | .i8 => t.i8
  | .i4 => t.i4
  | .i2 => t.i2
  | .i1 => t.i1
  | .alpha4 => t.alpha4
  | .alpha2 => t.alpha2
  | .alpha1 => t.alpha1

/-- `CAUSE_CODE[cause]` (60_exceptions.md R181). -/
def CauseCode.code (t : CauseCode) : Cause → BitVec 4
  | .unknownFormat => t.unknownFormat
  | .unsupportedSourcePixelLayout => t.unsupportedSourcePixelLayout
  | .unsupportedTargetMode => t.unsupportedTargetMode
  | .maskUnavailableOrInvalid => t.maskUnavailableOrInvalid
  | .malformedPaletteSource => t.malformedPaletteSource
  | .headerFieldRange => t.headerFieldRange
  | .capacityExceeded => t.capacityExceeded

/-- The base mode a code stands for. When a table gives two modes one code, which `ModeCode.wf` excludes, the
first in the order of R63 is taken (DESIGN CHOICE, log 26). -/
def ModeCode.nameOf (t : ModeCode) (c : BitVec 4) : Option FormatName :=
  FormatName.all.find? (fun n => t.code n == c)

/-- What the source fixes of the table (30_encoding.md R63): sixteen distinct codes, I8 to I1 contiguous and
in that order (so AI44 stands outside the range). -/
abbrev ModeCode.wf (t : ModeCode) : Prop :=
  (FormatName.all.map t.code).Nodup ∧ t.i4.toNat = t.i8.toNat + 1 ∧ t.i2.toNat = t.i8.toNat + 2 ∧
    t.i1.toNat = t.i8.toNat + 3

/-- The CLUT flag is forced for the AI44 code and for the range I8..I1 (40_mode_resolve.md R91). -/
def ModeCode.clutForced (t : ModeCode) (base : BitVec 4) : Bool :=
  base == t.ai44 || (decide (t.i8.toNat ≤ base.toNat) && decide (base.toNat ≤ t.i1.toNat))

/-- `mode_value(base, useRLE)` (40_mode_resolve.md R91); FLAG_CLUT is 32 and FLAG_RLE is 16. -/
def ModeCode.modeValue (t : ModeCode) (base : BitVec 4) (useRle : Bool) : Half :=
  base.setWidth 16 ||| (if t.clutForced base then 32 else 0) ||| (if useRle then 16 else 0)

/-- The default `MODE_CODE` of 30_encoding.md R63, which the spec marks as general knowledge (PRESUMED, log 31). -/
def ModeCode.default : ModeCode :=
  { alpha8 := 0, rgb565 := 1, argb8888 := 2, argb4444 := 3, argb1555 := 4, ai44 := 5, rgba8888 := 6,
    rgba4444 := 7, rgba5551 := 8, i8 := 9, i4 := 10, i2 := 11, i1 := 12, alpha4 := 13, alpha2 := 14, alpha1 := 15 }

/-- The default `CAUSE_CODE` of 60_exceptions.md R181. -/
def CauseCode.default : CauseCode :=
  { unknownFormat := 1, unsupportedSourcePixelLayout := 2, unsupportedTargetMode := 3,
    maskUnavailableOrInvalid := 4, malformedPaletteSource := 5, headerFieldRange := 6, capacityExceeded := 7 }

/-- The defaults of 00_scope.md R6 and 92_eei_decisions.md §2. -/
def Params.default : Params :=
  { modeCode := .default, causeCode := .default, wordOrder := .le, bufCap := none, outCap := none }

/-- The lower-case spellings RESOLVE accepts (30_encoding.md R85), as their ASCII codes. -/
def FormatName.spelling (n : FormatName) : List Byte :=
  (match n with
    | .alpha8 => ['a', 'l', 'p', 'h', 'a', '8']
    | .rgb565 => ['r', 'g', 'b', '5', '6', '5']
    | .argb8888 => ['a', 'r', 'g', 'b', '8', '8', '8', '8']
    | .argb4444 => ['a', 'r', 'g', 'b', '4', '4', '4', '4']
    | .argb1555 => ['a', 'r', 'g', 'b', '1', '5', '5', '5']
    | .ai44 => ['a', 'i', '4', '4']
    | .rgba8888 => ['r', 'g', 'b', 'a', '8', '8', '8', '8']
    | .rgba4444 => ['r', 'g', 'b', 'a', '4', '4', '4', '4']
    | .rgba5551 => ['r', 'g', 'b', 'a', '5', '5', '5', '1']
    | .i8 => ['i', '8']
    | .i4 => ['i', '4']
    | .i2 => ['i', '2']
    | .i1 => ['i', '1']
    | .alpha4 => ['a', 'l', 'p', 'h', 'a', '4']
    | .alpha2 => ['a', 'l', 'p', 'h', 'a', '2']
    | .alpha1 => ['a', 'l', 'p', 'h', 'a', '1']).map (fun (c : Char) => BitVec.ofNat 8 c.toNat)

/-- RESOLVE's lookup (40_mode_resolve.md R90): exact match, none where the name is not recognised. -/
def resolveName (t : ModeCode) (name : List Byte) : Option (BitVec 4) :=
  (FormatName.all.find? (fun n => n.spelling == name)).map t.code

/-- The direct-colour modes that have a transform (41_pixel_encode.md R114). -/
def FormatName.isDirect : FormatName → Bool
  | .argb8888 | .rgba8888 | .rgb565 => true
  | _ => false

/-- The modes that take an indexed token (41_pixel_encode.md R114). -/
def FormatName.isIndexed : FormatName → Bool
  | .ai44 | .i8 | .i4 | .i2 | .i1 => true
  | _ => false

/-- The modes that have a transform (30_encoding.md R63, R81). -/
def FormatName.supported (n : FormatName) : Bool := n.isDirect || n.isIndexed

/-- The width of the values a mode hands to PACK, none for the modes that do not use the bit packer
(41_pixel_encode.md R100, 42_bit_pack.md R120). -/
def FormatName.packedWidth : FormatName → Option Nat
  | .i8 => some 8
  | .i4 => some 4
  | .i2 => some 2
  | .i1 => some 1
  | _ => none

/-- The pixel width w(FMT) in bits (41_pixel_encode.md R100); 0 for a mode with no transform. -/
def FormatName.pixelBits : FormatName → Nat
  | .argb8888 | .rgba8888 => 32
  | .rgb565 => 16
  | .ai44 | .i8 => 8
  | .i4 => 4
  | .i2 => 2
  | .i1 => 1
  | _ => 0

/-- `row_bytes(FMT, W)` (20_memory.md R50). -/
def FormatName.rowBytes (n : FormatName) (width : Nat) : Nat :=
  match n with
  | .argb8888 | .rgba8888 => 4 * width
  | .rgb565 => 2 * width
  | .ai44 | .i8 => width
  | .i4 => (width * 4 + 7) / 8
  | .i2 => (width * 2 + 7) / 8
  | .i1 => (width + 7) / 8
  | _ => 0

end Sys2Proof
end

