-- ==== Sys2Proof/Syntax.lean ====
section
/-! DEFINITION. The operations of the block: one constructor of Instr per row of spec/opcode_table.json, with the operands
its rule names and the fields its encoding has; tokens (30_encoding.md R65, R66); and the words an operation is fetched
from (the format of the table's row and the bytes). -/

namespace Sys2Proof

/-- TOK_DIRECT, a Pixel (30_encoding.md R65). -/
structure Direct where
  r : Byte
  g : Byte
  b : Byte
  a : Byte
  deriving DecidableEq, Repr

/-- TOK_INDEXED, an IndexedPixel: an index and an alpha byte or none (30_encoding.md R66). -/
structure Indexed where
  index : Byte
  alpha : Option Byte
  deriving DecidableEq, Repr

/-- One element of SRC (20_memory.md R41). -/
inductive Token where
  | direct (t : Direct)
  | indexed (t : Indexed)
  deriving DecidableEq, Repr

/-- The operations of the block. `rle` of an ENC operation is the field r of its MODE16 word, `n` and `v` of `rleRun`
and `data` of `rleFlush` are the fields of the packet the operation stands for, `k` a register number. -/
inductive Instr where
  | encAlpha8 (rle : Bool)
  | encRgb565 (rle : Bool) (tok : Direct)
  | encArgb8888 (rle : Bool) (tok : Direct)
  | encArgb4444 (rle : Bool)
  | encArgb1555 (rle : Bool)
  | encAi44 (rle : Bool) (tok : Indexed) (m : Option Byte)
  | encRgba8888 (rle : Bool) (tok : Direct)
  | encRgba4444 (rle : Bool)
  | encRgba5551 (rle : Bool)
  | encI8 (rle : Bool) (tok : Indexed)
  | encI4 (rle : Bool) (tok : Indexed)
  | encI2 (rle : Bool) (tok : Indexed)
  | encI1 (rle : Bool) (tok : Indexed)
  | encAlpha4 (rle : Bool)
  | encAlpha2 (rle : Bool)
  | encAlpha1 (rle : Bool)
  | rleRun (n : BitVec 7) (v : Byte)
  | rleFlush (data : List Byte)
  | rleReserved80
  | hdrWrite (width height : Half) (flags kind : Byte) (mode : Half) (payloadLength : Nat)
  | start
  | srst (startBit : Bool)
  | rdreg (k : Nat)
  | wrreg (k : Nat) (v : Word)
  | check
  | encodePixel
  | encodeRowend
  | encodeEnd
  | rleStep
  | rleEnd
  | emit
  | resolve (name : List Byte)
  | modeDerive (base : BitVec 4) (useRle : Bool)
  | premul (tok : Direct)
  | rowBegin
  | pack (value : Byte) (w : Nat)
  | flushRow
  | rleEncode (b : List Byte)
  | rleMeasure
  | rleLit
  | rleBypass
  | rleDecode (s : List Byte)
  deriving DecidableEq, Repr

/-- How far the cursors have come: what selects among the table's rows that share a PHASE3 word
(the table's "selected_by"). `beyond` is a cursor past its end value, which selects nothing. -/
inductive CursorCase where
  | any | pixelLeft | rowDone | imageDone | inputLeft | inputDone | beyond
  deriving DecidableEq, Repr

/-- The rows of format INTERNAL: they have no bits, only a name. -/
inductive SubOp where
  | resolve | modeDerive | premul | rowBegin | pack | flushRow
  | rleEncode | rleMeasure | rleLit | rleBypass | rleDecode
  deriving DecidableEq, Repr

/-- The format of a word, the table's "format" column. One byte can be a word of several formats; the place it
stands in tells which, so the format goes with the word (DESIGN CHOICE, log 9). RLE_RUN and RLE_LIT are one format here, since the
control byte tells them apart (30_encoding.md R78); REGACC is split by the direction of the access. -/
inductive Selector where
  | mode16 | packet | hdr14 | ctrl2 | rdreg | wrreg
  | phase3 (c : CursorCase)
  | internal (o : SubOp)
  deriving DecidableEq, Repr

/-- A fetched word: its format and its bytes, first byte first. -/
structure OpWord where
  sel : Selector
  bytes : List Byte
  deriving DecidableEq, Repr

end Sys2Proof
end

