-- ==== Sys2Proof/WellFormed.lean ====
section
/-! DEFINITION. Which operand values an encoding admits. -/

namespace Sys2Proof

/-- A run packet has n >= 1 (30_encoding.md R76, R83), a literal packet 1 to 128 bytes (R77), the header's
length fits 32 bits (44_header.md R152), PACK's width is 1, 2, 4 or 8 (42_bit_pack.md R121), a register number fits its byte
(log 19). Every other operand is
confined by its type. -/
def Instr.wellFormed : Instr → Bool
  | .rleRun n _ => n != 0
  | .rleFlush data => decide (1 ≤ data.length) && decide (data.length ≤ 128)
  | .hdrWrite _ _ _ _ _ len => decide (len < 2 ^ 32)
  | .pack _ w => w == 1 || w == 2 || w == 4 || w == 8
  | .rdreg k | .wrreg k _ => decide (k < 256)
  | _ => true

end Sys2Proof
end

