-- ==== Sys2Proof/Decode.lean ====
section
/-! DEFINITION. Decoding of a fetched word into an operation, total on any bytes and refusing by name; the encoder, written from
the same tables (30_encoding.md R61, R64, R76 to R79, R83, R88 and spec/opcode_table.json); and the operation a bare
number of the table stands for. -/

namespace Sys2Proof

open Sys2Proof.Machine (leBytes leValue)

/-- Why a word is no operation. -/
inductive DecodeError where
  | reservedModeBits | clutNotAsDerived | unassignedBaseCode | operandLength | presenceByte
  | emptyPacket | packetLength | badMagic | headerLength | noControlBit | phaseCode
  | noStepInPhase | operandValue
  deriving DecidableEq, Repr

/-- A word that names no operation and for which the spec says that nothing happens: a write to CTRL with both bits clear
(30_encoding.md R88: "with both clear is no operation"), and a PHASE with a cursor condition that enable no step
(45_sequencer.md R168, 60_exceptions.md R200). Every other word that decodes to none is outside the encodings (R60: "No other
operation exists"). -/
def DecodeError.isNoOperation : DecodeError → Bool
  | .noControlBit | .noStepInPhase => true
  | .reservedModeBits | .clutNotAsDerived | .unassignedBaseCode | .operandLength | .presenceByte | .emptyPacket
  | .packetLength | .badMagic | .headerLength | .phaseCode | .operandValue => false

abbrev DecodeResult := Except DecodeError Instr

/-- An optional operand byte: a presence byte 0 or 1 and the byte, which is 0 when absent (DESIGN CHOICE, log 9). -/
def decodeOption (present value : Byte) : Option (Option Byte) :=
  if present = 0 then (if value = 0 then some none else none)
  else if present = 1 then some (some value)
  else none

def encodeOption : Option Byte → List Byte
  | none => [0, 0]
  | some v => [1, v]

def decodeNoOperand (i : Instr) : List Byte → DecodeResult
  | [] => .ok i
  | _ => .error .operandLength

def decodeDirect (f : Direct → Instr) : List Byte → DecodeResult
  | [r, g, b, a] => .ok (f ⟨r, g, b, a⟩)
  | _ => .error .operandLength

def decodeIndexed (f : Indexed → Instr) : List Byte → DecodeResult
  | [index, ap, a] =>
    match decodeOption ap a with
    | some alpha => .ok (f ⟨index, alpha⟩)
    | none => .error .presenceByte
  | _ => .error .operandLength

def decodeMasked (f : Indexed → Option Byte → Instr) : List Byte → DecodeResult
  | [index, ap, a, mp, m] =>
    match decodeOption ap a, decodeOption mp m with
    | some alpha, some mask => .ok (f ⟨index, alpha⟩ mask)
    | _, _ => .error .presenceByte
  | _ => .error .operandLength

/-- The ENC operation of a base mode, with its operand bytes (30_encoding.md R60). -/
def decodeEnc (n : FormatName) (rle : Bool) (ops : List Byte) : DecodeResult :=
  match n with
  | .alpha8 => decodeNoOperand (.encAlpha8 rle) ops
  | .rgb565 => decodeDirect (.encRgb565 rle) ops
  | .argb8888 => decodeDirect (.encArgb8888 rle) ops
  | .argb4444 => decodeNoOperand (.encArgb4444 rle) ops
  | .argb1555 => decodeNoOperand (.encArgb1555 rle) ops
  | .ai44 => decodeMasked (.encAi44 rle) ops
  | .rgba8888 => decodeDirect (.encRgba8888 rle) ops
  | .rgba4444 => decodeNoOperand (.encRgba4444 rle) ops
  | .rgba5551 => decodeNoOperand (.encRgba5551 rle) ops
  | .i8 => decodeIndexed (.encI8 rle) ops
  | .i4 => decodeIndexed (.encI4 rle) ops
  | .i2 => decodeIndexed (.encI2 rle) ops
  | .i1 => decodeIndexed (.encI1 rle) ops
  | .alpha4 => decodeNoOperand (.encAlpha4 rle) ops
  | .alpha2 => decodeNoOperand (.encAlpha2 rle) ops
  | .alpha1 => decodeNoOperand (.encAlpha1 rle) ops

/-- MODE16 (30_encoding.md R61, R64): BASE [3:0], RLE [4], CLUT [5] as MODE.DERIVE forces it, [15:6] zero. Any
other 16-bit value is no mode value of the block (R64). -/
def decodeMode16 (t : ModeCode) (m : Half) (ops : List Byte) : DecodeResult :=
  let base : BitVec 4 := m.extractLsb' 0 4
  let rle := m.getLsbD 4
  if m.extractLsb' 6 10 ≠ 0 then .error .reservedModeBits
  else if m ≠ t.modeValue base rle then .error .clutNotAsDerived
  else
    match t.nameOf base with
    | none => .error .unassignedBaseCode
    | some n => decodeEnc n rle ops

/-- RLE_RUN, RLE_LIT and the reserved control byte 0x80 (30_encoding.md R76, R77, R78, R83). -/
def decodePacket : List Byte → DecodeResult
  | [] => .error .emptyPacket
  | c :: rest =>
    if c = 128 then .ok .rleReserved80
    else if c.getLsbD 7 then
      match rest with
      | [v] => .ok (.rleRun (c.extractLsb' 0 7) v)
      | _ => .error .packetLength
    else if rest.length = c.toNat + 1 then .ok (.rleFlush rest)
    else .error .packetLength

/-- HDR14 (30_encoding.md R79). -/
def decodeHdr14 : List Byte → DecodeResult
  | [m0, m1, w0, w1, h0, h1, f, t, d0, d1, l0, l1, l2, l3] =>
    if m0 = 0x44 ∧ m1 = 0x32 then
      .ok (.hdrWrite (w1 ++ w0) (h1 ++ h0) f t (d1 ++ d0) (leValue [l0, l1, l2, l3]))
    else .error .badMagic
  | _ => .error .headerLength

/-- CTRL2 (30_encoding.md R88): START 01, SRST 1x, none 00; bits above 1 are ignored (93_implementation_defined.md U17). -/
def decodeCtrl2 : List Byte → DecodeResult
  | [b] =>
    if b.getLsbD 1 then .ok (.srst (b.getLsbD 0))
    else if b.getLsbD 0 then .ok .start
    else .error .noControlBit
  | _ => .error .operandLength

/-- REGACC, a read: the register number, any natural that fits the byte (45_sequencer.md R169). -/
def decodeRdreg : List Byte → DecodeResult
  | [k] => .ok (.rdreg k.toNat)
  | _ => .error .operandLength

/-- REGACC, a write: the register number and the data, low byte first (DESIGN CHOICE, log 19). -/
def decodeWrreg : List Byte → DecodeResult
  | [k, v0, v1, v2, v3] => .ok (.wrreg k.toNat (v3 ++ v2 ++ v1 ++ v0))
  | _ => .error .operandLength

/-- The step that a PHASE code and a cursor condition enable, if any (10_state.md R26, 30_encoding.md R60). -/
def enabledStep : CursorCase → Nat → Option Instr
  | .any, 1 => some .check
  | .any, 4 => some .emit
  | .pixelLeft, 2 => some .encodePixel
  | .rowDone, 2 => some .encodeRowend
  | .imageDone, 2 => some .encodeEnd
  | .inputLeft, 3 => some .rleStep
  | .inputDone, 3 => some .rleEnd
  | _, _ => none

/-- PHASE3 (10_state.md R26): the PHASE code 0 to 6 with the cursor condition that selects the row (30_encoding.md R60). -/
def decodePhase3 (c : CursorCase) : List Byte → DecodeResult
  | [p] =>
    if 6 < p.toNat then .error .phaseCode
    else
      match enabledStep c p.toNat with
      | some i => .ok i
      | none => .error .noStepInPhase
  | _ => .error .operandLength

/-- INTERNAL: a row with no bits, by its name, with the operands of its rule. -/
def decodeInternal : SubOp → List Byte → DecodeResult
  | .resolve, bs => .ok (.resolve bs)
  | .modeDerive, [base, r] =>
    if base.toNat < 16 ∧ r.toNat < 2 then .ok (.modeDerive (base.setWidth 4) (r.getLsbD 0)) else .error .operandValue
  | .modeDerive, _ => .error .operandLength
  | .premul, bs => decodeDirect .premul bs
  | .rowBegin, bs => decodeNoOperand .rowBegin bs
  | .pack, [v, w] => if (Instr.pack v w.toNat).wellFormed then .ok (.pack v w.toNat) else .error .operandValue
  | .pack, _ => .error .operandLength
  | .flushRow, bs => decodeNoOperand .flushRow bs
  | .rleEncode, bs => .ok (.rleEncode bs)
  | .rleMeasure, bs => decodeNoOperand .rleMeasure bs
  | .rleLit, bs => decodeNoOperand .rleLit bs
  | .rleBypass, bs => decodeNoOperand .rleBypass bs
  | .rleDecode, bs => .ok (.rleDecode bs)

/-- The operation of a fetched word. -/
def decode (p : Params) (w : OpWord) : DecodeResult :=
  match w.sel with
  | .mode16 =>
    match w.bytes with
    | lo :: hi :: ops => decodeMode16 p.modeCode (hi ++ lo) ops
    | _ => .error .operandLength
  | .packet => decodePacket w.bytes
  | .hdr14 => decodeHdr14 w.bytes
  | .ctrl2 => decodeCtrl2 w.bytes
  | .rdreg => decodeRdreg w.bytes
  | .wrreg => decodeWrreg w.bytes
  | .phase3 c => decodePhase3 c w.bytes
  | .internal o => decodeInternal o w.bytes

/-- The bytes of a direct token in the order of 30_encoding.md R65. -/
def Direct.bytes (t : Direct) : List Byte := [t.r, t.g, t.b, t.a]

/-- A MODE16 word, low byte first as the header carries it (20_memory.md R57), and the operand bytes. -/
def encodeEnc (t : ModeCode) (n : FormatName) (rle : Bool) (ops : List Byte) : OpWord :=
  ⟨.mode16, leBytes 2 (t.modeValue (t.code n) rle).toNat ++ ops⟩

def Indexed.bytes (t : Indexed) : List Byte := t.index :: encodeOption t.alpha

/-- The words of a well-formed operation. -/
def encode (p : Params) : Instr → OpWord
  | .encAlpha8 rle => encodeEnc p.modeCode .alpha8 rle []
  | .encRgb565 rle tok => encodeEnc p.modeCode .rgb565 rle tok.bytes
  | .encArgb8888 rle tok => encodeEnc p.modeCode .argb8888 rle tok.bytes
  | .encArgb4444 rle => encodeEnc p.modeCode .argb4444 rle []
  | .encArgb1555 rle => encodeEnc p.modeCode .argb1555 rle []
  | .encAi44 rle tok m => encodeEnc p.modeCode .ai44 rle (tok.bytes ++ encodeOption m)
  | .encRgba8888 rle tok => encodeEnc p.modeCode .rgba8888 rle tok.bytes
  | .encRgba4444 rle => encodeEnc p.modeCode .rgba4444 rle []
  | .encRgba5551 rle => encodeEnc p.modeCode .rgba5551 rle []
  | .encI8 rle tok => encodeEnc p.modeCode .i8 rle tok.bytes
  | .encI4 rle tok => encodeEnc p.modeCode .i4 rle tok.bytes
  | .encI2 rle tok => encodeEnc p.modeCode .i2 rle tok.bytes
  | .encI1 rle tok => encodeEnc p.modeCode .i1 rle tok.bytes
  | .encAlpha4 rle => encodeEnc p.modeCode .alpha4 rle []
  | .encAlpha2 rle => encodeEnc p.modeCode .alpha2 rle []
  | .encAlpha1 rle => encodeEnc p.modeCode .alpha1 rle []
  | .rleRun n v => ⟨.packet, [(1#1 ++ n : BitVec 8), v]⟩
  | .rleFlush data => ⟨.packet, BitVec.ofNat 8 (data.length - 1) :: data⟩
  | .rleReserved80 => ⟨.packet, [0x80]⟩
  | .hdrWrite width height flags kind mode len =>
    ⟨.hdr14, [0x44, 0x32] ++ leBytes 2 width.toNat ++ leBytes 2 height.toNat ++ [flags, kind] ++
      leBytes 2 mode.toNat ++ leBytes 4 len⟩
  | .start => ⟨.ctrl2, [1]⟩
  | .srst startBit => ⟨.ctrl2, [if startBit then 3 else 2]⟩
  | .rdreg k => ⟨.rdreg, [BitVec.ofNat 8 k]⟩
  | .wrreg k v => ⟨.wrreg, BitVec.ofNat 8 k :: leBytes 4 v.toNat⟩
  | .check => ⟨.phase3 .any, [1]⟩
  | .encodePixel => ⟨.phase3 .pixelLeft, [2]⟩
  | .encodeRowend => ⟨.phase3 .rowDone, [2]⟩
  | .encodeEnd => ⟨.phase3 .imageDone, [2]⟩
  | .rleStep => ⟨.phase3 .inputLeft, [3]⟩
  | .rleEnd => ⟨.phase3 .inputDone, [3]⟩
  | .emit => ⟨.phase3 .any, [4]⟩
  | .resolve name => ⟨.internal .resolve, name⟩
  | .modeDerive base useRle => ⟨.internal .modeDerive, [base.setWidth 8, if useRle then 1 else 0]⟩
  | .premul tok => ⟨.internal .premul, tok.bytes⟩
  | .rowBegin => ⟨.internal .rowBegin, []⟩
  | .pack value w => ⟨.internal .pack, [value, BitVec.ofNat 8 w]⟩
  | .flushRow => ⟨.internal .flushRow, []⟩
  | .rleEncode b => ⟨.internal .rleEncode, b⟩
  | .rleMeasure => ⟨.internal .rleMeasure, []⟩
  | .rleLit => ⟨.internal .rleLit, []⟩
  | .rleBypass => ⟨.internal .rleBypass, []⟩
  | .rleDecode s => ⟨.internal .rleDecode, s⟩

/-- The word a bare number of `nbits` bits stands for, numbered as the table numbers its rows (byte 0 of a row is its
highest byte). The number alone does not name its format, and one number can be a word of several; the formats are tried in this order
(DESIGN CHOICE, log 10): 16 bits, a run packet when bit 15 is set and else a mode value; 112 bits, a header; 8 bits,
CTRL2 for 1 (START) and 2 (SRST), PHASE3 for 3 (RLE.STEP) and 4 (EMIT), else an RLE packet. A row with no bits has no word. -/
def tableWord (nbits w : Nat) : Option OpWord :=
  if 2 ^ nbits ≤ w then none
  else if nbits = 16 then
    if 0x8000 ≤ w then some ⟨.packet, Machine.beBytes 2 w⟩ else some ⟨.mode16, leBytes 2 w⟩
  else if nbits = 112 then some ⟨.hdr14, Machine.beBytes 14 w⟩
  else if nbits = 8 then
    if w = 1 ∨ w = 2 then some ⟨.ctrl2, leBytes 1 w⟩
    else if w = 3 then some ⟨.phase3 .inputLeft, leBytes 1 w⟩
    else if w = 4 then some ⟨.phase3 .any, leBytes 1 w⟩
    else some ⟨.packet, leBytes 1 w⟩
  else none

/-- The word with as many operand bytes of zero as make it an operation; the longest, a literal packet, needs 128. -/
def zeroPadded (p : Params) (w : OpWord) : Option (OpWord × Instr) :=
  (List.range 129).findSome? fun k =>
    let w' : OpWord := ⟨w.sel, w.bytes ++ List.replicate k 0⟩
    match decode p w' with
    | .ok i => some (w', i)
    | .error _ => none

/-- The operation the decoder reads from a bare number of the table, operand bytes of zero after it. -/
def decodeTableWord (nbits w : Nat) : Option Instr :=
  ((tableWord nbits w).bind (zeroPadded Params.default)).map Prod.snd

end Sys2Proof
end

