-- ==== Sys2Proof/Machine/State.lean ====
section
/-! DEFINITION. The state of the block (10_state.md R10), of the two memories the host owns, of the host's coming moves, and the
state right after reset (R34). -/

namespace Sys2Proof.Machine

/-- `PHASE` (10_state.md R26), in the order of its codes 0 to 6. -/
inductive Phase where
  | idle | check | encode | rle | emit | done | fault
  deriving DecidableEq, Repr

/-- `JOB`, the descriptor latched by START (10_state.md R30). -/
structure Job where
  fmt : BitVec 4
  rle : Bool
  hdrEn : Bool
  maskEn : Bool
  layout : Layout
  idxAlpha : Bool
  maskOk : Bool
  w : Half
  h : Half
  hdrFlags : Byte
  hdrType : Byte
  mode : Half
  deriving DecidableEq, Repr

/-- What the operation returned to its invoker, the "Result" of its rule (DESIGN CHOICE, log 7). -/
inductive Ret where
  /-- nothing has been returned yet -/
  | none
  /-- a register's value (RDREG) -/
  | reg (v : Nat)
  /-- a base code (RESOLVE) -/
  | code (c : BitVec 4)
  /-- a fault the host meets outside the hardware (RESOLVE's UnknownFormat, 60_exceptions.md R182) -/
  | raised (c : Cause)
  /-- a mode value (MODE.DERIVE) -/
  | mode (m : Half)
  /-- premultiplied channels (PREMUL) -/
  | rgb (r g b : Byte)
  /-- a byte list (the ENC operations of byte groups, HDR.WRITE, RLE.ENCODE, RLE.DECODE, the host's read of SRC) -/
  | bytes (bs : List Byte)
  /-- a value and its width in bits (ENC.I8, I4, I2, I1) -/
  | bits (v : Byte) (w : Nat)
  /-- one byte (the host's read of MASK or OUT) -/
  | byte (b : Byte)
  deriving DecidableEq, Repr

/-- What the host does at one step (45_sequencer.md R173, 70_reset_and_hazards.md R210). -/
inductive HostMove where
  /-- the host does nothing; the block takes its enabled step -/
  | silent
  /-- an operation named by its word: RDREG, WRREG, START and SRST are the host's own (45_sequencer.md §2) -/
  | op (w : OpWord)
  /-- supply one token of SRC -/
  | putSrc (x y : Half) (tok : Token)
  /-- supply one byte of MASK -/
  | putMask (x y : Half) (a : Byte)
  /-- read back the four bytes of a place of SRC -/
  | readSrc (x y : Half)
  /-- read back a byte of MASK -/
  | readMask (x y : Half)
  /-- read a byte of OUT -/
  | readOut (a : Nat)
  /-- the platform's reset input -/
  | hwReset
  deriving DecidableEq, Repr

/-- Why the machine stops. The block's own faults are no stop: they are taken (`Ops.raise`). -/
inductive Fault where
  /-- The host reads OUT at or beyond OUT_LEN, where no byte is (20_memory.md R55); raised by Fetch. Safe. -/
  | outBeyondLength
  deriving DecidableEq, Repr

/-- Why a step has no meaning. -/
inductive Refusal where
  /-- An operation that has no meaning in this model yet; Dispatch's arms only. Safe. -/
  | notModelled (mnemonic : String)
  /-- The fetched word is outside the encodings of 30_encoding.md and names no operation (R60, R64, R78; Fetch). Safe. -/
  | notAnOperation (e : DecodeError)
  /-- A sequencer step invoked while its "Enabled" line is false (45_sequencer.md R163 to R167, R174, R175). Safe. -/
  | stepNotEnabled
  /-- RLE.MEASURE, RLE.RUN, RLE.LIT, RLE.FLUSH or RLE.BYPASS invoked while its "Condition" is false
  (43_rle.md R132 to R135, R139). Safe. -/
  | conditionNotMet
  /-- A PACK call that breaks its precondition (42_bit_pack.md R125: "A model should refuse it"). Safe. -/
  | packPrecondition
  /-- ENCODE.PIXEL where the source's layout does not fit the target mode, which CHECK excludes
  (41_pixel_encode.md R114). Safe. -/
  | tokenKind
  /-- The reserved RLE control byte 0x80 (30_encoding.md R83); RLE.RESERVED80. Safe. -/
  | reservedControlByte
  /-- RLE.DECODE of a stream the format does not admit (43_rle.md R140: "refuse"). Safe. -/
  | streamMalformed
  /-- The host writes SRC or MASK or reads OUT while BUSY (20_memory.md R55); Fetch. Safe. -/
  | hostAccessWhileBusy
  deriving DecidableEq, Repr

/-- The state. The fields from `phase` to `out` are the block's (10_state.md R10 to R30, 20_memory.md R40), `src` and
`mask` the memories the host owns (R41, R42), `params` the parameters (00_scope.md R6), `host` and `ret` the model's own. -/
structure State where
  phase : Phase
  cause : BitVec 4
  cfg : Half
  srcDesc : BitVec 4
  dimW : Half
  dimH : Half
  hdrAux : Half
  outLen : Nat
  job : Job
  y : Nat
  x : Nat
  cur : Nat
  runlen : Nat
  acc : Byte
  bits : Nat
  /-- the width of the row's first PACK, none before it: the model's own, for R125's "mixed widths in a row" (log 15) -/
  rowWidth : Option Nat
  lit : List Byte
  buf : List Byte
  pay : List Byte
  out : List Byte
  src : List Host.Cell
  mask : List Host.Cell
  host : List HostMove
  ret : Ret
  params : Params
  deriving DecidableEq, Repr

/-- JOB before the first START. The spec leaves it unspecified (10_state.md R30, R34); every field is zero here
(DESIGN CHOICE, log 2: unsafe). -/
def Job.reset : Job :=
  { fmt := 0, rle := false, hdrEn := false, maskEn := false, layout := .indexed, idxAlpha := false, maskOk := false,
    w := 0, h := 0, hdrFlags := 0, hdrType := 0, mode := 0 }

/-- The machine right after reset (10_state.md R34), the host silent, with the default parameters. -/
def State.reset : State :=
  { phase := .idle, cause := 0, cfg := 0, srcDesc := 0, dimW := 0, dimH := 0, hdrAux := 0, outLen := 0,
    job := Job.reset, y := 0, x := 0, cur := 0, runlen := 0, acc := 0, bits := 0, rowWidth := none, lit := [], buf := [], pay := [],
    out := [], src := [], mask := [], host := [], ret := .none, params := Params.default }

/-- The result of a meaning. -/
abbrev Out := Host.Outcome State Fault Refusal

end Sys2Proof.Machine
end

