-- ==== Sys2Proof/Machine/Flags.lean ====
section
/-! DEFINITION. The flags of STATUS (10_state.md R22, R31), PHASE's code (R26), and the fields of the configuration registers
(R23, R24, R27). -/

namespace Sys2Proof.Machine

/-- PHASE's encoding 0 to 6 (10_state.md R26). -/
def Phase.code : Phase → Byte
  | .idle => 0
  | .check => 1
  | .encode => 2
  | .rle => 3
  | .emit => 4
  | .done => 5
  | .fault => 6

/-- `STATUS.BUSY` (10_state.md R22). -/
def Phase.busy : Phase → Bool
  | .check | .encode | .rle | .emit => true
  | .idle | .done | .fault => false

/-- STATUS (10_state.md R20, R22): BUSY [0], DONE [1], FAULT [2], bit 3 reads 0, CAUSE [7:4]. -/
def status (s : State) : Byte :=
  s.cause ++ 0#1 ++ bit (s.phase == .fault) ++ bit (s.phase == .done) ++ bit s.phase.busy

/-- CFG's fields (10_state.md R23). -/
def cfgFmt (c : Half) : BitVec 4 := c.extractLsb' 0 4
def cfgRle (c : Half) : Bool := c.getLsbD 4
def cfgHdrEn (c : Half) : Bool := c.getLsbD 8
def cfgMaskEn (c : Half) : Bool := c.getLsbD 9

/-- LAYOUT's encoding (10_state.md R24). -/
def Layout.ofBits (b : BitVec 2) : Layout :=
  if b = 0 then .indexed else if b = 1 then .rgb else if b = 2 then .rgba else .other

/-- SRC_DESC's fields (10_state.md R24). -/
def descLayout (d : BitVec 4) : Layout := Layout.ofBits (d.extractLsb' 0 2)
def descIdxAlpha (d : BitVec 4) : Bool := d.getLsbD 2
def descMaskOk (d : BitVec 4) : Bool := d.getLsbD 3

/-- HDR_AUX's fields (10_state.md R27). -/
def auxFlags (a : Half) : Byte := a.extractLsb' 0 8
def auxType (a : Half) : Byte := a.extractLsb' 8 8

/-- MODE (10_state.md R28): computed from the current CFG at every moment. -/
def modeRegister (s : State) : Half := s.params.modeCode.modeValue (cfgFmt s.cfg) (cfgRle s.cfg)

end Sys2Proof.Machine
end

