-- ==== Sys2Proof/Machine/Ops.lean ====
section
/-! DEFINITION. The named operations over memory and registers: the host's memories as cells in one canonical form, BUF, PAY and
OUT (00_scope.md R8), `raise` (60_exceptions.md R184), the latch and clearing of START (45_sequencer.md R161) and the reset
(10_state.md R34). There is no return from a fault (60_exceptions.md R193): `startState` and `resetState` are the only ways out
of FAULT. -/

namespace Sys2Proof.Machine

/-- The canonical form of the host's memories: addresses strictly rising. An unlisted address reads as a free
value, so no entry is redundant (log 3). -/
abbrev Memory.wf (m : List Host.Cell) : Prop := (m.map Prod.fst).Pairwise (· < ·)

/-- The byte listed at an address. -/
def Memory.lookup : List Host.Cell → Nat → Option Byte
  | [], _ => none
  | (k, v) :: m, a => if k = a then some v else Memory.lookup m a

/-- Store one byte, keeping the canonical form. -/
def Memory.write : List Host.Cell → Nat → Byte → List Host.Cell
  | [], a, b => [(a, b)]
  | (k, v) :: m, a, b =>
    if a < k then (a, b) :: (k, v) :: m else if a = k then (a, b) :: m else (k, v) :: Memory.write m a b

/-- The address of a place of MASK; x and y are 16-bit (DESIGN CHOICE, log 4). -/
def maskAddr (x y : Nat) : Nat := y * 65536 + x

/-- The address of a byte of a place of SRC; a place has four bytes (DESIGN CHOICE, log 4). -/
def srcAddr (x y channel : Nat) : Nat := maskAddr x y * 4 + channel

/-- One byte of SRC; a byte the host has not supplied is a free value (log 3). -/
def srcByte (m : List Host.Cell) (x y channel : Nat) : Byte :=
  (Memory.lookup m (srcAddr x y channel)).getD (Config.srcUnsupplied (srcAddr x y channel))

/-- One byte of MASK; a byte the host has not supplied is a free value (log 3). -/
def maskByte (m : List Host.Cell) (x y : Nat) : Byte :=
  (Memory.lookup m (maskAddr x y)).getD (Config.maskUnsupplied (maskAddr x y))

/-- Supply one token: R, G, B, A or index, alpha from the first byte of its place (20_memory.md R41). -/
def supplyToken (m : List Host.Cell) (x y : Nat) : Token → List Host.Cell
  | .direct t =>
    Memory.write (Memory.write (Memory.write (Memory.write m (srcAddr x y 0) t.r) (srcAddr x y 1) t.g)
      (srcAddr x y 2) t.b) (srcAddr x y 3) t.a
  | .indexed ⟨index, some a⟩ => Memory.write (Memory.write m (srcAddr x y 0) index) (srcAddr x y 1) a
  | .indexed ⟨index, none⟩ => Memory.write m (srcAddr x y 0) index

/-- `BufAppend(bs)` (00_scope.md R8). -/
def bufAppend (bs : List Byte) (s : State) : State := { s with buf := s.buf ++ bs }

/-- Append to PAY (20_memory.md R46). -/
def payAppend (bs : List Byte) (s : State) : State := { s with pay := s.pay ++ bs }

/-- `MemWrite(addr, n, v)` on OUT (00_scope.md R8): the bytes before and after stay. -/
def memWrite (mem : List Byte) (addr : Nat) (v : List Byte) : List Byte :=
  mem.take addr ++ v ++ mem.drop (addr + v.length)

/-- Give a result to the invoker (log 7). -/
def withRet (r : Ret) (s : State) : State := { s with ret := r }

/-- `raise <Cause>` (60_exceptions.md R184): the only trap mechanism. -/
def raise (c : Cause) (s : State) : State :=
  { s with cause := s.params.causeCode.code c, outLen := 0, phase := .fault }

/-- A length exceeds a capacity; never when the capacity is unbounded (60_exceptions.md R189). -/
def exceeds (cap : Option Nat) (n : Nat) : Bool :=
  match cap with
  | none => false
  | some c => decide (c < n)

/-- The job descriptor START latches (10_state.md R30, 45_sequencer.md R161). -/
def latchJob (s : State) : Job :=
  { fmt := cfgFmt s.cfg, rle := cfgRle s.cfg, hdrEn := cfgHdrEn s.cfg, maskEn := cfgMaskEn s.cfg,
    layout := descLayout s.srcDesc, idxAlpha := descIdxAlpha s.srcDesc, maskOk := descMaskOk s.srcDesc,
    w := s.dimW, h := s.dimH, hdrFlags := auxFlags s.hdrAux, hdrType := auxType s.hdrAux, mode := modeRegister s }

/-- START (45_sequencer.md R161): ignored while busy. -/
def startState (s : State) : State :=
  if s.phase.busy then s
  else
    { s with
      job := latchJob s, cause := 0, outLen := 0, buf := [], pay := [], out := [], acc := 0, bits := 0, rowWidth := none, x := 0, y := 0,
      cur := 0, lit := [], runlen := 0, phase := .check }

/-- SRST and hardware reset (45_sequencer.md R162, 70_reset_and_hazards.md R210): every piece of the block's state at its reset
value. SRC, MASK and the parameters are not the block's state (10_state.md R10), nor are the host's moves and what it was last given. -/
def resetState (s : State) : State :=
  { State.reset with src := s.src, mask := s.mask, host := s.host, ret := s.ret, params := s.params }

end Sys2Proof.Machine
end

