-- ==== Sys2Proof/Machine/Operands.lean ====
section
/-! DEFINITION. The operand forms: source tokens and mask bytes (20_memory.md R41, R42), the effective alpha
(41_pixel_encode.md R110), and the interface registers by number (10_state.md R20, 45_sequencer.md R169). -/

namespace Sys2Proof.Machine

/-- `SrcRead(x, y)` (20_memory.md R41): by the layout a direct token, its A the constant 255 for RGB, or an indexed
token, its alpha none when IDX_ALPHA is 0. A source of layout OTHER gives no token (CHECK has faulted, R183). -/
def srcRead (layout : Layout) (idxAlpha : Bool) (src : List Host.Cell) (x y : Nat) : Option Token :=
  match layout with
  | .rgba => some (.direct ⟨srcByte src x y 0, srcByte src x y 1, srcByte src x y 2, srcByte src x y 3⟩)
  | .rgb => some (.direct ⟨srcByte src x y 0, srcByte src x y 1, srcByte src x y 2, 255⟩)
  | .indexed => some (.indexed ⟨srcByte src x y 0, if idxAlpha then some (srcByte src x y 1) else none⟩)
  | .other => none

/-- The mask operand of a pixel: `MaskRead` only with MASK_EN and the AI44 code (45_sequencer.md R164, 20_memory.md R42). -/
def maskRead (t : ModeCode) (job : Job) (mask : List Host.Cell) (x y : Nat) : Option Byte :=
  if job.maskEn && job.fmt == t.ai44 then some (maskByte mask x y) else none

/-- `eff_alpha` (41_pixel_encode.md R110). With MASK_EN the mask byte is the operand `m`; an ENC.AI44 invoked on its own with
MASK_EN and none has no stated value there (log 24). -/
def effAlpha (maskEn : Bool) (t : Indexed) (m : Option Byte) : Byte :=
  match maskEn, m, t.alpha with
  | true, some v, _ => v
  | true, none, alpha => Config.absentMask t.index alpha
  | false, _, some a => a
  | false, _, none => 255

/-- What RDREG returns (10_state.md R20, 45_sequencer.md R169): 0 for CTRL and for numbers above 8. -/
def readRegister (s : State) (k : Nat) : Nat :=
  match k with
  | 1 => (status s).toNat
  | 2 => s.cfg.toNat
  | 3 => s.srcDesc.toNat
  | 4 => s.dimW.toNat
  | 5 => s.dimH.toNat
  | 6 => s.hdrAux.toNat
  | 7 => (modeRegister s).toNat
  | 8 => s.outLen
  | _ => 0

/-- The bits of CFG that can be written: 3:0, 4, 8 and 9 (10_state.md R20, R23). -/
def cfgWritable : Half := 0x031F

/-- A write to CTRL (10_state.md R21, 30_encoding.md R88): both bits perform SRST only. -/
def writeCtrl (v : Word) (s : State) : State :=
  if v.getLsbD 1 then resetState s else if v.getLsbD 0 then startState s else s

/-- A write to a register 2 to 6 while not busy: reserved bits forced to 0 and bits above the width dropped
(45_sequencer.md R169). -/
def writeConfig (k : Nat) (v : Word) (s : State) : State :=
  match k with
  | 2 => { s with cfg := v.setWidth 16 &&& cfgWritable }
  | 3 => { s with srcDesc := v.setWidth 4 }
  | 4 => { s with dimW := v.setWidth 16 }
  | 5 => { s with dimH := v.setWidth 16 }
  | 6 => { s with hdrAux := v.setWidth 16 }
  | _ => s

/-- What WRREG does (45_sequencer.md R169). -/
def writeRegister (k : Nat) (v : Word) (s : State) : State :=
  if k = 0 then writeCtrl v s else if s.phase.busy then s else writeConfig k v s

end Sys2Proof.Machine
end

