-- ==== Sys2Proof/Machine/HostOps.lean ====
section
/-! DEFINITION. The host's operations on the interface registers (45_sequencer.md R161, R162, R169). -/

namespace Sys2Proof.Machine

/-- START (45_sequencer.md R161). -/
def execStart (s : State) : Out := .next (startState s)

/-- SRST (45_sequencer.md R162); the START bit written with it changes nothing (10_state.md R21). -/
def execSrst (_startBit : Bool) (s : State) : Out := .next (resetState s)

/-- RDREG (45_sequencer.md R169): returns the register, no side effect on the block. -/
def execRdreg (k : Nat) (s : State) : Out := .next (withRet (.reg (readRegister s k)) s)

/-- WRREG (45_sequencer.md R169). -/
def execWrreg (k : Nat) (v : Word) (s : State) : Out := .next (writeRegister k v s)

end Sys2Proof.Machine
end

