-- ==== Sys2Proof/Machine/Header.lean ====
section
/-! DEFINITION. The binary header writer (44_header.md). -/

namespace Sys2Proof.Machine

/-- `HDR_LEN` and `LEN_MAX` (00_scope.md R6). -/
def hdrLen : Nat := 14
def lenMax : Nat := 2 ^ 32 - 1

/-- `hdr_bytes` (44_header.md R151): little-endian fields, no padding. -/
def hdrBytes (width height : Half) (flags kind : Byte) (mode : Half) (payloadLength : Nat) : List Byte :=
  [0x44, 0x32] ++ leBytes 2 width.toNat ++ leBytes 2 height.toNat ++ [flags] ++ [kind] ++ leBytes 2 mode.toNat ++
    leBytes 4 payloadLength

/-- HDR.WRITE (44_header.md R151, R152): the 14 bytes go to OUT[0..14) and to the invoker; a length over 2^32 - 1 raises
HeaderFieldRange. OUT_LEN is EMIT's to write (log 23). -/
def execHdrWrite (width height : Half) (flags kind : Byte) (mode : Half) (payloadLength : Nat) (s : State) : Out :=
  if lenMax < payloadLength then .next (raise .headerFieldRange s)
  else
    let bs := hdrBytes width height flags kind mode payloadLength
    .next (withRet (.bytes bs) { s with out := memWrite s.out 0 bs })

end Sys2Proof.Machine
end

