-- ==== Sys2Proof/Machine/Packer.lean ====
section
/-! DEFINITION. The sub-byte bit packer (42_bit_pack.md): its kept state as one record, so that the operations and `convert`
share one meaning. -/

namespace Sys2Proof.Machine

/-- `{accumulator, bitsFilled}` and the buffer the packer appends to (42_bit_pack.md R120). -/
structure Packer where
  acc : Byte
  bits : Nat
  buf : List Byte
  deriving DecidableEq, Repr

/-- ROW_BEGIN (42_bit_pack.md R123). -/
def Packer.rowBegin (k : Packer) : Packer := { k with acc := 0, bits := 0 }

/-- PACK (42_bit_pack.md R121): the masked value into the accumulator at the current bit offset, least significant bit first;
a completed byte is emitted. -/
def Packer.push (value : Byte) (w : Nat) (k : Packer) : Packer :=
  let acc := k.acc ||| (maskLow value w <<< k.bits)
  let bits := k.bits + w
  if bits = 8 then { acc := 0, bits := 0, buf := k.buf ++ [acc] } else { k with acc := acc, bits := bits }

/-- FLUSH_ROW (42_bit_pack.md R122): a partial accumulator is flushed, zero-padded. -/
def Packer.flush (k : Packer) : Packer :=
  { acc := 0, bits := 0, buf := if 0 < k.bits then k.buf ++ [k.acc] else k.buf }

def packerOf (s : State) : Packer := { acc := s.acc, bits := s.bits, buf := s.buf }

def withPacker (k : Packer) (s : State) : State := { s with acc := k.acc, bits := k.bits, buf := k.buf }

/-- PACK's precondition (42_bit_pack.md R121, R125; 93_implementation_defined.md U19): the width is 1, 2, 4 or 8, BITS is a
multiple of it and the value fits; it is the width of the row's earlier PACKs, and in a job whose mode uses the packer that mode's
(log 15). -/
def packAllowed (s : State) (w : Nat) : Bool :=
  (w == 1 || w == 2 || w == 4 || w == 8) && s.bits % w == 0 && decide (s.bits + w ≤ 8) &&
    s.rowWidth.all (w == ·) && ((s.params.modeCode.nameOf s.job.fmt).bind FormatName.packedWidth).all (w == ·)

/-- A value packed into the block's accumulator. -/
def packedState (value : Byte) (w : Nat) (s : State) : State :=
  { withPacker ((packerOf s).push value w) s with rowWidth := some w }

/-- PACK on the block's state; a call that breaks the precondition is refused (42_bit_pack.md R125). -/
def packValue (value : Byte) (w : Nat) (s : State) : Out :=
  if packAllowed s w then .next (packedState value w s) else .refused .packPrecondition

/-- ROW_BEGIN on the block's state. -/
def rowBeginState (s : State) : State := { withPacker (packerOf s).rowBegin s with rowWidth := none }

/-- FLUSH_ROW on the block's state. -/
def flushRowState (s : State) : State := { withPacker (packerOf s).flush s with rowWidth := none }

/-- ROW_BEGIN (42_bit_pack.md R123). -/
def execRowBegin (s : State) : Out := .next (rowBeginState s)

/-- PACK (42_bit_pack.md R121). -/
def execPack (value : Byte) (w : Nat) (s : State) : Out := packValue value w s

/-- FLUSH_ROW (42_bit_pack.md R122). -/
def execFlushRow (s : State) : Out := .next (flushRowState s)

end Sys2Proof.Machine
end

