-- ==== Sys2Proof/Machine/Pixel.lean ====
section
/-! DEFINITION. The pixel transforms (41_pixel_encode.md) as functions and as operations. An operation returns its result to
its invoker and writes no state of the block, but for the eight unsupported modes, which fault (R111). -/

namespace Sys2Proof.Machine

/-- One channel premultiplied: `floor(C * A / 255)` (41_pixel_encode.md R101). -/
def premulChannel (c a : Byte) : Byte := BitVec.ofNat 8 (scale255 c.toNat a.toNat)

/-- PREMUL (41_pixel_encode.md R101): only for a genuine per-pixel alpha; A itself is not changed. -/
def premultiply (layout : Layout) (t : Direct) : Direct :=
  match layout with
  | .rgba => ⟨premulChannel t.r t.a, premulChannel t.g t.a, premulChannel t.b t.a, t.a⟩
  | .indexed | .rgb | .other => t

/-- `word_N(v)` (00_scope.md R7, 20_memory.md R44). -/
def orderedBytes (o : WordOrder) (n v : Nat) : List Byte :=
  match o with
  | .le => leBytes n v
  | .be => beBytes n v

/-- PIX_ARGB8888 (30_encoding.md R68). -/
def argb8888Word (t : Direct) : Word := t.a ++ t.r ++ t.g ++ t.b

/-- PIX_RGBA8888 (30_encoding.md R69). -/
def rgba8888Word (t : Direct) : Word := t.r ++ t.g ++ t.b ++ t.a

/-- PIX_RGB565 (30_encoding.md R70): truncating quantisation to 5, 6 and 5 bits. -/
def rgb565Word (t : Direct) : Half :=
  BitVec.ofNat 5 (scale255 t.r.toNat 31) ++ BitVec.ofNat 6 (scale255 t.g.toNat 63) ++
    BitVec.ofNat 5 (scale255 t.b.toNat 31)

/-- ENC.ARGB8888 (41_pixel_encode.md R102). -/
def argb8888Bytes (o : WordOrder) (layout : Layout) (t : Direct) : List Byte :=
  orderedBytes o 4 (argb8888Word (premultiply layout t)).toNat

/-- ENC.RGBA8888 (41_pixel_encode.md R103). -/
def rgba8888Bytes (o : WordOrder) (layout : Layout) (t : Direct) : List Byte :=
  orderedBytes o 4 (rgba8888Word (premultiply layout t)).toNat

/-- ENC.RGB565 (41_pixel_encode.md R104): premultiplied first, quantised after. -/
def rgb565Bytes (o : WordOrder) (layout : Layout) (t : Direct) : List Byte :=
  orderedBytes o 2 (rgb565Word (premultiply layout t)).toNat

/-- ENC.AI44 (41_pixel_encode.md R105): the high nibbles of the effective alpha and the low nibble of the index; 0 when the
effective alpha is 0. -/
def ai44Byte (maskEn : Bool) (t : Indexed) (m : Option Byte) : Byte :=
  let a := effAlpha maskEn t m
  if a = 0 then 0 else (a.extractLsb' 4 4 : BitVec 4) ++ (t.index.extractLsb' 0 4 : BitVec 4)

/-- What the pixel stage produces (41_pixel_encode.md R100). `misfit` is a token of the other kind, which CHECK excludes
(R114). -/
inductive PixelOut where
  | bytes (bs : List Byte)
  | bits (v : Byte) (w : Nat)
  | unsupported
  | misfit
  deriving DecidableEq, Repr

/-- The transforms over a direct token. -/
def encodeDirect (o : WordOrder) (layout : Layout) (n : FormatName) (t : Direct) : PixelOut :=
  match n with
  | .argb8888 => .bytes (argb8888Bytes o layout t)
  | .rgba8888 => .bytes (rgba8888Bytes o layout t)
  | .rgb565 => .bytes (rgb565Bytes o layout t)
  | _ => .misfit

/-- The transforms over an indexed token: index masked to the mode's width (41_pixel_encode.md R106 to R109). -/
def encodeIndexed (maskEn : Bool) (n : FormatName) (t : Indexed) (m : Option Byte) : PixelOut :=
  match n with
  | .ai44 => .bytes [ai44Byte maskEn t m]
  | .i8 => .bits (maskLow t.index 8) 8
  | .i4 => .bits (maskLow t.index 4) 4
  | .i2 => .bits (maskLow t.index 2) 2
  | .i1 => .bits (maskLow t.index 1) 1
  | _ => .misfit

/-- `encode_pixel(job, tok, m)` (41_pixel_encode.md R100). A code with no transform is unsupported whatever the token. -/
def pixelOut (p : Params) (job : Job) (tok : Option Token) (m : Option Byte) : PixelOut :=
  match p.modeCode.nameOf job.fmt with
  | none => .unsupported
  | some n =>
    if n.supported then
      match tok with
      | some (.direct t) => encodeDirect p.wordOrder job.layout n t
      | some (.indexed t) => encodeIndexed job.maskEn n t m
      | none => .misfit
    else .unsupported

/-- PREMUL (41_pixel_encode.md R101). -/
def execPremul (tok : Direct) (s : State) : Out :=
  let t := premultiply s.job.layout tok
  .next (withRet (.rgb t.r t.g t.b) s)

/-- ENC.ARGB8888 (41_pixel_encode.md R102); the RLE flag of the mode word has no part in the transform. -/
def execEncArgb8888 (_rle : Bool) (tok : Direct) (s : State) : Out :=
  .next (withRet (.bytes (argb8888Bytes s.params.wordOrder s.job.layout tok)) s)

/-- ENC.RGBA8888 (41_pixel_encode.md R103). -/
def execEncRgba8888 (_rle : Bool) (tok : Direct) (s : State) : Out :=
  .next (withRet (.bytes (rgba8888Bytes s.params.wordOrder s.job.layout tok)) s)

/-- ENC.RGB565 (41_pixel_encode.md R104). -/
def execEncRgb565 (_rle : Bool) (tok : Direct) (s : State) : Out :=
  .next (withRet (.bytes (rgb565Bytes s.params.wordOrder s.job.layout tok)) s)

/-- ENC.AI44 (41_pixel_encode.md R105). -/
def execEncAi44 (_rle : Bool) (tok : Indexed) (m : Option Byte) (s : State) : Out :=
  .next (withRet (.bytes [ai44Byte s.job.maskEn tok m]) s)

/-- ENC.I8 (41_pixel_encode.md R106). -/
def execEncI8 (_rle : Bool) (tok : Indexed) (s : State) : Out :=
  .next (withRet (.bits (maskLow tok.index 8) 8) s)

/-- ENC.I4 (41_pixel_encode.md R107). -/
def execEncI4 (_rle : Bool) (tok : Indexed) (s : State) : Out :=
  .next (withRet (.bits (maskLow tok.index 4) 4) s)

/-- ENC.I2 (41_pixel_encode.md R108). -/
def execEncI2 (_rle : Bool) (tok : Indexed) (s : State) : Out :=
  .next (withRet (.bits (maskLow tok.index 2) 2) s)

/-- ENC.I1 (41_pixel_encode.md R109). -/
def execEncI1 (_rle : Bool) (tok : Indexed) (s : State) : Out :=
  .next (withRet (.bits (maskLow tok.index 1) 1) s)

/-- The fault of the modes with no transform (41_pixel_encode.md R111). -/
def unsupportedMode (s : State) : Out := .next (raise .unsupportedTargetMode s)

/-- ENC.ALPHA8 (41_pixel_encode.md R111). -/
def execEncAlpha8 (_rle : Bool) (s : State) : Out := unsupportedMode s

/-- ENC.ARGB4444 (41_pixel_encode.md R111). -/
def execEncArgb4444 (_rle : Bool) (s : State) : Out := unsupportedMode s

/-- ENC.ARGB1555 (41_pixel_encode.md R111). -/
def execEncArgb1555 (_rle : Bool) (s : State) : Out := unsupportedMode s

/-- ENC.RGBA4444 (41_pixel_encode.md R111). -/
def execEncRgba4444 (_rle : Bool) (s : State) : Out := unsupportedMode s

/-- ENC.RGBA5551 (41_pixel_encode.md R111). -/
def execEncRgba5551 (_rle : Bool) (s : State) : Out := unsupportedMode s

/-- ENC.ALPHA4 (41_pixel_encode.md R111). -/
def execEncAlpha4 (_rle : Bool) (s : State) : Out := unsupportedMode s

/-- ENC.ALPHA2 (41_pixel_encode.md R111). -/
def execEncAlpha2 (_rle : Bool) (s : State) : Out := unsupportedMode s

/-- ENC.ALPHA1 (41_pixel_encode.md R111). -/
def execEncAlpha1 (_rle : Bool) (s : State) : Out := unsupportedMode s

end Sys2Proof.Machine
end

