-- ==== Sys2Proof/Machine/Rle.lean ====
section
/-! DEFINITION. The run-length compressor (43_rle.md): the encoder and the reference decoder as functions of byte lists, and
the operations on the block's state. -/

namespace Sys2Proof.Machine

/-- `RUN_MAX` and `LIT_MAX` (00_scope.md R6). -/
def runMax : Nat := 128
def litMax : Nat := 128

/-- How many bytes at the front of a list equal `v`, at most `limit`. -/
def leadCount (v : Byte) : List Byte → Nat → Nat
  | [], _ => 0
  | _ :: _, 0 => 0
  | b :: bs, limit + 1 => if b = v then leadCount v bs limit + 1 else 0

/-- The length of the maximal run of identical bytes at the front of `v :: rest`, capped at 128 (43_rle.md R132). -/
def runLength (v : Byte) (rest : List Byte) : Nat := 1 + leadCount v rest (runMax - 1)

/-- A run packet (30_encoding.md R76): `128 + (runLength - 1)` and the byte. -/
def runPacket (len : Nat) (v : Byte) : List Byte := [BitVec.ofNat 8 (128 + (len - 1)), v]

/-- A literal packet (30_encoding.md R77): `literalLength - 1` and the raw bytes. -/
def litPacket (lit : List Byte) : List Byte := BitVec.ofNat 8 (lit.length - 1) :: lit

/-- The pending literal block as a packet, nothing when it is empty. -/
def flushed (lit : List Byte) : List Byte := if lit.length = 0 then [] else litPacket lit

/-- The loop of `rle_encode` (43_rle.md R131): `b` is the input from the cursor on, `lit` the pending literal block. Each round
takes at least one byte, so the input's length is fuel enough. -/
def rleLoop : Nat → List Byte → List Byte → List Byte
  | 0, _, lit => flushed lit
  | _ + 1, [], lit => flushed lit
  | fuel + 1, v :: rest, lit =>
    let r := runLength v rest
    if 2 ≤ r then flushed lit ++ runPacket r v ++ rleLoop fuel ((v :: rest).drop r) []
    else if (lit ++ [v]).length = litMax then litPacket (lit ++ [v]) ++ rleLoop fuel rest []
    else rleLoop fuel rest (lit ++ [v])

/-- `rle_encode(b)` (43_rle.md R131). -/
def rleEncode (b : List Byte) : List Byte := rleLoop b.length b []

/-- The loop of `rle_decode` (43_rle.md R140), none where it refuses. Each round takes at least one byte. -/
def unpackLoop : Nat → List Byte → Option (List Byte)
  | _, [] => some []
  | 0, _ :: _ => none
  | fuel + 1, c :: rest =>
    if 129 ≤ c.toNat then
      match rest with
      | [] => none
      | v :: rest' => (unpackLoop fuel rest').map (fun out => List.replicate (c.toNat - 128 + 1) v ++ out)
    else if c.toNat = 128 then none
    else if rest.length < c.toNat + 1 then none
    else (unpackLoop fuel (rest.drop (c.toNat + 1))).map (fun out => rest.take (c.toNat + 1) ++ out)

/-- `rle_decode(s)` (43_rle.md R140). -/
def rleDecode (s : List Byte) : Option (List Byte) := unpackLoop s.length s

/-- The run at the cursor, none when the cursor is at the end of BUF (43_rle.md R132). -/
def measureAt (s : State) : Option Nat :=
  match s.buf.drop s.cur with
  | [] => none
  | v :: rest => some (runLength v rest)

/-- RLE.FLUSH on the block's state (43_rle.md R135). -/
def flushLit (s : State) : State := { payAppend (litPacket s.lit) s with lit := [] }

/-- RLE.RUN on the block's state, `v` the byte at the cursor (43_rle.md R133). -/
def takeRun (v : Byte) (s : State) : State :=
  let t := if 0 < s.lit.length then flushLit s else s
  { payAppend (runPacket s.runlen v) t with cur := s.cur + s.runlen }

/-- RLE.LIT on the block's state, `v` the byte at the cursor (43_rle.md R134). -/
def takeLit (v : Byte) (s : State) : State :=
  let t := { s with lit := s.lit ++ [v], cur := s.cur + 1 }
  if t.lit.length = litMax then flushLit t else t

/-- RLE.MEASURE (43_rle.md R132): `CUR < |BUF|` is its condition. -/
def execRleMeasure (s : State) : Out :=
  match measureAt s with
  | none => .refused .conditionNotMet
  | some r => .next { s with runlen := r }

/-- RLE.RUN (43_rle.md R133): RUNLEN >= 2. The operation's word is the packet it emits (30_encoding.md R76); a word that is not
the packet the state determines selects nothing (log 14). -/
def execRleRun (n : BitVec 7) (v : Byte) (s : State) : Out :=
  if 2 ≤ s.runlen ∧ s.runlen = n.toNat + 1 ∧ s.buf[s.cur]? = some v then .next (takeRun v s)
  else .refused .conditionNotMet

/-- RLE.LIT (43_rle.md R134): RUNLEN = 1, a byte at the cursor. -/
def execRleLit (s : State) : Out :=
  match s.buf[s.cur]? with
  | none => .refused .conditionNotMet
  | some v => if s.runlen = 1 then .next (takeLit v s) else .refused .conditionNotMet

/-- RLE.FLUSH (43_rle.md R135): 1 <= |LIT| <= 128. The operation's word is the packet it emits (30_encoding.md R77); a word
that is not the packet of LIT selects nothing (log 14). -/
def execRleFlush (data : List Byte) (s : State) : Out :=
  if 1 ≤ s.lit.length ∧ s.lit.length ≤ litMax ∧ s.lit = data then .next (flushLit s)
  else .refused .conditionNotMet

/-- The reserved control byte 0x80 (30_encoding.md R83): outside the format, no operation emits it and the reference decoder
refuses it. -/
def execRleReserved80 (_s : State) : Out := .refused .reservedControlByte

/-- RLE.ENCODE (43_rle.md R131): the whole stage as a function of its operand. -/
def execRleEncode (b : List Byte) (s : State) : Out := .next (withRet (.bytes (rleEncode b)) s)

/-- RLE.BYPASS (43_rle.md R139): JOB.RLE = 0. -/
def execRleBypass (s : State) : Out :=
  if s.job.rle then .refused .conditionNotMet else .next { s with pay := s.buf }

/-- RLE.DECODE (43_rle.md R140), the reference function, not in the hardware. -/
def execRleDecode (stream : List Byte) (s : State) : Out :=
  match rleDecode stream with
  | some b => .next (withRet (.bytes b) s)
  | none => .refused .streamMalformed

end Sys2Proof.Machine
end

