-- ==== Sys2Proof/Machine/Sequencer.lean ====
section
/-! DEFINITION. The steps of a conversion (45_sequencer.md R163 to R167, R174, R175): which is enabled, and what each does. -/

namespace Sys2Proof.Machine

/-- Where the cursors stand (the "Enabled" lines of 45_sequencer.md §3). -/
def cursorCase (s : State) : CursorCase :=
  match s.phase with
  | .encode =>
    if s.y < s.job.h.toNat then
      (if s.x < s.job.w.toNat then .pixelLeft else if s.x = s.job.w.toNat then .rowDone else .beyond)
    else if s.y = s.job.h.toNat then .imageDone
    else .beyond
  | .rle => if s.cur < s.buf.length then .inputLeft else if s.cur = s.buf.length then .inputDone else .beyond
  | .idle | .check | .emit | .done | .fault => .any

/-- `H * row_bytes(FMT, W)` (20_memory.md R51) of a job whose code has a name. -/
def imageBytes (n : FormatName) (job : Job) : Nat := job.h.toNat * n.rowBytes job.w.toNat

/-- The tests of `check(job)` (45_sequencer.md R163), the first that fails deciding the cause (60_exceptions.md R191). -/
def checkJob (p : Params) (job : Job) : Option Cause :=
  if job.layout = .other then some .unsupportedSourcePixelLayout
  else if job.maskEn && !job.maskOk then some .maskUnavailableOrInvalid
  else
    match p.modeCode.nameOf job.fmt with
    | none => some .unsupportedTargetMode
    | some n =>
      if !n.supported then some .unsupportedTargetMode
      else if n.isDirect && job.layout == .indexed then some .unsupportedSourcePixelLayout
      else if n.isIndexed && (job.layout == .rgb || job.layout == .rgba) then some .unsupportedSourcePixelLayout
      else if exceeds p.bufCap (imageBytes n job) then some .capacityExceeded
      else none

/-- CHECK (45_sequencer.md R163). -/
def execCheck (s : State) : Out :=
  if s.phase = .check then
    match checkJob s.params s.job with
    | some c => .next (raise c s)
    | none => .next { rowBeginState s with phase := .encode }
  else .refused .stepNotEnabled

/-- The pixel at the cursor through the pixel stage (45_sequencer.md R164). -/
def pixelAt (s : State) : PixelOut :=
  pixelOut s.params s.job (srcRead s.job.layout s.job.idxAlpha s.src s.x s.y)
    (maskRead s.params.modeCode s.job s.mask s.x s.y)

/-- ENCODE.PIXEL (45_sequencer.md R164). The last two cases are never reached in a conversion, because CHECK has faulted
(41_pixel_encode.md R100, R114). -/
def execEncodePixel (s : State) : Out :=
  if s.phase = .encode ∧ cursorCase s = .pixelLeft then
    match pixelAt s with
    | .bytes bs => .next { bufAppend bs s with x := s.x + 1 }
    | .bits v w =>
      if packAllowed s w then .next { packedState v w s with x := s.x + 1 }
      else .refused .packPrecondition
    | .unsupported => .next (raise .unsupportedTargetMode s)
    | .misfit => .refused .tokenKind
  else .refused .stepNotEnabled

/-- ENCODE.ROWEND (45_sequencer.md R165). -/
def execEncodeRowend (s : State) : Out :=
  if s.phase = .encode ∧ cursorCase s = .rowDone then
    .next (rowBeginState { flushRowState s with y := s.y + 1, x := 0 })
  else .refused .stepNotEnabled

/-- ENCODE.END (45_sequencer.md R174). -/
def execEncodeEnd (s : State) : Out :=
  if s.phase = .encode ∧ cursorCase s = .imageDone then
    if s.job.rle then .next { s with cur := 0, lit := [], pay := [], phase := .rle }
    else .next { s with pay := s.buf, phase := .emit }
  else .refused .stepNotEnabled

/-- RLE.STEP (45_sequencer.md R166): one pass of the loop of `rle_encode`. -/
def execRleStep (s : State) : Out :=
  if s.phase = .rle then
    match s.buf.drop s.cur with
    | [] => .refused .stepNotEnabled
    | v :: rest =>
      let t := { s with runlen := runLength v rest }
      if 2 ≤ t.runlen then .next (takeRun v t) else .next (takeLit v t)
  else .refused .stepNotEnabled

/-- RLE.END (45_sequencer.md R175). -/
def execRleEnd (s : State) : Out :=
  if s.phase = .rle ∧ cursorCase s = .inputDone then
    .next { (if 0 < s.lit.length then flushLit s else s) with phase := .emit }
  else .refused .stepNotEnabled

/-- Where the payload starts in OUT (20_memory.md R47). -/
def payloadBase (job : Job) : Nat := if job.hdrEn then hdrLen else 0

/-- The header of a job (44_header.md R153). -/
def jobHeader (job : Job) (payloadLength : Nat) : List Byte :=
  hdrBytes job.w job.h job.hdrFlags job.hdrType job.mode payloadLength

/-- EMIT (45_sequencer.md R167): both tests stand before the first write to OUT. -/
def execEmit (s : State) : Out :=
  if s.phase = .emit then
    if s.job.hdrEn && decide (lenMax < s.pay.length) then .next (raise .headerFieldRange s)
    else if exceeds s.params.outCap (payloadBase s.job + s.pay.length) then .next (raise .capacityExceeded s)
    else
      let headed := if s.job.hdrEn then memWrite s.out 0 (jobHeader s.job s.pay.length) else s.out
      .next
        { s with
          out := memWrite headed (payloadBase s.job) s.pay, outLen := payloadBase s.job + s.pay.length, phase := .done }
  else .refused .stepNotEnabled

end Sys2Proof.Machine
end

