-- ==== Sys2Proof/Machine/Fetch.lean ====
section
/-! DEFINITION. What a step runs. The block has no program counter: PHASE and the cursors select its operation (10_state.md R26,
R170), and the host's next move comes first (45_sequencer.md R173; log 6). -/

namespace Sys2Proof.Machine

/-- What the fetch finds: an operation to run on a state, or an answer with no operation. -/
inductive Fetched where
  | run (i : Instr) (s : State)
  | answer (o : Out)

/-- The PHASE3 word that PHASE and the cursors stand for (10_state.md R26, 30_encoding.md R60). -/
def phaseWord (s : State) : OpWord := ⟨.phase3 (cursorCase s), [s.phase.code]⟩

/-- The block's own operation. In IDLE, DONE and FAULT none is enabled and the state holds (45_sequencer.md R168, 60_exceptions.md
R184, R200; log 12). -/
def fetchBlock (s : State) : Fetched :=
  match decode s.params (phaseWord s) with
  | .ok i => .run i s
  | .error _ => .answer (.next s)

/-- An operation named by its word; nothing, where the spec says that the word is no operation; a word outside the encodings is
refused. -/
def fetchWord (w : OpWord) (s : State) : Fetched :=
  match decode s.params w with
  | .ok i => .run i s
  | .error e => .answer (if e.isNoOperation then .next s else .refused (.notAnOperation e))

/-- A host access to a memory, which it has only while BUSY = 0 (20_memory.md R55, log 21). -/
def whenNotBusy (s : State) (o : Out) : Fetched :=
  .answer (if s.phase.busy then .refused .hostAccessWhileBusy else o)

/-- A host's read of OUT (20_memory.md R55): there is no byte at or beyond OUT_LEN. -/
def hostReadOut (a : Nat) (s : State) : Out :=
  if a < s.outLen then
    match s.out[a]? with
    | some b => .next (withRet (.byte b) s)
    | none => .fault .outBeyondLength
  else .fault .outBeyondLength

/-- One move of the host. -/
def fetchMove (m : HostMove) (s : State) : Fetched :=
  match m with
  | .silent => fetchBlock s
  | .op w => fetchWord w s
  | .putSrc x y tok => whenNotBusy s (.next { s with src := supplyToken s.src x.toNat y.toNat tok })
  | .putMask x y a => whenNotBusy s (.next { s with mask := Memory.write s.mask (maskAddr x.toNat y.toNat) a })
  | .readSrc x y =>
    .answer (.next (withRet (.bytes ((List.range 4).map (srcByte s.src x.toNat y.toNat))) s))
  | .readMask x y => .answer (.next (withRet (.byte (maskByte s.mask x.toNat y.toNat)) s))
  | .readOut a => whenNotBusy s (hostReadOut a s)
  | .hwReset => .answer (.next (resetState s))

/-- What the next step runs. -/
def fetch (s : State) : Fetched :=
  match s.host with
  | [] => fetchBlock s
  | m :: rest => fetchMove m { s with host := rest }

/-- A state in which an operation's "selected by", "Enabled" or "Condition" line holds (30_encoding.md R60), for the operations that
have one; what `State.withFetchWord` needs beside the word (log 11). -/
def selectFor (i : Instr) (s : State) : State :=
  match i with
  | .rleRun n v => { s with buf := List.replicate (n.toNat + 1) v, cur := 0, runlen := n.toNat + 1 }
  | .rleFlush data => { s with lit := data }
  | .check => { s with phase := .check }
  | .emit => { s with phase := .emit }
  | .encodePixel => { s with phase := .encode, x := 0, y := 0, job := { s.job with w := 1, h := 1 } }
  | .encodeRowend => { s with phase := .encode, x := 1, y := 0, job := { s.job with w := 1, h := 1 } }
  | .encodeEnd => { s with phase := .encode, x := 0, y := s.job.h.toNat }
  | .rleStep => { s with phase := .rle, buf := [0], cur := 0 }
  | .rleEnd => { s with phase := .rle, cur := s.buf.length }
  | .rleMeasure => { s with buf := [0], cur := 0 }
  | .rleLit => { s with buf := [0], cur := 0, runlen := 1 }
  | _ => s

/-- Place a word as the host's next move, with what selects its operation. -/
def placeWord (s : State) (nbits w : Nat) : State :=
  match (tableWord nbits w).bind (zeroPadded s.params) with
  | none => s
  | some (word, i) => { selectFor i s with host := .op word :: s.host }

end Sys2Proof.Machine
end

