-- ==== Sys2Proof/Machine/ModeTable.lean ====
section
/-! DEFINITION. RESOLVE and MODE.DERIVE as operations (40_mode_resolve.md); their functions stand in Machine/Mode.lean. -/

namespace Sys2Proof.Machine

/-- RESOLVE (40_mode_resolve.md R90): a pure lookup of the host's. UnknownFormat is the host's fault and never in STATUS
(60_exceptions.md R182), so it is returned and no state of the block changes (log 22). -/
def execResolve (name : List Byte) (s : State) : Out :=
  match resolveName s.params.modeCode name with
  | some c => .next (withRet (.code c) s)
  | none => .next (withRet (.raised .unknownFormat) s)

/-- MODE.DERIVE (40_mode_resolve.md R91): total on all operand pairs. -/
def execModeDerive (base : BitVec 4) (useRle : Bool) (s : State) : Out :=
  .next (withRet (.mode (s.params.modeCode.modeValue base useRle)) s)

end Sys2Proof.Machine
end

