-- ==== Sys2Proof/Machine/Dispatch.lean ====
section
/-! DEFINITION. One arm per operation of the table. -/

namespace Sys2Proof.Machine

def exec (i : Instr) (s : State) : Host.Outcome State Fault Refusal :=
  match i with
  | .encAlpha8 rle => Sys2Proof.Machine.execEncAlpha8 rle s
  | .encRgb565 rle tok => Sys2Proof.Machine.execEncRgb565 rle tok s
  | .encArgb8888 rle tok => Sys2Proof.Machine.execEncArgb8888 rle tok s
  | .encArgb4444 rle => Sys2Proof.Machine.execEncArgb4444 rle s
  | .encArgb1555 rle => Sys2Proof.Machine.execEncArgb1555 rle s
  | .encAi44 rle tok m => Sys2Proof.Machine.execEncAi44 rle tok m s
  | .encRgba8888 rle tok => Sys2Proof.Machine.execEncRgba8888 rle tok s
  | .encRgba4444 rle => Sys2Proof.Machine.execEncRgba4444 rle s
  | .encRgba5551 rle => Sys2Proof.Machine.execEncRgba5551 rle s
  | .encI8 rle tok => Sys2Proof.Machine.execEncI8 rle tok s
  | .encI4 rle tok => Sys2Proof.Machine.execEncI4 rle tok s
  | .encI2 rle tok => Sys2Proof.Machine.execEncI2 rle tok s
  | .encI1 rle tok => Sys2Proof.Machine.execEncI1 rle tok s
  | .encAlpha4 rle => Sys2Proof.Machine.execEncAlpha4 rle s
  | .encAlpha2 rle => Sys2Proof.Machine.execEncAlpha2 rle s
  | .encAlpha1 rle => Sys2Proof.Machine.execEncAlpha1 rle s
  | .rleRun n v => Sys2Proof.Machine.execRleRun n v s
  | .rleFlush data => Sys2Proof.Machine.execRleFlush data s
  | .rleReserved80 => Sys2Proof.Machine.execRleReserved80 s
  | .hdrWrite width height flags kind mode payloadLength => Sys2Proof.Machine.execHdrWrite width height flags kind mode payloadLength s
  | .start => Sys2Proof.Machine.execStart s
  | .srst startBit => Sys2Proof.Machine.execSrst startBit s
  | .rdreg k => Sys2Proof.Machine.execRdreg k s
  | .wrreg k v => Sys2Proof.Machine.execWrreg k v s
  | .check => Sys2Proof.Machine.execCheck s
  | .encodePixel => Sys2Proof.Machine.execEncodePixel s
  | .encodeRowend => Sys2Proof.Machine.execEncodeRowend s
  | .encodeEnd => Sys2Proof.Machine.execEncodeEnd s
  | .rleStep => Sys2Proof.Machine.execRleStep s
  | .rleEnd => Sys2Proof.Machine.execRleEnd s
  | .emit => Sys2Proof.Machine.execEmit s
  | .resolve name => Sys2Proof.Machine.execResolve name s
  | .modeDerive base useRle => Sys2Proof.Machine.execModeDerive base useRle s
  | .premul tok => Sys2Proof.Machine.execPremul tok s
  | .rowBegin => Sys2Proof.Machine.execRowBegin s
  | .pack value w => Sys2Proof.Machine.execPack value w s
  | .flushRow => Sys2Proof.Machine.execFlushRow s
  | .rleEncode b => Sys2Proof.Machine.execRleEncode b s
  | .rleMeasure => Sys2Proof.Machine.execRleMeasure s
  | .rleLit => Sys2Proof.Machine.execRleLit s
  | .rleBypass => Sys2Proof.Machine.execRleBypass s
  | .rleDecode stream => Sys2Proof.Machine.execRleDecode stream s

end Sys2Proof.Machine
end

