-- ==== Sys2Proof/Machine/Step.lean ====
section
/-! DEFINITION. One step of the machine (45_sequencer.md §3), and how a word of the table is placed for the next step. -/

namespace Sys2Proof.Machine

/-- One step: what the fetch finds, run. -/
def step (s : State) : Host.Outcome State Fault Refusal :=
  match fetch s with
  | .run i t => exec i t
  | .answer o => o

/-- `s` with the operation of the table's bits as the host's next move, and the state that selects it (log 11). -/
def State.withFetchWord (s : State) (nbits w : Nat) : State := placeWord s nbits w

end Sys2Proof.Machine
end

