-- ==== Sys2Proof/Machine/Convert.lean ====
section
/-! DEFINITION. `convert` (45_sequencer.md R160): the whole conversion as one function of the parameters, the job descriptor and the
two sources. No step calls it; it is what a run is measured against (R172). -/

namespace Sys2Proof.Machine

/-- One pixel through the pixel stage and, for the packed modes, the bit packer. -/
def convertPixel (p : Params) (job : Job) (src mask : List Host.Cell) (x y : Nat) (k : Packer) : Except Cause Packer :=
  match pixelOut p job (srcRead job.layout job.idxAlpha src x y) (maskRead p.modeCode job mask x y) with
  | .bytes bs => .ok { k with buf := k.buf ++ bs }
  | .bits v w => .ok (k.push v w)
  | .unsupported => .error .unsupportedTargetMode
  | .misfit => .error .unsupportedSourcePixelLayout

/-- `n` pixels of row `y` from column `x` on. -/
def convertRow (p : Params) (job : Job) (src mask : List Host.Cell) (y : Nat) : Nat → Nat → Packer → Except Cause Packer
  | 0, _, k => .ok k
  | n + 1, x, k =>
    match convertPixel p job src mask x y k with
    | .ok k' => convertRow p job src mask y n (x + 1) k'
    | .error c => .error c

/-- `n` rows from row `y` on, appended to `buf`; each row begins with an empty accumulator and is flushed. -/
def convertRows (p : Params) (job : Job) (src mask : List Host.Cell) : Nat → Nat → List Byte → Except Cause (List Byte)
  | 0, _, buf => .ok buf
  | n + 1, y, buf =>
    match convertRow p job src mask y job.w.toNat 0 { acc := 0, bits := 0, buf := buf } with
    | .ok k => convertRows p job src mask n (y + 1) k.flush.buf
    | .error c => .error c

/-- The payload of a buffer (43_rle.md R131, R139). -/
def payloadOf (job : Job) (buf : List Byte) : List Byte := if job.rle then rleEncode buf else buf

/-- The output of a payload, or the fault of EMIT. -/
def outputOf (p : Params) (job : Job) (pay : List Byte) : Except Cause (List Byte) :=
  if job.hdrEn && decide (lenMax < pay.length) then .error .headerFieldRange
  else
    let out := (if job.hdrEn then jobHeader job pay.length else []) ++ pay
    if exceeds p.outCap out.length then .error .capacityExceeded else .ok out

/-- `convert(job, SRC, MASK)` (45_sequencer.md R160): `.ok out` is Done(out), `.error c` is Fault(c). -/
def convert (p : Params) (job : Job) (src mask : List Host.Cell) : Except Cause (List Byte) :=
  match checkJob p job with
  | some c => .error c
  | none =>
    match convertRows p job src mask job.h.toNat 0 [] with
    | .error c => .error c
    | .ok buf => outputOf p job (payloadOf job buf)

end Sys2Proof.Machine
end

