-- ==== Sys2Proof/Machine/Job.lean ====
section
/-! DEFINITION. The job notation (30_encoding.md R87) as data, and the host's moves it stands for: memory contents, register writes
and the START write (45_sequencer.md R173). The text's spelling of numbers and lines is no part of the machine. -/

namespace Sys2Proof.Machine

/-- `src=` of a job line (30_encoding.md R87). -/
inductive JobSource where
  | indexed | indexedAlpha | rgb | rgba | other
  deriving DecidableEq, Repr

/-- A job block. Omitted fields are 0 and `maskok` defaults to 1 when `mask=1` (30_encoding.md R87). -/
structure JobText where
  fmt : List Byte
  rle : Bool := false
  hdr : Bool := false
  mask : Bool := false
  flags : Byte := 0
  kind : Byte := 0
  w : Half := 0
  h : Half := 0
  src : JobSource
  maskOk : Bool := mask
  rows : List (List Token) := []
  mrows : List (List Byte) := []
  deriving DecidableEq, Repr

/-- The LAYOUT and IDX_ALPHA bits of `src=` (10_state.md R24). -/
def JobSource.descBits : JobSource → BitVec 4
  | .indexed => 0
  | .indexedAlpha => 4
  | .rgb => 1
  | .rgba => 2
  | .other => 3

/-- CFG of a job (10_state.md R23). -/
def JobText.cfgWord (j : JobText) (code : BitVec 4) : Word :=
  code.setWidth 32 ||| (if j.rle then 0x10 else 0) ||| (if j.hdr then 0x100 else 0) ||| (if j.mask then 0x200 else 0)

/-- SRC_DESC of a job (10_state.md R24). -/
def JobText.descWord (j : JobText) : Word := j.src.descBits.setWidth 32 ||| (if j.maskOk then 8 else 0)

/-- The moves that supply one row, from column `x` on. -/
def supplyRow {α : Type} (put : Half → Half → α → HostMove) (y : Nat) : Nat → List α → List HostMove
  | _, [] => []
  | x, v :: vs => put (BitVec.ofNat 16 x) (BitVec.ofNat 16 y) v :: supplyRow put y (x + 1) vs

/-- The moves that supply the rows from row `y` on, top row first. -/
def supplyRows {α : Type} (put : Half → Half → α → HostMove) : Nat → List (List α) → List HostMove
  | _, [] => []
  | y, r :: rs => supplyRow put y 0 r ++ supplyRows put (y + 1) rs

/-- A register write as the host's move. -/
def writeMove (p : Params) (k : Nat) (v : Word) : HostMove := .op (encode p (.wrreg k v))

/-- The host's moves of a job up to `go`. A name RESOLVE does not know is UnknownFormat: the job is never started
(40_mode_resolve.md R90). -/
def JobText.moves (p : Params) (j : JobText) : Except Cause (List HostMove) :=
  match resolveName p.modeCode j.fmt with
  | none => .error .unknownFormat
  | some code =>
    .ok (supplyRows .putSrc 0 j.rows ++ supplyRows .putMask 0 j.mrows ++
      [writeMove p 2 (j.cfgWord code), writeMove p 3 j.descWord, writeMove p 4 (j.w.setWidth 32),
       writeMove p 5 (j.h.setWidth 32), writeMove p 6 ((j.kind ++ j.flags : Half).setWidth 32), writeMove p 0 1])

end Sys2Proof.Machine
end

