-- ==== Sys2Proof/Safety.lean ====
section
/-! DEFINITION. What claims about the machine are stated with: the invariants of 10_state.md R35 and of 10_state.md R22, R29, R30, a
list of operations run in order, the packets of an RLE stream as data, and the bound on the steps of a run. -/

namespace Sys2Proof.Machine

/-- The moves the spec gives the host (45_sequencer.md R173): register accesses, START, SRST, its own memories, OUT and the reset
input, but no operation of the block invoked by name. -/
def HostMove.architectural : HostMove → Bool
  | .op w =>
    match w.sel with
    | .ctrl2 | .rdreg | .wrreg => true
    | .mode16 | .packet | .hdr14 | .phase3 _ | .internal _ => false
  | _ => true

/-- The width the job's mode hands to PACK, if it uses the packer. -/
def jobPackedWidth (s : State) : Option Nat := (s.params.modeCode.nameOf s.job.fmt).bind FormatName.packedWidth

/-- The state invariants of 10_state.md R35, for a host that makes only its own moves. `rowsDone` and `rowWidthJob` are what makes
them inductive: the packer is empty when the last row has ended (42_bit_pack.md R122), and every PACK of the row had the job's
width (R125). -/
structure WorkingInv (s : State) : Prop where
  hostMoves : ∀ m ∈ s.host, m.architectural = true
  bitsLt : s.bits < 8
  bitsMod : match jobPackedWidth s with
    | some w => s.bits % w = 0
    | none => s.bits = 0
  rowWidthJob : ∀ w, s.rowWidth = some w → jobPackedWidth s = some w
  accLt : s.acc.toNat < 2 ^ s.bits
  litLen : s.lit.length ≤ 127
  litEq : s.lit = (s.buf.take s.cur).drop (s.cur - s.lit.length)
  xLe : s.x ≤ s.job.w.toNat
  yLe : s.y ≤ s.job.h.toNat
  curLe : s.cur ≤ s.buf.length
  packerEmpty : s.phase ≠ .encode → s.acc = 0 ∧ s.bits = 0
  rowsDone : s.y = s.job.h.toNat → s.bits = 0
  litEmpty : s.phase ≠ .rle → s.lit = []

/-- The length of BUF (20_memory.md R50, R51). While rows are encoded, whole rows stand in BUF and the pixels of the row under the
cursor in BUF and the accumulator; from the end of ENCODE on it is H rows, and within BUF_CAP, which CHECK tested (45_sequencer.md
R163, R174). -/
structure BufferInv (s : State) : Prop where
  started : s.phase = .check → s.buf = [] ∧ s.x = 0 ∧ s.y = 0
  checked : s.phase ∈ [.encode, .rle, .emit] → checkJob s.params s.job = none
  growing : s.phase = .encode → ∀ n, s.params.modeCode.nameOf s.job.fmt = some n →
    8 * s.buf.length + s.bits = 8 * (s.y * n.rowBytes s.job.w.toNat) + s.x * n.pixelBits
  rowsDone : s.phase = .encode → s.y = s.job.h.toNat → s.x = 0
  whole : s.phase ∈ [.rle, .emit] → ∀ n, s.params.modeCode.nameOf s.job.fmt = some n →
    s.buf.length = s.job.h.toNat * n.rowBytes s.job.w.toNat
  fits : s.phase ∈ [.rle, .emit] → ∀ cap, s.params.bufCap = some cap → s.buf.length ≤ cap

/-- The causes the block itself raises (60_exceptions.md R181; 93_implementation_defined.md U18). -/
def blockCauses : List Cause :=
  [.unsupportedSourcePixelLayout, .unsupportedTargetMode, .maskUnavailableOrInvalid, .headerFieldRange, .capacityExceeded]

/-- CAUSE and OUT_LEN as 10_state.md R22 and R29 have them: CAUSE is 0 outside FAULT and one of the block's own causes in it;
OUT_LEN is 0 outside DONE and never more than OUT holds. -/
structure StatusInv (s : State) : Prop where
  causeZero : s.phase ≠ .fault → s.cause = 0
  causeKnown : s.phase = .fault → s.cause ∈ blockCauses.map s.params.causeCode.code
  outLenZero : s.phase ≠ .done → s.outLen = 0
  outLenLe : s.outLen ≤ s.out.length

/-- No partial output (60_exceptions.md R192) and OUT_LEN = |OUT| at DONE (10_state.md R29), for a host that makes only its own
moves. -/
structure OutputInv (s : State) : Prop where
  hostMoves : ∀ m ∈ s.host, m.architectural = true
  outEmpty : s.phase ≠ .done → s.out = [] ∧ s.outLen = 0
  outWhole : s.phase = .done → s.outLen = s.out.length

/-- The host's memories are in canonical form. -/
structure MemoryInv (s : State) : Prop where
  src : Memory.wf s.src
  mask : Memory.wf s.mask

/-- `JOB.MODE = mode_value(JOB.FMT, JOB.RLE)` once a START has written JOB (10_state.md R30), for a host that makes only its own
moves. -/
structure JobModeInv (s : State) : Prop where
  hostMoves : ∀ m ∈ s.host, m.architectural = true
  modeDerived : s.phase ≠ .idle → s.job.mode = s.params.modeCode.modeValue s.job.fmt s.job.rle

/-- The channels PREMUL gives (41_pixel_encode.md R101): floor(C * A / 255) for layout RGBA, else the token's own. -/
def Premultiplied (layout : Layout) (tok : Direct) (r g b : Byte) : Prop :=
  if layout = .rgba then
    r.toNat = tok.r.toNat * tok.a.toNat / 255 ∧ g.toNat = tok.g.toNat * tok.a.toNat / 255 ∧
      b.toNat = tok.b.toNat * tok.a.toNat / 255
  else r = tok.r ∧ g = tok.g ∧ b = tok.b

/-- Operations run one after the other, stopping at the first stop. -/
def execAll : List Instr → State → Out
  | [], s => .next s
  | i :: is, s =>
    match exec i s with
    | .next t => execAll is t
    | .fault f => .fault f
    | .refused r => .refused r

/-- A row through the packer: ROW_BEGIN, one PACK per value, FLUSH_ROW (42_bit_pack.md R124). -/
def rowOps (values : List Byte) (w : Nat) : List Instr :=
  .rowBegin :: values.map (fun v => .pack v w) ++ [.flushRow]

/-- An RLE packet as data (00_scope.md R9). -/
inductive Packet where
  | run (len : Nat) (v : Byte)
  | lit (bs : List Byte)
  deriving DecidableEq, Repr

/-- The length bounds of 30_encoding.md R76 and R77. -/
def Packet.inRange : Packet → Bool
  | .run len _ => decide (2 ≤ len) && decide (len ≤ 128)
  | .lit bs => decide (1 ≤ bs.length) && decide (bs.length ≤ 128)

/-- The bytes of a packet (30_encoding.md R76, R77). -/
def Packet.serial : Packet → List Byte
  | .run len v => [BitVec.ofNat 8 (127 + len), v]
  | .lit bs => BitVec.ofNat 8 (bs.length - 1) :: bs

/-- What a packet stands for (30_encoding.md R76, R77). -/
def Packet.expand : Packet → List Byte
  | .run len v => List.replicate len v
  | .lit bs => bs

/-- No two neighbours of a literal packet are equal (43_rle.md R137). -/
def noEqualNeighbours : List Byte → Bool
  | a :: b :: rest => a != b && noEqualNeighbours (b :: rest)
  | _ => true

/-- What the greedy rule says of a packet and the one after it (43_rle.md R137). -/
def Packet.greedyBefore : Packet → Packet → Bool
  | .lit bs, .lit _ => bs.length == 128
  | .run len v, .lit bs => bs.head? != some v || len == 128
  | .run len v, .run _ v' => v != v' || len == 128
  | .lit _, .run _ _ => true

/-- The greedy rule on a whole stream (43_rle.md R137). -/
def greedy : List Packet → Bool
  | .run len v :: rest =>
    (match rest with
      | [] => true
      | q :: _ => (Packet.run len v).greedyBefore q) && greedy rest
  | .lit bs :: rest =>
    noEqualNeighbours bs &&
      (match rest with
        | [] => true
        | q :: _ => (Packet.lit bs).greedyBefore q) && greedy rest
  | [] => true

/-- At most so many steps after START a run has ended (45_sequencer.md R170): CHECK, one step per pixel and one per row end,
ENCODE.END and EMIT, and with RLE at most one per byte of BUF and RLE.END. -/
def stepBound (p : Params) (job : Job) : Nat :=
  1 + job.h.toNat * (job.w.toNat + 1) + 1 + 1 +
    (if job.rle then
      (match p.modeCode.nameOf job.fmt with
        | some n => imageBytes n job + 1
        | none => 0)
    else 0)

end Sys2Proof.Machine
end

