-- ==== Sys2Proof/Certificates/Slice0/Obligations.lean ====
section
/-! DEFINITION. The statements for the provers. Every docstring names the rule of spec/ the statement formalises. A result statement
gives the whole next state, so that it is the operation's completion, its result and its frame at once: what the record does not name
is unchanged, every byte of every memory with it. -/

open Sys2Proof Sys2Proof.Machine

/-! ### Encoding -/

/-- Decoding an encoded well-formed operation gives it back, whatever table of mode codes the source's constraints admit
(30_encoding.md R61, R63, R64, R76, R77, R79, R88). -/
def Obligations.DecodeEncodeRoundTrip : Prop :=
  ∀ (p : Params) (i : Instr), p.modeCode.wf → i.wellFormed = true → decode p (encode p i) = .ok i

/-- What the decoder accepts is well formed: run packets of 2 to 128, literal packets of 1 to 128, PACK widths 1, 2, 4, 8, header
lengths of 32 bits. -/
def Obligations.DecodedOperationsAreWellFormed : Prop :=
  ∀ (p : Params) (w : OpWord) (i : Instr), decode p w = .ok i → i.wellFormed = true

/-- A 16-bit mode word decodes exactly when MODE.DERIVE can produce it (30_encoding.md R64): "every other 16-bit value is never
produced by the block". Operand bytes of some length then make it an operation, and no other value has any. -/
def Obligations.ModeWordDecodesIffDerivable : Prop :=
  ∀ (p : Params) (lo hi : Byte), p.modeCode.wf →
    ((∃ (ops : List Byte) (i : Instr), decode p ⟨.mode16, lo :: hi :: ops⟩ = .ok i) ↔
      ∃ (base : BitVec 4) (useRle : Bool), (hi ++ lo : Half) = p.modeCode.modeValue base useRle)

/-- Words written out from the encodings of the spec, one of each format (30_encoding.md R64, R76, R77, R79, R83, R88). -/
def Obligations.SampleWordsDecode : Prop :=
  decode Params.default ⟨.mode16, [0x3A, 0x00, 7, 1, 9]⟩ = .ok (.encI4 true ⟨7, some 9⟩) ∧
  decode Params.default ⟨.mode16, [0x02, 0x00, 200, 100, 50, 128]⟩ = .ok (.encArgb8888 false ⟨200, 100, 50, 128⟩) ∧
  decode Params.default ⟨.packet, [0xAB, 0x05]⟩ = .ok (.rleRun 43 5) ∧
  decode Params.default ⟨.packet, [0x02, 1, 2, 3]⟩ = .ok (.rleFlush [1, 2, 3]) ∧
  decode Params.default ⟨.packet, [0x80, 7]⟩ = .ok .rleReserved80 ∧
  decode Params.default ⟨.hdr14, [0x44, 0x32, 4, 0, 2, 0, 0, 0, 0x22, 0, 10, 0, 0, 0]⟩ =
    .ok (.hdrWrite 4 2 0 0 0x22 10) ∧
  decode Params.default ⟨.ctrl2, [3]⟩ = .ok (.srst true) ∧
  decode Params.default ⟨.wrreg, [2, 0x0A, 0x01, 0, 0]⟩ = .ok (.wrreg 2 0x010A)

/-! ### The step -/

/-- A STEP RUNS THE DECODED INSTRUCTION: when the host's next move is a word that decodes to an operation, the step is that operation
on the state with the move taken off. That the host's moves stand in a list and come first is the model's choice, log 6. -/
def Obligations.StepRunsHostWord : Prop :=
  ∀ (s : State) (w : OpWord) (rest : List HostMove) (i : Instr),
    s.host = .op w :: rest → decode s.params w = .ok i → step s = exec i { s with host := rest }

/-- With a silent host PHASE and the cursors select the operation (45_sequencer.md R163 to R167, R174, R175: their "Enabled" lines),
and in IDLE, DONE and FAULT the state holds (R168; 60_exceptions.md R184). The host is silent when it has no move left, or when its
next move is `silent`, which the step takes off. -/
def Obligations.SilentStepRunsEnabledOperation : Prop :=
  ∀ (s t : State), (s.host = [] ∧ t = s ∨ ∃ rest, s.host = .silent :: rest ∧ t = { s with host := rest }) →
    (s.phase = .check → step s = exec .check t) ∧
    (s.phase = .encode → s.y < s.job.h.toNat → s.x < s.job.w.toNat → step s = exec .encodePixel t) ∧
    (s.phase = .encode → s.y < s.job.h.toNat → s.x = s.job.w.toNat → step s = exec .encodeRowend t) ∧
    (s.phase = .encode → s.y = s.job.h.toNat → step s = exec .encodeEnd t) ∧
    (s.phase = .rle → s.cur < s.buf.length → step s = exec .rleStep t) ∧
    (s.phase = .rle → s.cur = s.buf.length → step s = exec .rleEnd t) ∧
    (s.phase = .emit → step s = exec .emit t) ∧
    (s.phase = .idle ∨ s.phase = .done ∨ s.phase = .fault → step s = .next t)

/-! ### Mode table -/

/-- MODE.DERIVE (40_mode_resolve.md R91): the base code, plus 32 for the AI44 code and the range I8..I1, plus 16 when compression is
requested; no state of the block changes. -/
def Obligations.ModeDeriveValue : Prop :=
  ∀ (s : State) (base : BitVec 4) (useRle : Bool), ∃ m : Half,
    exec (.modeDerive base useRle) s = .next { s with ret := .mode m } ∧
    m.toNat = base.toNat +
      (if base = s.params.modeCode.ai44 ∨
          (s.params.modeCode.i8.toNat ≤ base.toNat ∧ base.toNat ≤ s.params.modeCode.i1.toNat) then 32 else 0) +
      (if useRle then 16 else 0)

/-- RESOLVE (40_mode_resolve.md R90): the sixteen lower-case spellings give their codes, every other name UnknownFormat. That the
fault is a value returned to the host that asked is the model's choice (log 22); it is never in STATUS (60_exceptions.md R182). -/
def Obligations.ResolveSpelledNames : Prop :=
  ∀ s : State,
    (∀ n : FormatName, exec (.resolve n.spelling) s = .next { s with ret := .code (s.params.modeCode.code n) }) ∧
    (∀ name : List Byte, (∀ n : FormatName, name ≠ n.spelling) →
      exec (.resolve name) s = .next { s with ret := .raised .unknownFormat })

/-! ### Pixel transforms -/

/-- PREMUL (41_pixel_encode.md R101): floor(C * A / 255) on each channel for layout RGBA, else the channels as they are. -/
def Obligations.PremulScalesByAlpha : Prop :=
  ∀ (s : State) (tok : Direct), ∃ r g b : Byte,
    exec (.premul tok) s = .next { s with ret := .rgb r g b } ∧ Premultiplied s.job.layout tok r g b

/-- ENC.ARGB8888 (41_pixel_encode.md R102): the word A<<24 | R'<<16 | G'<<8 | B' of the channels PREMUL gives, its four bytes least
significant first, or reversed when PIXEL_WORD_ORDER is big-endian. -/
def Obligations.Argb8888WordBytes : Prop :=
  ∀ (s : State) (rle : Bool) (tok : Direct) (r g b : Byte),
    Premultiplied s.job.layout tok r g b →
    ∃ bs : List Byte, exec (.encArgb8888 rle tok) s = .next { s with ret := .bytes bs } ∧ bs.length = 4 ∧
      leValue (if s.params.wordOrder = .le then bs else bs.reverse) =
        tok.a.toNat * 2 ^ 24 + r.toNat * 2 ^ 16 + g.toNat * 2 ^ 8 + b.toNat

/-- ENC.RGBA8888 (41_pixel_encode.md R103): the word R'<<24 | G'<<16 | B'<<8 | A. -/
def Obligations.Rgba8888WordBytes : Prop :=
  ∀ (s : State) (rle : Bool) (tok : Direct) (r g b : Byte),
    Premultiplied s.job.layout tok r g b →
    ∃ bs : List Byte, exec (.encRgba8888 rle tok) s = .next { s with ret := .bytes bs } ∧ bs.length = 4 ∧
      leValue (if s.params.wordOrder = .le then bs else bs.reverse) =
        r.toNat * 2 ^ 24 + g.toNat * 2 ^ 16 + b.toNat * 2 ^ 8 + tok.a.toNat

/-- ENC.RGB565 (41_pixel_encode.md R104): R5<<11 | G6<<5 | B5 with R5 = floor(R'*31/255), G6 = floor(G'*63/255), B5 =
floor(B'*31/255) of the premultiplied channels. -/
def Obligations.Rgb565WordBytes : Prop :=
  ∀ (s : State) (rle : Bool) (tok : Direct) (r g b : Byte),
    Premultiplied s.job.layout tok r g b →
    ∃ bs : List Byte, exec (.encRgb565 rle tok) s = .next { s with ret := .bytes bs } ∧ bs.length = 2 ∧
      leValue (if s.params.wordOrder = .le then bs else bs.reverse) =
        r.toNat * 31 / 255 * 2 ^ 11 + g.toNat * 63 / 255 * 2 ^ 5 + b.toNat * 31 / 255

/-- ENC.AI44 with eff_alpha (41_pixel_encode.md R105, R110): with `a` the mask byte when MASK_EN is 1, else the token's alpha, else
255, the byte is 0 for a = 0 and else (a>>4)<<4 | (index & 0xF). With MASK_EN = 1 and no mask operand, where the spec states no
effective alpha, the byte is that of some alpha (log 24). -/
def Obligations.Ai44EffectiveAlpha : Prop :=
  ∀ (s : State) (rle : Bool) (tok : Indexed) (m : Option Byte), ∃ a b : Byte,
    exec (.encAi44 rle tok m) s = .next { s with ret := .bytes [b] } ∧
    (∀ v, s.job.maskEn = true → m = some v → a = v) ∧ (s.job.maskEn = false → a = tok.alpha.getD 255) ∧
    b.toNat = if a = 0 then 0 else a.toNat / 16 * 16 + tok.index.toNat % 16

/-- ENC.I8, ENC.I4, ENC.I2, ENC.I1 (41_pixel_encode.md R106 to R109): the index masked to 8, 4, 2, 1 bits, with that width; the
alpha is ignored. -/
def Obligations.IndexedModesMaskIndex : Prop :=
  ∀ (s : State) (rle : Bool) (tok : Indexed), ∃ v8 v4 v2 v1 : Byte,
    (exec (.encI8 rle tok) s = .next { s with ret := .bits v8 8 } ∧ v8.toNat = tok.index.toNat) ∧
    (exec (.encI4 rle tok) s = .next { s with ret := .bits v4 4 } ∧ v4.toNat = tok.index.toNat % 16) ∧
    (exec (.encI2 rle tok) s = .next { s with ret := .bits v2 2 } ∧ v2.toNat = tok.index.toNat % 4) ∧
    (exec (.encI1 rle tok) s = .next { s with ret := .bits v1 1 } ∧ v1.toNat = tok.index.toNat % 2)

/-- The eight base modes with no transform raise UnsupportedTargetMode (41_pixel_encode.md R111; `raise` is 60_exceptions.md R184):
CAUSE, OUT_LEN and PHASE are written and nothing else. -/
def Obligations.UnsupportedModesRaise : Prop :=
  ∀ (s : State) (rle : Bool) (i : Instr),
    i ∈ [.encAlpha8 rle, .encArgb4444 rle, .encArgb1555 rle, .encRgba4444 rle, .encRgba5551 rle, .encAlpha4 rle,
      .encAlpha2 rle, .encAlpha1 rle] →
    exec i s = .next
      { s with cause := s.params.causeCode.unsupportedTargetMode, outLen := 0, phase := .fault }

/-! ### The bit packer -/

/-- ROW_BEGIN (42_bit_pack.md R123) clears ACC and BITS; FLUSH_ROW (R122) appends a partial accumulator to BUF and clears both;
nothing else changes, but that no width is the row's any more (log 15). -/
def Obligations.RowBoundaryOperations : Prop :=
  ∀ s : State, exec .rowBegin s = .next { s with acc := 0, bits := 0, rowWidth := none } ∧
    exec .flushRow s = .next
      { s with buf := (if s.bits = 0 then s.buf else s.buf ++ [s.acc]), acc := 0, bits := 0, rowWidth := none }

/-- PACK (42_bit_pack.md R121) under its precondition: the value, masked to w bits, is ORed into ACC at bit offset BITS; BITS grows
by w; at 8 the byte goes to BUF and both become 0. The width is then the row's (log 15). -/
def Obligations.PackPlacesValue : Prop :=
  ∀ (s : State) (value : Byte) (w : Nat), w ∈ [1, 2, 4, 8] → s.bits % w = 0 → s.bits + w ≤ 8 →
    (∀ rowWidth, s.rowWidth = some rowWidth → w = rowWidth) → (∀ jobWidth, jobPackedWidth s = some jobWidth → w = jobWidth) →
    ∃ acc : Byte, acc.toNat = s.acc.toNat ||| (value.toNat % 2 ^ w * 2 ^ s.bits) ∧
      exec (.pack value w) s = .next
        (if s.bits + w = 8 then { s with acc := 0, bits := 0, rowWidth := some w, buf := s.buf ++ [acc] }
         else { s with acc := acc, bits := s.bits + w, rowWidth := some w })

/-- A PACK call that breaks its precondition (a width that does not divide 8, no room, another width than the row's earlier calls
or than the job's) is refused (42_bit_pack.md R125: "A model should refuse it and not give it a value"); how
the row's width is kept is log 15. -/
def Obligations.PackRefusesBrokenPrecondition : Prop :=
  ∀ (s : State) (value : Byte) (w : Nat),
    (w ∉ [1, 2, 4, 8] ∨ s.bits % w ≠ 0 ∨ 8 < s.bits + w ∨ (∃ rowWidth, s.rowWidth = some rowWidth ∧ w ≠ rowWidth) ∨
      ∃ jobWidth, jobPackedWidth s = some jobWidth ∧ w ≠ jobWidth) →
    exec (.pack value w) s = .refused .packPrecondition

/-- Row length law (42_bit_pack.md R124): ROW_BEGIN and N calls of PACK append floor(N * w / 8) bytes, FLUSH_ROW one more exactly
when N * w mod 8 is not 0, together ceil(N * w / 8); everything but BUF, ACC and BITS is as it was. Which bytes they are is
`PackedPixelPosition`. ROW_BEGIN opens a row of any width, whatever the width of the row before. -/
def Obligations.RowLengthLaw : Prop :=
  ∀ (s : State) (values : List Byte) (w : Nat), w ∈ [1, 2, 4, 8] →
    (∀ jobWidth, jobPackedWidth s = some jobWidth → w = jobWidth) →
    ∃ (t : State) (packed tail : List Byte),
      execAll (.rowBegin :: values.map (fun v => .pack v w)) s = .next t ∧ t.buf = s.buf ++ packed ∧
      packed.length = values.length * w / 8 ∧ tail.length = (if values.length * w % 8 = 0 then 0 else 1) ∧
      (packed ++ tail).length = (values.length * w + 7) / 8 ∧
      exec .flushRow t = .next { s with acc := 0, bits := 0, rowWidth := none, buf := s.buf ++ (packed ++ tail) } ∧
      execAll (rowOps values w) s = exec .flushRow t

/-- Bit order inside a packed byte (20_memory.md R45): the pixel at column x occupies w bits from bit (x mod (8/w)) * w of byte
floor(x * w / 8) of the row, least significant bit first, and bits no pixel fills are 0. -/
def Obligations.PackedPixelPosition : Prop :=
  ∀ (s t : State) (values : List Byte) (w : Nat), w ∈ [1, 2, 4, 8] →
    (∀ jobWidth, jobPackedWidth s = some jobWidth → w = jobWidth) → execAll (rowOps values w) s = .next t →
    (∀ x b, x < values.length → b < w → ∃ v byte : Byte, values[x]? = some v ∧ t.buf[s.buf.length + x * w / 8]? = some byte ∧
      byte.getLsbD (x % (8 / w) * w + b) = v.getLsbD b) ∧
    (∀ j k byte, k < 8 → values.length * w ≤ 8 * j + k → t.buf[s.buf.length + j]? = some byte → byte.getLsbD k = false)

/-! ### The run-length compressor -/

/-- Round trip (43_rle.md R141): RLE.ENCODE completes for every byte list, and RLE.DECODE of its result completes and returns the
list. That both return their list in `ret` and change nothing of the block is log 28. The empty list encodes to the empty list, a list of one byte x to 00 x. -/
def Obligations.RleRoundTrip : Prop :=
  (∀ (s : State) (b : List Byte),
    exec (.rleEncode b) s = .next { s with ret := .bytes (rleEncode b) } ∧
    exec (.rleDecode (rleEncode b)) s = .next { s with ret := .bytes b }) ∧
  rleEncode [] = [] ∧ ∀ x : Byte, rleEncode [x] = [0, x]

/-- Size (43_rle.md R138): the output is never longer than 2 * n, reaches it only for n = 0 and n = 1, and for n equal bytes is
2 * ceil(n / 128), but for a last run of 1, which costs the same two bytes as a literal. -/
def Obligations.RleEncodeSize : Prop :=
  (∀ b : List Byte, (rleEncode b).length ≤ 2 * b.length ∧
    ((rleEncode b).length = 2 * b.length → b.length ≤ 1)) ∧
  (∀ (n : Nat) (v : Byte), (rleEncode (List.replicate n v)).length = 2 * ((n + 127) / 128))

/-- Packet bounds and the greedy rule (43_rle.md R137): the output is a concatenation of packets of run length 2 to 128 and literal
length 1 to 128 that stand for the input in order, with the neighbourhood rules of the greedy scan. -/
def Obligations.RleOutputIsGreedyPackets : Prop :=
  ∀ b : List Byte, ∃ ps : List Packet, (∀ q ∈ ps, q.inRange = true) ∧ rleEncode b = ps.flatMap Packet.serial ∧
    ps.flatMap Packet.expand = b ∧ greedy ps = true

/-- RLE.DECODE answers exactly the concatenations of packets in range (43_rle.md R140; 30_encoding.md R78, R83), with what they stand
for, and refuses every other stream. -/
def Obligations.RleDecodeAnswersPacketStreams : Prop :=
  ∀ (s : State) (stream : List Byte),
    (∀ ps : List Packet, (∀ q ∈ ps, q.inRange = true) → stream = ps.flatMap Packet.serial →
      exec (.rleDecode stream) s = .next { s with ret := .bytes (ps.flatMap Packet.expand) }) ∧
    ((¬ ∃ ps : List Packet, (∀ q ∈ ps, q.inRange = true) ∧ stream = ps.flatMap Packet.serial) →
      exec (.rleDecode stream) s = .refused .streamMalformed)

/-- The reserved control byte 0x80 stops on every path, and a stream that begins with it is refused by the reference decoder
(30_encoding.md R83). -/
def Obligations.ReservedControlByteStops : Prop :=
  ∀ (s : State) (rest : List Byte), exec .rleReserved80 s = .refused .reservedControlByte ∧
    exec (.rleDecode (0x80 :: rest)) s = .refused .streamMalformed

/-- RLE.MEASURE (43_rle.md R132): with a byte at the cursor RUNLEN becomes the length of the maximal run of identical bytes that
starts there, capped at 128; nothing else changes. -/
def Obligations.RleMeasureMaximalRun : Prop :=
  ∀ s : State, s.cur < s.buf.length → ∃ r : Nat, exec .rleMeasure s = .next { s with runlen := r } ∧ 1 ≤ r ∧ r ≤ 128 ∧
    s.cur + r ≤ s.buf.length ∧ (∀ k, k < r → s.buf[s.cur + k]? = s.buf[s.cur]?) ∧
    (r < 128 → s.buf[s.cur + r]? ≠ s.buf[s.cur]?)

/-- RLE.RUN (43_rle.md R133): a non-empty LIT is flushed first, then the run packet is appended to PAY and CUR advances by
RUNLEN. The packet word of the operation is the one RUNLEN and the byte at the cursor give. -/
def Obligations.RleRunEmitsPacket : Prop :=
  ∀ (s : State) (n : BitVec 7) (v : Byte), 2 ≤ s.runlen → s.runlen = n.toNat + 1 → s.buf[s.cur]? = some v →
    exec (.rleRun n v) s = .next
      { s with
        pay := s.pay ++ (if s.lit = [] then [] else BitVec.ofNat 8 (s.lit.length - 1) :: s.lit) ++
          [BitVec.ofNat 8 (128 + (s.runlen - 1)), v],
        lit := [], cur := s.cur + s.runlen }

/-- RLE.LIT (43_rle.md R134): the byte at the cursor joins LIT and CUR advances by 1; a block of 128 is flushed. -/
def Obligations.RleLitExtendsBlock : Prop :=
  ∀ (s : State) (v : Byte), s.runlen = 1 → s.buf[s.cur]? = some v →
    exec .rleLit s = .next
      (if s.lit.length + 1 = 128 then
        { s with pay := s.pay ++ 0x7F :: (s.lit ++ [v]), lit := [], cur := s.cur + 1 }
      else { s with lit := s.lit ++ [v], cur := s.cur + 1 })

/-- RLE.FLUSH (43_rle.md R135): the literal packet of LIT, control byte |LIT| - 1 and the raw bytes, is appended to PAY and LIT
becomes empty. -/
def Obligations.RleFlushEmitsLiteral : Prop :=
  ∀ s : State, 1 ≤ s.lit.length → s.lit.length ≤ 128 →
    ∃ c : Byte, c.toNat = s.lit.length - 1 ∧
      exec (.rleFlush s.lit) s = .next { s with pay := s.pay ++ c :: s.lit, lit := [] }

/-- RLE.BYPASS (43_rle.md R139): with JOB.RLE = 0 PAY becomes BUF and nothing else changes. -/
def Obligations.RleBypassCopiesBuffer : Prop :=
  ∀ s : State, s.job.rle = false → exec .rleBypass s = .next { s with pay := s.buf }

/-- Where the conditions of 43_rle.md R132 to R135 and R139 are false the operations stop by name (the model's choice, log 13 and
log 14). -/
def Obligations.RleConditionsStop : Prop :=
  ∀ (s : State) (n : BitVec 7) (v : Byte) (data : List Byte),
    (s.buf.length ≤ s.cur → exec .rleMeasure s = .refused .conditionNotMet ∧ exec .rleLit s = .refused .conditionNotMet) ∧
    (s.runlen < 2 ∨ s.runlen ≠ n.toNat + 1 ∨ s.buf[s.cur]? ≠ some v → exec (.rleRun n v) s = .refused .conditionNotMet) ∧
    (s.runlen ≠ 1 → exec .rleLit s = .refused .conditionNotMet) ∧
    (s.lit = [] ∨ 128 < s.lit.length ∨ data ≠ s.lit → exec (.rleFlush data) s = .refused .conditionNotMet) ∧
    (s.job.rle = true → exec .rleBypass s = .refused .conditionNotMet)

/-- The RLE phase computes `rle_encode` (43_rle.md R131; 45_sequencer.md R166, R175): from its start, after one step per pass and
RLE.END, PAY is the encoding of BUF, and nothing but PAY, LIT, CUR, RUNLEN and PHASE has changed. -/
def Obligations.RlePhaseComputesEncoding : Prop :=
  ∀ s : State, s.phase = .rle → s.cur = 0 → s.lit = [] → s.pay = [] → s.host = [] →
    ∃ (k r : Nat), k ≤ s.buf.length + 1 ∧
      core.run k s = .next
        { s with phase := .emit, pay := rleEncode s.buf, lit := [], cur := s.buf.length, runlen := r }

/-! ### The header writer -/

/-- HDR.WRITE (44_header.md R151, R152): "D2", then width, height, flags, type, mode and length little-endian, 14 bytes, written to
OUT[0..14); a length over 2^32 - 1 raises HeaderFieldRange (60_exceptions.md R184). That the rest of OUT and OUT_LEN stay and that
the bytes are also returned is the model's reading (log 23). -/
def Obligations.HeaderWriteBytes : Prop :=
  ∀ (s : State) (width height mode : Half) (flags kind : Byte) (len : Nat),
    (len < 2 ^ 32 → ∃ bs : List Byte, bs.length = 14 ∧
      exec (.hdrWrite width height flags kind mode len) s = .next
        { s with out := bs ++ s.out.drop 14, ret := .bytes bs } ∧
      bs.take 2 = [0x44, 0x32] ∧ leValue ((bs.drop 2).take 2) = width.toNat ∧ leValue ((bs.drop 4).take 2) = height.toNat ∧
      (bs.drop 6).take 2 = [flags, kind] ∧ leValue ((bs.drop 8).take 2) = mode.toNat ∧ leValue (bs.drop 10) = len) ∧
    (2 ^ 32 ≤ len → exec (.hdrWrite width height flags kind mode len) s = .next
      { s with cause := s.params.causeCode.headerFieldRange, outLen := 0, phase := .fault })

/-! ### The host's operations -/

/-- START (45_sequencer.md R161): ignored while busy; else JOB is latched from the registers, the previous result and every working
register are cleared (with ACC and BITS the model's own record of the row's width, log 15) and PHASE becomes CHECK. -/
def Obligations.StartLatchesJob : Prop :=
  ∀ s : State,
    (s.phase ∈ [.check, .encode, .rle, .emit] → exec .start s = .next s) ∧
    (s.phase ∈ [.idle, .done, .fault] → exec .start s = .next
      { s with
        job :=
          { fmt := s.cfg.extractLsb' 0 4, rle := s.cfg.getLsbD 4, hdrEn := s.cfg.getLsbD 8, maskEn := s.cfg.getLsbD 9,
            layout := ([.indexed, .rgb, .rgba, .other] : List Layout).getD (s.srcDesc.toNat % 4) .other,
            idxAlpha := s.srcDesc.getLsbD 2, maskOk := s.srcDesc.getLsbD 3, w := s.dimW, h := s.dimH,
            hdrFlags := s.hdrAux.extractLsb' 0 8, hdrType := s.hdrAux.extractLsb' 8 8,
            mode := s.params.modeCode.modeValue (s.cfg.extractLsb' 0 4) (s.cfg.getLsbD 4) },
        cause := 0, outLen := 0, buf := [], pay := [], out := [], acc := 0, bits := 0, rowWidth := none, x := 0, y := 0,
        cur := 0, lit := [], runlen := 0, phase := .check })

/-- SRST (45_sequencer.md R162; the values of 10_state.md R34, written out): every piece of the block's state takes its reset value
from any phase, whatever the START bit. JOB, which R34 leaves unspecified, takes the value of log 2; SRC, MASK, the parameters, the host's
moves and what it was last given stay (log 18). The reset input does the same (70_reset_and_hazards.md R210), and the
machine right after reset has these values. -/
def Obligations.ResetsGiveResetState : Prop :=
  ∀ (s : State) (startBit : Bool) (rest : List HostMove),
    exec (.srst startBit) s = .next
      { phase := .idle, cause := 0, cfg := 0, srcDesc := 0, dimW := 0, dimH := 0, hdrAux := 0, outLen := 0,
        job :=
          { fmt := 0, rle := false, hdrEn := false, maskEn := false, layout := .indexed, idxAlpha := false, maskOk := false,
            w := 0, h := 0, hdrFlags := 0, hdrType := 0, mode := 0 },
        y := 0, x := 0, cur := 0, runlen := 0, acc := 0, bits := 0, rowWidth := none, lit := [], buf := [], pay := [], out := [],
        src := s.src, mask := s.mask, host := s.host, ret := s.ret, params := s.params } ∧
    (s.host = .hwReset :: rest → step s = exec (.srst startBit) { s with host := rest }) ∧
    exec (.srst startBit) State.reset = .next State.reset

/-- RDREG (45_sequencer.md R169; 10_state.md R20, R21, R22, R28, R29): the value of each register by number, 0 for CTRL and above 8;
nothing but the returned value changes. -/
def Obligations.RegisterReadValues : Prop :=
  ∀ s : State, ∀ k : Nat, ∃ v : Nat, exec (.rdreg k) s = .next { s with ret := .reg v } ∧
    v = if k = 1 then
          (if s.phase ∈ [.check, .encode, .rle, .emit] then 1 else 0) + (if s.phase = .done then 2 else 0) +
            (if s.phase = .fault then 4 else 0) + 16 * s.cause.toNat
        else if k = 2 then s.cfg.toNat
        else if k = 3 then s.srcDesc.toNat
        else if k = 4 then s.dimW.toNat
        else if k = 5 then s.dimH.toNat
        else if k = 6 then s.hdrAux.toNat
        else if k = 7 then (s.params.modeCode.modeValue (s.cfg.extractLsb' 0 4) (s.cfg.getLsbD 4)).toNat
        else if k = 8 then s.outLen
        else 0

/-- WRREG to the configuration registers (45_sequencer.md R169; 10_state.md R20, R23): while not busy the register takes the data, cut
to its width, reserved bits of CFG (5, 7:6, 15:10) forced to 0. -/
def Obligations.ConfigurationWrites : Prop :=
  ∀ (s : State) (v : Word), s.phase ∈ [.idle, .done, .fault] →
    (∃ c : Half, exec (.wrreg 2 v) s = .next { s with cfg := c } ∧
      ∀ b, b < 16 → c.getLsbD b = (v.getLsbD b && decide (b ∈ [0, 1, 2, 3, 4, 8, 9]))) ∧
    exec (.wrreg 3 v) s = .next { s with srcDesc := BitVec.ofNat 4 (v.toNat % 16) } ∧
    exec (.wrreg 4 v) s = .next { s with dimW := BitVec.ofNat 16 (v.toNat % 65536) } ∧
    exec (.wrreg 5 v) s = .next { s with dimH := BitVec.ofNat 16 (v.toNat % 65536) } ∧
    exec (.wrreg 6 v) s = .next { s with hdrAux := BitVec.ofNat 16 (v.toNat % 65536) }

/-- WRREG where it does nothing (45_sequencer.md R169): registers 2 to 6 while busy, the read-only registers 1, 7, 8 and numbers
above 8. -/
def Obligations.IgnoredRegisterWrites : Prop :=
  ∀ (s : State) (k : Nat) (v : Word),
    (k ∈ [2, 3, 4, 5, 6] ∧ s.phase ∈ [.check, .encode, .rle, .emit]) ∨ k ∈ [1, 7, 8] ∨ 8 < k →
    exec (.wrreg k v) s = .next s

/-- A write to CTRL (10_state.md R21; 30_encoding.md R88), by register number or by the word of CTRL itself: bit 1 is SRST whatever
bit 0, bit 0 alone is START, both clear no operation; other bits are ignored (93_implementation_defined.md U17). -/
def Obligations.ControlWrites : Prop :=
  ∀ (s : State) (v : Word),
    (v.getLsbD 1 = true → exec (.wrreg 0 v) s = exec (.srst (v.getLsbD 0)) s) ∧
    (v.getLsbD 1 = false → v.getLsbD 0 = true → exec (.wrreg 0 v) s = exec .start s) ∧
    (v.getLsbD 1 = false → v.getLsbD 0 = false → exec (.wrreg 0 v) s = .next s) ∧
    ∀ (b : Byte) (rest : List HostMove), s.host = .op ⟨.ctrl2, [b]⟩ :: rest →
      (b.getLsbD 1 = true → step s = exec (.srst (b.getLsbD 0)) { s with host := rest }) ∧
      (b.getLsbD 1 = false → b.getLsbD 0 = true → step s = exec .start { s with host := rest }) ∧
      (b.getLsbD 1 = false → b.getLsbD 0 = false → step s = .next { s with host := rest })

/-- The host supplies its own memories while BUSY = 0 (20_memory.md R55; 45_sequencer.md R173): a mask byte written reads back, every
other byte of MASK and every byte of SRC reads as before; a token written reads back through SrcRead by its layout, and every other
place of SRC and all of MASK reads as before. Nothing else changes. How the memories are laid out in cells is log 3 and log 4. -/
def Obligations.HostSuppliesSources : Prop :=
  ∀ (s : State) (x y : Half) (rest : List HostMove), s.phase ∈ [.idle, .done, .fault] →
    (∀ a : Byte, s.host = .putMask x y a :: rest → ∃ mask, step s = .next { s with host := rest, mask := mask } ∧
      maskByte mask x.toNat y.toNat = a ∧
      ∀ x' y' : Half, (x', y') ≠ (x, y) → maskByte mask x'.toNat y'.toNat = maskByte s.mask x'.toNat y'.toNat) ∧
    (∀ tok : Token, s.host = .putSrc x y tok :: rest → ∃ src, step s = .next { s with host := rest, src := src } ∧
      (match tok with
        | .direct t => srcRead .rgba false src x.toNat y.toNat = some (.direct t) ∧
            srcRead .rgb false src x.toNat y.toNat = some (.direct { t with a := 255 })
        | .indexed t => srcRead .indexed t.alpha.isSome src x.toNat y.toNat = some (.indexed t)) ∧
      ∀ (x' y' : Half) (layout : Layout) (idxAlpha : Bool), (x', y') ≠ (x, y) →
        srcRead layout idxAlpha src x'.toNat y'.toNat = srcRead layout idxAlpha s.src x'.toNat y'.toNat)

/-- The host's windows (20_memory.md R55, U3): while BUSY it has no write of SRC or MASK and no read of OUT (refused by name); when
not busy
it reads OUT[0..OUT_LEN), and there is no byte at or beyond OUT_LEN. The spec gives neither access a meaning; the stops are the
model's choice, log 21. Its reads of SRC and MASK it has in every phase, and they change nothing but what it is given (log 30). -/
def Obligations.HostAccessWindows : Prop :=
  ∀ (s : State) (x y : Half) (tok : Token) (a : Byte) (addr : Nat) (rest : List HostMove),
    (s.phase ∈ [.check, .encode, .rle, .emit] →
      s.host = .putSrc x y tok :: rest ∨ s.host = .putMask x y a :: rest ∨ s.host = .readOut addr :: rest →
      step s = .refused .hostAccessWhileBusy) ∧
    (s.phase ∈ [.idle, .done, .fault] → s.host = .readOut addr :: rest →
      (∀ b, addr < s.outLen → s.out[addr]? = some b → step s = .next { s with host := rest, ret := .byte b }) ∧
      (s.outLen ≤ addr → step s = .fault .outBeyondLength)) ∧
    (s.host = .readSrc x y :: rest → step s = .next
      { s with
        host := rest, ret := .bytes [srcByte s.src x.toNat y.toNat 0, srcByte s.src x.toNat y.toNat 1,
          srcByte s.src x.toNat y.toNat 2, srcByte s.src x.toNat y.toNat 3] }) ∧
    (s.host = .readMask x y :: rest → step s = .next { s with host := rest, ret := .byte (maskByte s.mask x.toNat y.toNat) })

/-! ### The steps of a conversion -/

/-- CHECK (45_sequencer.md R163) on a job whose target code is that of the mode `n`: the tests in their order, the first that fails
deciding the cause (a raise writes CAUSE, OUT_LEN and PHASE, 60_exceptions.md R184); when all pass, the packer is cleared
(with the model's own record of the row's width, log 15) and PHASE becomes ENCODE. -/
def Obligations.CheckTestsInOrder : Prop :=
  ∀ (s : State) (n : FormatName), s.params.modeCode.wf → s.phase = .check → s.job.fmt = s.params.modeCode.code n →
    exec .check s =
      (if s.job.layout = .other then
        .next { s with cause := s.params.causeCode.unsupportedSourcePixelLayout, outLen := 0, phase := .fault }
      else if s.job.maskEn = true ∧ s.job.maskOk = false then
        .next { s with cause := s.params.causeCode.maskUnavailableOrInvalid, outLen := 0, phase := .fault }
      else if n ∉ [.argb8888, .rgba8888, .rgb565, .ai44, .i8, .i4, .i2, .i1] then
        .next { s with cause := s.params.causeCode.unsupportedTargetMode, outLen := 0, phase := .fault }
      else if n ∈ [.argb8888, .rgba8888, .rgb565] ∧ s.job.layout = .indexed then
        .next { s with cause := s.params.causeCode.unsupportedSourcePixelLayout, outLen := 0, phase := .fault }
      else if n ∈ [.ai44, .i8, .i4, .i2, .i1] ∧ s.job.layout ∈ [.rgb, .rgba] then
        .next { s with cause := s.params.causeCode.unsupportedSourcePixelLayout, outLen := 0, phase := .fault }
      else if s.params.bufCap.any (fun cap => decide (cap < s.job.h.toNat * n.rowBytes s.job.w.toNat)) then
        .next { s with cause := s.params.causeCode.capacityExceeded, outLen := 0, phase := .fault }
      else .next { s with acc := 0, bits := 0, rowWidth := none, phase := .encode })

/-- Row length (20_memory.md R50): the values of `row_bytes` for each mode, ceil being the least integer not less; and a row of W
pixels occupies exactly that many bytes of BUF: from the start of a row of a job that passes CHECK, with a silent host, W pixels and
the end of the row append them, whatever the rows before. -/
def Obligations.RowBytesOfModes : Prop :=
  (∀ (n : FormatName) (width k : Nat),
    (n ∈ [.argb8888, .rgba8888] → n.rowBytes width = 4 * width) ∧ (n = .rgb565 → n.rowBytes width = 2 * width) ∧
    (n ∈ [.ai44, .i8] → n.rowBytes width = width) ∧
    (n = .i4 → (n.rowBytes width ≤ k ↔ width * 4 ≤ 8 * k)) ∧ (n = .i2 → (n.rowBytes width ≤ k ↔ width * 2 ≤ 8 * k)) ∧
    (n = .i1 → (n.rowBytes width ≤ k ↔ width ≤ 8 * k))) ∧
  ∀ (s : State) (n : FormatName), WorkingInv s → s.host = [] → s.phase = .encode → s.y < s.job.h.toNat → s.x = 0 → s.bits = 0 →
    checkJob s.params s.job = none → s.params.modeCode.nameOf s.job.fmt = some n →
    ∃ (t : State) (row : List Byte), core.run (s.job.w.toNat + 1) s = .next t ∧ t.buf = s.buf ++ row ∧
      row.length = n.rowBytes s.job.w.toNat ∧ t.phase = .encode ∧ t.y = s.y + 1 ∧ t.x = 0 ∧ t.bits = 0

/-- ENCODE.PIXEL (45_sequencer.md R164; 41_pixel_encode.md R100): the token under the cursor, and for AI44 with MASK_EN the mask
byte, go through the mode's ENC operation. Where that returns bytes they are appended to BUF; where it returns a value and its width
they go to PACK, with BITS a multiple of the width and below 8 as 10_state.md R35 has it and no other width in the row. X advances
by 1. -/
def Obligations.EncodePixelRunsTransform : Prop :=
  ∀ s : State, s.params.modeCode.wf → s.phase = .encode → s.y < s.job.h.toNat → s.x < s.job.w.toNat →
    (∀ (tok : Direct) (enc : Instr), srcRead s.job.layout s.job.idxAlpha s.src s.x s.y = some (.direct tok) →
      (s.job.fmt = s.params.modeCode.argb8888 ∧ enc = .encArgb8888 s.job.rle tok) ∨
      (s.job.fmt = s.params.modeCode.rgba8888 ∧ enc = .encRgba8888 s.job.rle tok) ∨
      (s.job.fmt = s.params.modeCode.rgb565 ∧ enc = .encRgb565 s.job.rle tok) →
      ∃ bs, exec enc s = .next { s with ret := .bytes bs } ∧
        exec .encodePixel s = .next { s with buf := s.buf ++ bs, x := s.x + 1 }) ∧
    (∀ tok : Indexed, srcRead s.job.layout s.job.idxAlpha s.src s.x s.y = some (.indexed tok) →
      s.job.fmt = s.params.modeCode.ai44 →
      ∃ bs, exec (.encAi44 s.job.rle tok (if s.job.maskEn then some (maskByte s.mask s.x s.y) else none)) s =
          .next { s with ret := .bytes bs } ∧
        exec .encodePixel s = .next { s with buf := s.buf ++ bs, x := s.x + 1 }) ∧
    (∀ (tok : Indexed) (enc : Instr) (w : Nat), srcRead s.job.layout s.job.idxAlpha s.src s.x s.y = some (.indexed tok) →
      (s.job.fmt = s.params.modeCode.i8 ∧ enc = .encI8 s.job.rle tok ∧ w = 8) ∨
      (s.job.fmt = s.params.modeCode.i4 ∧ enc = .encI4 s.job.rle tok ∧ w = 4) ∨
      (s.job.fmt = s.params.modeCode.i2 ∧ enc = .encI2 s.job.rle tok ∧ w = 2) ∨
      (s.job.fmt = s.params.modeCode.i1 ∧ enc = .encI1 s.job.rle tok ∧ w = 1) →
      s.bits < 8 → s.bits % w = 0 → (∀ rowWidth, s.rowWidth = some rowWidth → w = rowWidth) →
      ∃ (v : Byte) (t : State), exec enc s = .next { s with ret := .bits v w } ∧ exec (.pack v w) s = .next t ∧
        exec .encodePixel s = .next { t with x := s.x + 1 })

/-- ENCODE.ROWEND (45_sequencer.md R165): FLUSH_ROW, the cursor to the start of the next row, ROW_BEGIN (which also clear the model's
own record of the row's width, log 15). -/
def Obligations.EncodeRowendFlushes : Prop :=
  ∀ s : State, s.phase = .encode → s.y < s.job.h.toNat → s.x = s.job.w.toNat →
    exec .encodeRowend s = .next
      { s with
        buf := (if s.bits = 0 then s.buf else s.buf ++ [s.acc]), acc := 0, bits := 0, rowWidth := none, y := s.y + 1, x := 0 }

/-- ENCODE.END (45_sequencer.md R174): to RLE with an empty stage, or to EMIT with PAY the buffer; in a state with the invariants
|BUF| is then JOB.H rows of row_bytes. -/
def Obligations.EncodeEndSelectsStage : Prop :=
  ∀ s : State, s.phase = .encode → s.y = s.job.h.toNat →
    exec .encodeEnd s = .next
      (if s.job.rle then { s with cur := 0, lit := [], pay := [], phase := .rle }
       else { s with pay := s.buf, phase := .emit }) ∧
    (WorkingInv s → BufferInv s → ∀ n, s.params.modeCode.nameOf s.job.fmt = some n →
      s.buf.length = s.job.h.toNat * n.rowBytes s.job.w.toNat)

/-- RLE.STEP (45_sequencer.md R166): RLE.MEASURE, then RLE.RUN of the measured packet when RUNLEN >= 2, else RLE.LIT. -/
def Obligations.RleStepMeasuresAndTakes : Prop :=
  ∀ (s : State) (v : Byte), s.phase = .rle → s.buf[s.cur]? = some v →
    ∃ t u, exec .rleMeasure s = .next t ∧
      (if 2 ≤ t.runlen then exec (.rleRun (BitVec.ofNat 7 (t.runlen - 1)) v) t else exec .rleLit t) = .next u ∧
      exec .rleStep s = .next u ∧ u.cur = s.cur + t.runlen

/-- RLE.END (45_sequencer.md R175): a non-empty LIT is flushed and PHASE becomes EMIT. -/
def Obligations.RleEndFlushes : Prop :=
  ∀ s : State, s.phase = .rle → s.cur = s.buf.length →
    exec .rleEnd s = .next
      { s with
        pay := s.pay ++ (if s.lit = [] then [] else BitVec.ofNat 8 (s.lit.length - 1) :: s.lit), lit := [], phase := .emit }

/-- EMIT (45_sequencer.md R167) on an empty OUT, as it is from START on. The length test comes first, then the capacity test, both
before any byte of OUT is written. When both pass OUT becomes the header HDR.WRITE returns for the job, when requested, and the
payload; OUT_LEN is their length; PHASE becomes DONE. -/
def Obligations.EmitTestsThenWrites : Prop :=
  ∀ s : State, s.phase = .emit → s.out = [] →
    (s.job.hdrEn = true → 2 ^ 32 - 1 < s.pay.length → exec .emit s = .next
      { s with cause := s.params.causeCode.headerFieldRange, outLen := 0, phase := .fault }) ∧
    ((s.job.hdrEn = true → s.pay.length ≤ 2 ^ 32 - 1) →
      (∀ cap, s.params.outCap = some cap → cap < (if s.job.hdrEn then 14 else 0) + s.pay.length →
        exec .emit s = .next { s with cause := s.params.causeCode.capacityExceeded, outLen := 0, phase := .fault }) ∧
      ((∀ cap, s.params.outCap = some cap → (if s.job.hdrEn then 14 else 0) + s.pay.length ≤ cap) →
        ∃ hdr : List Byte,
          (s.job.hdrEn = false → hdr = []) ∧
          (s.job.hdrEn = true → hdr.length = 14 ∧ ∃ t, t.ret = .bytes hdr ∧
            exec (.hdrWrite s.job.w s.job.h s.job.hdrFlags s.job.hdrType s.job.mode s.pay.length) s = .next t) ∧
          exec .emit s = .next { s with out := hdr ++ s.pay, outLen := hdr.length + s.pay.length, phase := .done }))

/-- A step of the conversion invoked where its "Enabled" line is false stops by name (45_sequencer.md §3 enables exactly one step in
a phase; the stop is the model's choice, log 13). -/
def Obligations.DisabledStepsStop : Prop :=
  ∀ s : State,
    (s.phase ≠ .check → exec .check s = .refused .stepNotEnabled) ∧
    (s.phase ≠ .encode ∨ s.job.h.toNat ≤ s.y ∨ s.job.w.toNat ≤ s.x → exec .encodePixel s = .refused .stepNotEnabled) ∧
    (s.phase ≠ .encode ∨ s.job.h.toNat ≤ s.y ∨ s.x ≠ s.job.w.toNat → exec .encodeRowend s = .refused .stepNotEnabled) ∧
    (s.phase ≠ .encode ∨ s.y ≠ s.job.h.toNat → exec .encodeEnd s = .refused .stepNotEnabled) ∧
    (s.phase ≠ .rle ∨ s.buf.length ≤ s.cur → exec .rleStep s = .refused .stepNotEnabled) ∧
    (s.phase ≠ .rle ∨ s.cur ≠ s.buf.length → exec .rleEnd s = .refused .stepNotEnabled) ∧
    (s.phase ≠ .emit → exec .emit s = .refused .stepNotEnabled)

/-! ### The machine as a whole -/

/-- The state invariants of 10_state.md R35, kept by every step of the block and of a host that makes only its own moves. -/
def Obligations.WorkingInvariantKept : Prop :=
  ∀ s t : State, WorkingInv s → step s = .next t → WorkingInv t

/-- CAUSE and OUT_LEN (10_state.md R22, R29; 93_implementation_defined.md U18): every step keeps CAUSE 0 outside FAULT and one of
the block's own causes in it, and OUT_LEN 0 outside DONE. -/
def Obligations.StatusInvariantKept : Prop :=
  ∀ s t : State, StatusInv s → step s = .next t → StatusInv t

/-- No partial output (60_exceptions.md R192; 10_state.md R29): every step keeps OUT empty outside DONE and OUT_LEN = |OUT| in it. -/
def Obligations.OutputInvariantKept : Prop :=
  ∀ s t : State, OutputInv s → step s = .next t → OutputInv t

/-- JOB.MODE is mode_value(JOB.FMT, JOB.RLE) once a START has written JOB (10_state.md R30), kept by every step. -/
def Obligations.JobModeInvariantKept : Prop :=
  ∀ s t : State, JobModeInv s → step s = .next t → JobModeInv t

/-- The host's memories stay in canonical form, whatever the step. -/
def Obligations.MemoryInvariantKept : Prop :=
  ∀ s t : State, MemoryInv s → step s = .next t → MemoryInv t

/-- The six invariants hold at reset (10_state.md R34). -/
def Obligations.InvariantsHoldAtReset : Prop :=
  WorkingInv State.reset ∧ StatusInv State.reset ∧ OutputInv State.reset ∧ JobModeInv State.reset ∧
    MemoryInv State.reset ∧ BufferInv State.reset

/-- After CHECK the encoding never stops and never faults (45_sequencer.md R164: "every fault of the pixel stage was taken in CHECK"):
in a state of phase ENCODE that has the invariants of 10_state.md R35 and whose job passes CHECK, the block's step answers a next
state, in ENCODE, RLE or EMIT. -/
def Obligations.EncodingNeverStops : Prop :=
  ∀ s u : State, WorkingInv s → s.phase = .encode → s.host = [] →
    exec .check { s with phase := .check } = .next u → u.phase = .encode →
    ∃ t, step s = .next t ∧ t.phase ∈ [.encode, .rle, .emit]

/-- What no operation does: SRC and MASK are never written by the block (60_exceptions.md R192), nor are the parameters
(00_scope.md R6) or the host's moves; only the host's writes and the reset change the configuration registers (10_state.md R20;
70_reset_and_hazards.md R211: START does not touch them); only START and the reset write JOB (10_state.md R30). -/
def Obligations.OperationsKeepForeignState : Prop :=
  ∀ (i : Instr) (s t : State), exec i s = .next t →
    (t.src = s.src ∧ t.mask = s.mask ∧ t.params = s.params ∧ t.host = s.host) ∧
    ((∀ k v, i ≠ .wrreg k v) → (∀ b, i ≠ .srst b) →
      t.cfg = s.cfg ∧ t.srcDesc = s.srcDesc ∧ t.dimW = s.dimW ∧ t.dimH = s.dimH ∧ t.hdrAux = s.hdrAux) ∧
    (i ≠ .start → (∀ v, i ≠ .wrreg 0 v) → (∀ b, i ≠ .srst b) → t.job = s.job)

/-- A run computes `convert` (45_sequencer.md R172): from any state in which no conversion is running, with a silent host, START
and then the block's own steps reach, within the steps of R170, DONE with the output convert gives or FAULT with its cause. -/
def Obligations.RunComputesConvert : Prop :=
  ∀ s u : State, s.phase ∈ [.idle, .done, .fault] → s.host = [] → exec .start s = .next u →
    ∃ t, core.run (stepBound u.params u.job) u = .next t ∧
      match convert u.params u.job u.src u.mask with
      | .ok out => t.phase = .done ∧ t.cause = 0 ∧ t.outLen = out.length ∧ t.out = out
      | .error c => t.phase = .fault ∧ t.cause = u.params.causeCode.code c ∧ t.outLen = 0

/-- The length of BUF (20_memory.md R51; 45_sequencer.md R163, R174): every step of a state with the working invariant keeps it: whole
rows of row_bytes and the pixels of the row under the cursor while encoding, JOB.H rows within BUF_CAP from there on. -/
def Obligations.BufferInvariantKept : Prop :=
  ∀ s t : State, WorkingInv s → BufferInv s → step s = .next t → BufferInv t
end

