-- ==== Sys2Proof/Laws/Bits.lean ====
section
/-! SUPPORT. Byte order and floor arithmetic. -/

namespace Sys2Proof.Machine

@[simp] theorem leBytes_length (n v : Nat) : (leBytes n v).length = n := by
  induction n generalizing v with
  | zero => rfl
  | succ n ih => simp [leBytes, ih]

theorem leValue_lt (bs : List Byte) : leValue bs < 256 ^ bs.length := by
  induction bs with
  | nil => simp [leValue]
  | cons b bs ih =>
    have hb := b.isLt
    simp only [leValue, List.length_cons, Nat.pow_succ]
    omega

/-- The value of the n low bytes is the number modulo 256^n. -/
theorem leValue_leBytes (n v : Nat) : leValue (leBytes n v) = v % 256 ^ n := by
  induction n generalizing v with
  | zero => simp [leBytes, leValue, Nat.mod_one]
  | succ n ih =>
    have h := Nat.mod_mul (x := v) (a := 256) (b := 256 ^ n)
    rw [leBytes, leValue, ih, BitVec.toNat_ofNat, show 256 ^ (n + 1) = 256 * 256 ^ n from Nat.pow_succ', h]

theorem leValue_leBytes_of_lt {n v : Nat} (h : v < 256 ^ n) : leValue (leBytes n v) = v := by
  rw [leValue_leBytes, Nat.mod_eq_of_lt h]

/-- A byte list is determined by its length and value. -/
theorem leBytes_leValue (bs : List Byte) : leBytes bs.length (leValue bs) = bs := by
  induction bs with
  | nil => rfl
  | cons b bs ih =>
    have hb := b.isLt
    have h1 : (b.toNat + 256 * leValue bs) / 256 = leValue bs := by omega
    have h2 : BitVec.ofNat 8 (b.toNat + 256 * leValue bs) = b := by
      apply BitVec.eq_of_toNat_eq
      simp only [BitVec.toNat_ofNat]
      omega
    simp [leBytes, leValue, h1, h2, ih]

@[simp] theorem beBytes_length (n v : Nat) : (beBytes n v).length = n := by simp [beBytes]

/-- A channel scaled by a byte stays within the byte (41_pixel_encode.md R112). -/
theorem scale255_le (c : Byte) (k : Nat) : scale255 c.toNat k ≤ k := by
  have hc := c.isLt
  have h : c.toNat * k ≤ 255 * k := Nat.mul_le_mul_right k (by omega)
  unfold scale255
  omega

theorem maskLow_toNat (v : Byte) (w : Nat) (hw : w ≤ 8) : (maskLow v w).toNat = v.toNat % 2 ^ w := by
  have h : (2 ^ w - 1) % 256 = 2 ^ w - 1 := by
    have : 2 ^ w ≤ 2 ^ 8 := Nat.pow_le_pow_right (by decide) hw
    omega
  simp [maskLow, h, Nat.and_two_pow_sub_one_eq_mod]

end Sys2Proof.Machine
end

