-- ==== Sys2Proof/Laws/Memory.lean ====
section
/-! SUPPORT. The host's memories: reads after writes, and the canonical form. -/

namespace Sys2Proof.Machine

@[simp] theorem lookup_write_same (m : List Host.Cell) (a : Nat) (b : Byte) :
    Memory.lookup (Memory.write m a b) a = some b := by
  induction m with
  | nil => simp [Memory.write, Memory.lookup]
  | cons c m ih =>
    obtain ⟨k, v⟩ := c
    rw [Memory.write]
    split
    · simp [Memory.lookup]
    · split
      · simp [Memory.lookup]
      · rename_i h1 h2
        simp [Memory.lookup, Ne.symm h2, ih]

theorem lookup_write_other (m : List Host.Cell) (a a' : Nat) (b : Byte) (h : a' ≠ a) :
    Memory.lookup (Memory.write m a b) a' = Memory.lookup m a' := by
  induction m with
  | nil => simp [Memory.write, Memory.lookup, Ne.symm h]
  | cons c m ih =>
    obtain ⟨k, v⟩ := c
    rw [Memory.write]
    split
    · simp [Memory.lookup, Ne.symm h]
    · split
      · rename_i h1 h2
        subst h2
        simp [Memory.lookup, Ne.symm h]
      · simp [Memory.lookup, ih]

/-- A stored key is the new one or an old one. -/
theorem mem_write_keys (m : List Host.Cell) (a : Nat) (b : Byte) (k : Nat)
    (h : k ∈ (Memory.write m a b).map Prod.fst) : k = a ∨ k ∈ m.map Prod.fst := by
  induction m with
  | nil => simpa [Memory.write] using h
  | cons c m ih =>
    obtain ⟨k', v⟩ := c
    rw [Memory.write] at h
    split at h
    · simpa using h
    · split at h
      · rename_i h1 h2
        simp at h ⊢
        tauto
      · simp only [List.map_cons, List.mem_cons] at h ⊢
        rcases h with h | h
        · exact .inr (.inl h)
        · rcases ih h with h | h
          · exact .inl h
          · exact .inr (.inr h)

/-- A write keeps the canonical form. -/
theorem write_wf (m : List Host.Cell) (a : Nat) (b : Byte) (h : Memory.wf m) : Memory.wf (Memory.write m a b) := by
  induction m with
  | nil => simp [Memory.wf, Memory.write]
  | cons c m ih =>
    obtain ⟨k, v⟩ := c
    simp only [Memory.wf, List.map_cons, List.pairwise_cons] at h
    obtain ⟨hk, hm⟩ := h
    rw [Memory.write]
    split
    · rename_i hlt
      simp only [Memory.wf, List.map_cons, List.pairwise_cons, List.mem_cons]
      refine ⟨?_, hk, hm⟩
      rintro x (rfl | hx)
      · exact hlt
      · exact lt_trans hlt (hk x hx)
    · split
      · rename_i h1 h2
        subst h2
        simp only [Memory.wf, List.map_cons, List.pairwise_cons]
        exact ⟨hk, hm⟩
      · rename_i h1 h2
        simp only [Memory.wf, List.map_cons, List.pairwise_cons]
        refine ⟨fun x hx => ?_, ih hm⟩
        rcases mem_write_keys m a b x hx with rfl | hx
        · omega
        · exact hk x hx

/-- Supplying a token keeps the canonical form. -/
theorem supplyToken_wf (m : List Host.Cell) (x y : Nat) (tok : Token) (h : Memory.wf m) :
    Memory.wf (supplyToken m x y tok) := by
  rcases tok with t | ⟨index, alpha⟩
  · exact write_wf _ _ _ (write_wf _ _ _ (write_wf _ _ _ (write_wf _ _ _ h)))
  · cases alpha with
    | none => exact write_wf _ _ _ h
    | some a => exact write_wf _ _ _ (write_wf _ _ _ h)

/-- The reset state's memories are in canonical form. -/
theorem reset_memories_wf : Memory.wf State.reset.src ∧ Memory.wf State.reset.mask := by decide

/-- Two places of the 16-bit coordinates have two addresses. -/
theorem maskAddr_inj (x y x' y' : Half) (h : maskAddr x.toNat y.toNat = maskAddr x'.toNat y'.toNat) : x = x' ∧ y = y' := by
  have hx := x.isLt
  have hx' := x'.isLt
  unfold maskAddr at h
  exact ⟨BitVec.eq_of_toNat_eq (by omega), BitVec.eq_of_toNat_eq (by omega)⟩

/-- A write of OUT that starts within it keeps its length or grows to the write's end. -/
theorem memWrite_length (m : List Byte) (addr : Nat) (v : List Byte) (h : addr ≤ m.length) :
    (memWrite m addr v).length = max m.length (addr + v.length) := by
  simp [memWrite]
  omega

end Sys2Proof.Machine
end

