-- ==== Sys2Proof/Laws/Mode.lean ====
section
/-! SUPPORT. The mode table. -/

namespace Sys2Proof

theorem FormatName.mem_all (n : FormatName) : n ∈ FormatName.all := by cases n <;> decide

theorem defaultModeCode_wf : ModeCode.default.wf := by decide

/-- Distinct names have distinct codes in a well-formed table. -/
theorem ModeCode.code_injective (t : ModeCode) (h : t.wf) (m n : FormatName) (hmn : t.code m = t.code n) : m = n :=
  List.inj_on_of_nodup_map h.1 m.mem_all n.mem_all hmn

/-- The name of a name's code is the name, in a well-formed table. -/
theorem ModeCode.nameOf_code (t : ModeCode) (h : t.wf) (n : FormatName) : t.nameOf (t.code n) = some n := by
  unfold ModeCode.nameOf
  cases hf : FormatName.all.find? (fun m => t.code m == t.code n) with
  | none =>
    have := List.find?_eq_none.mp hf n n.mem_all
    simp at this
  | some m =>
    have hm := List.find?_some hf
    rw [t.code_injective h m n (by simpa using hm)]

/-- A code that has a name is the name's code. -/
theorem ModeCode.code_of_nameOf (t : ModeCode) (c : BitVec 4) (n : FormatName) (h : t.nameOf c = some n) :
    t.code n = c := by
  have := List.find?_some h
  simpa using this

/-- Sixteen distinct codes are all codes: in a well-formed table every code has a name. -/
theorem ModeCode.nameOf_isSome (t : ModeCode) (h : t.wf) (c : BitVec 4) : ∃ n, t.nameOf c = some n := by
  have hcard : (FormatName.all.map t.code).toFinset = Finset.univ := by
    apply Finset.eq_univ_of_card
    rw [List.toFinset_card_of_nodup h.1]
    rfl
  have hc : c ∈ (FormatName.all.map t.code).toFinset := hcard ▸ Finset.mem_univ c
  obtain ⟨n, -, hn⟩ := List.mem_map.mp (List.mem_toFinset.mp hc)
  exact ⟨n, hn ▸ t.nameOf_code h n⟩

/-- The mode value as a sum: the flags stand above the base code (40_mode_resolve.md R91). -/
theorem ModeCode.modeValue_toNat (t : ModeCode) (base : BitVec 4) (useRle : Bool) :
    (t.modeValue base useRle).toNat =
      base.toNat + (if t.clutForced base then 32 else 0) + (if useRle then 16 else 0) := by
  unfold ModeCode.modeValue
  generalize t.clutForced base = clut
  revert base clut useRle
  decide

/-- The fields of a mode value (30_encoding.md R61). -/
theorem ModeCode.modeValue_fields (t : ModeCode) (base : BitVec 4) (useRle : Bool) :
    (t.modeValue base useRle).extractLsb' 0 4 = base ∧ (t.modeValue base useRle).getLsbD 4 = useRle ∧
      (t.modeValue base useRle).getLsbD 5 = t.clutForced base ∧ (t.modeValue base useRle).extractLsb' 6 10 = 0 := by
  unfold ModeCode.modeValue
  generalize t.clutForced base = clut
  revert base clut useRle
  decide

/-- Where the packer is used the pixel width is the packed width (41_pixel_encode.md R100). -/
theorem FormatName.packedWidth_eq (n : FormatName) (w : Nat) (h : n.packedWidth = some w) :
    n.pixelBits = w ∧ (w = 1 ∨ w = 2 ∨ w = 4 ∨ w = 8) := by
  cases n <;> simp_all [FormatName.packedWidth, FormatName.pixelBits]

end Sys2Proof
end

