-- ==== Sys2Proof/Laws/State.lean ====
section
/-! SUPPORT. One lemma per field per named update of the state, so that no proof unfolds a record update. -/

namespace Sys2Proof.Machine

@[simp] theorem withRet_phase (r : Ret) (s : State) : (withRet r s).phase = s.phase := rfl
@[simp] theorem withRet_cause (r : Ret) (s : State) : (withRet r s).cause = s.cause := rfl
@[simp] theorem withRet_cfg (r : Ret) (s : State) : (withRet r s).cfg = s.cfg := rfl
@[simp] theorem withRet_srcDesc (r : Ret) (s : State) : (withRet r s).srcDesc = s.srcDesc := rfl
@[simp] theorem withRet_dimW (r : Ret) (s : State) : (withRet r s).dimW = s.dimW := rfl
@[simp] theorem withRet_dimH (r : Ret) (s : State) : (withRet r s).dimH = s.dimH := rfl
@[simp] theorem withRet_hdrAux (r : Ret) (s : State) : (withRet r s).hdrAux = s.hdrAux := rfl
@[simp] theorem withRet_outLen (r : Ret) (s : State) : (withRet r s).outLen = s.outLen := rfl
@[simp] theorem withRet_job (r : Ret) (s : State) : (withRet r s).job = s.job := rfl
@[simp] theorem withRet_y (r : Ret) (s : State) : (withRet r s).y = s.y := rfl
@[simp] theorem withRet_x (r : Ret) (s : State) : (withRet r s).x = s.x := rfl
@[simp] theorem withRet_cur (r : Ret) (s : State) : (withRet r s).cur = s.cur := rfl
@[simp] theorem withRet_runlen (r : Ret) (s : State) : (withRet r s).runlen = s.runlen := rfl
@[simp] theorem withRet_acc (r : Ret) (s : State) : (withRet r s).acc = s.acc := rfl
@[simp] theorem withRet_bits (r : Ret) (s : State) : (withRet r s).bits = s.bits := rfl
@[simp] theorem withRet_rowWidth (r : Ret) (s : State) : (withRet r s).rowWidth = s.rowWidth := rfl
@[simp] theorem withRet_lit (r : Ret) (s : State) : (withRet r s).lit = s.lit := rfl
@[simp] theorem withRet_buf (r : Ret) (s : State) : (withRet r s).buf = s.buf := rfl
@[simp] theorem withRet_pay (r : Ret) (s : State) : (withRet r s).pay = s.pay := rfl
@[simp] theorem withRet_out (r : Ret) (s : State) : (withRet r s).out = s.out := rfl
@[simp] theorem withRet_src (r : Ret) (s : State) : (withRet r s).src = s.src := rfl
@[simp] theorem withRet_mask (r : Ret) (s : State) : (withRet r s).mask = s.mask := rfl
@[simp] theorem withRet_host (r : Ret) (s : State) : (withRet r s).host = s.host := rfl
@[simp] theorem withRet_ret (r : Ret) (s : State) : (withRet r s).ret = r := rfl
@[simp] theorem withRet_params (r : Ret) (s : State) : (withRet r s).params = s.params := rfl

@[simp] theorem bufAppend_phase (bs : List Byte) (s : State) : (bufAppend bs s).phase = s.phase := rfl
@[simp] theorem bufAppend_cause (bs : List Byte) (s : State) : (bufAppend bs s).cause = s.cause := rfl
@[simp] theorem bufAppend_cfg (bs : List Byte) (s : State) : (bufAppend bs s).cfg = s.cfg := rfl
@[simp] theorem bufAppend_srcDesc (bs : List Byte) (s : State) : (bufAppend bs s).srcDesc = s.srcDesc := rfl
@[simp] theorem bufAppend_dimW (bs : List Byte) (s : State) : (bufAppend bs s).dimW = s.dimW := rfl
@[simp] theorem bufAppend_dimH (bs : List Byte) (s : State) : (bufAppend bs s).dimH = s.dimH := rfl
@[simp] theorem bufAppend_hdrAux (bs : List Byte) (s : State) : (bufAppend bs s).hdrAux = s.hdrAux := rfl
@[simp] theorem bufAppend_outLen (bs : List Byte) (s : State) : (bufAppend bs s).outLen = s.outLen := rfl
@[simp] theorem bufAppend_job (bs : List Byte) (s : State) : (bufAppend bs s).job = s.job := rfl
@[simp] theorem bufAppend_y (bs : List Byte) (s : State) : (bufAppend bs s).y = s.y := rfl
@[simp] theorem bufAppend_x (bs : List Byte) (s : State) : (bufAppend bs s).x = s.x := rfl
@[simp] theorem bufAppend_cur (bs : List Byte) (s : State) : (bufAppend bs s).cur = s.cur := rfl
@[simp] theorem bufAppend_runlen (bs : List Byte) (s : State) : (bufAppend bs s).runlen = s.runlen := rfl
@[simp] theorem bufAppend_acc (bs : List Byte) (s : State) : (bufAppend bs s).acc = s.acc := rfl
@[simp] theorem bufAppend_bits (bs : List Byte) (s : State) : (bufAppend bs s).bits = s.bits := rfl
@[simp] theorem bufAppend_rowWidth (bs : List Byte) (s : State) : (bufAppend bs s).rowWidth = s.rowWidth := rfl
@[simp] theorem bufAppend_lit (bs : List Byte) (s : State) : (bufAppend bs s).lit = s.lit := rfl
@[simp] theorem bufAppend_buf (bs : List Byte) (s : State) : (bufAppend bs s).buf = s.buf ++ bs := rfl
@[simp] theorem bufAppend_pay (bs : List Byte) (s : State) : (bufAppend bs s).pay = s.pay := rfl
@[simp] theorem bufAppend_out (bs : List Byte) (s : State) : (bufAppend bs s).out = s.out := rfl
@[simp] theorem bufAppend_src (bs : List Byte) (s : State) : (bufAppend bs s).src = s.src := rfl
@[simp] theorem bufAppend_mask (bs : List Byte) (s : State) : (bufAppend bs s).mask = s.mask := rfl
@[simp] theorem bufAppend_host (bs : List Byte) (s : State) : (bufAppend bs s).host = s.host := rfl
@[simp] theorem bufAppend_ret (bs : List Byte) (s : State) : (bufAppend bs s).ret = s.ret := rfl
@[simp] theorem bufAppend_params (bs : List Byte) (s : State) : (bufAppend bs s).params = s.params := rfl

@[simp] theorem payAppend_phase (bs : List Byte) (s : State) : (payAppend bs s).phase = s.phase := rfl
@[simp] theorem payAppend_cause (bs : List Byte) (s : State) : (payAppend bs s).cause = s.cause := rfl
@[simp] theorem payAppend_cfg (bs : List Byte) (s : State) : (payAppend bs s).cfg = s.cfg := rfl
@[simp] theorem payAppend_srcDesc (bs : List Byte) (s : State) : (payAppend bs s).srcDesc = s.srcDesc := rfl
@[simp] theorem payAppend_dimW (bs : List Byte) (s : State) : (payAppend bs s).dimW = s.dimW := rfl
@[simp] theorem payAppend_dimH (bs : List Byte) (s : State) : (payAppend bs s).dimH = s.dimH := rfl
@[simp] theorem payAppend_hdrAux (bs : List Byte) (s : State) : (payAppend bs s).hdrAux = s.hdrAux := rfl
@[simp] theorem payAppend_outLen (bs : List Byte) (s : State) : (payAppend bs s).outLen = s.outLen := rfl
@[simp] theorem payAppend_job (bs : List Byte) (s : State) : (payAppend bs s).job = s.job := rfl
@[simp] theorem payAppend_y (bs : List Byte) (s : State) : (payAppend bs s).y = s.y := rfl
@[simp] theorem payAppend_x (bs : List Byte) (s : State) : (payAppend bs s).x = s.x := rfl
@[simp] theorem payAppend_cur (bs : List Byte) (s : State) : (payAppend bs s).cur = s.cur := rfl
@[simp] theorem payAppend_runlen (bs : List Byte) (s : State) : (payAppend bs s).runlen = s.runlen := rfl
@[simp] theorem payAppend_acc (bs : List Byte) (s : State) : (payAppend bs s).acc = s.acc := rfl
@[simp] theorem payAppend_bits (bs : List Byte) (s : State) : (payAppend bs s).bits = s.bits := rfl
@[simp] theorem payAppend_rowWidth (bs : List Byte) (s : State) : (payAppend bs s).rowWidth = s.rowWidth := rfl
@[simp] theorem payAppend_lit (bs : List Byte) (s : State) : (payAppend bs s).lit = s.lit := rfl
@[simp] theorem payAppend_buf (bs : List Byte) (s : State) : (payAppend bs s).buf = s.buf := rfl
@[simp] theorem payAppend_pay (bs : List Byte) (s : State) : (payAppend bs s).pay = s.pay ++ bs := rfl
@[simp] theorem payAppend_out (bs : List Byte) (s : State) : (payAppend bs s).out = s.out := rfl
@[simp] theorem payAppend_src (bs : List Byte) (s : State) : (payAppend bs s).src = s.src := rfl
@[simp] theorem payAppend_mask (bs : List Byte) (s : State) : (payAppend bs s).mask = s.mask := rfl
@[simp] theorem payAppend_host (bs : List Byte) (s : State) : (payAppend bs s).host = s.host := rfl
@[simp] theorem payAppend_ret (bs : List Byte) (s : State) : (payAppend bs s).ret = s.ret := rfl
@[simp] theorem payAppend_params (bs : List Byte) (s : State) : (payAppend bs s).params = s.params := rfl

@[simp] theorem raise_phase (c : Cause) (s : State) : (raise c s).phase = .fault := rfl
@[simp] theorem raise_cause (c : Cause) (s : State) : (raise c s).cause = s.params.causeCode.code c := rfl
@[simp] theorem raise_cfg (c : Cause) (s : State) : (raise c s).cfg = s.cfg := rfl
@[simp] theorem raise_srcDesc (c : Cause) (s : State) : (raise c s).srcDesc = s.srcDesc := rfl
@[simp] theorem raise_dimW (c : Cause) (s : State) : (raise c s).dimW = s.dimW := rfl
@[simp] theorem raise_dimH (c : Cause) (s : State) : (raise c s).dimH = s.dimH := rfl
@[simp] theorem raise_hdrAux (c : Cause) (s : State) : (raise c s).hdrAux = s.hdrAux := rfl
@[simp] theorem raise_outLen (c : Cause) (s : State) : (raise c s).outLen = 0 := rfl
@[simp] theorem raise_job (c : Cause) (s : State) : (raise c s).job = s.job := rfl
@[simp] theorem raise_y (c : Cause) (s : State) : (raise c s).y = s.y := rfl
@[simp] theorem raise_x (c : Cause) (s : State) : (raise c s).x = s.x := rfl
@[simp] theorem raise_cur (c : Cause) (s : State) : (raise c s).cur = s.cur := rfl
@[simp] theorem raise_runlen (c : Cause) (s : State) : (raise c s).runlen = s.runlen := rfl
@[simp] theorem raise_acc (c : Cause) (s : State) : (raise c s).acc = s.acc := rfl
@[simp] theorem raise_bits (c : Cause) (s : State) : (raise c s).bits = s.bits := rfl
@[simp] theorem raise_rowWidth (c : Cause) (s : State) : (raise c s).rowWidth = s.rowWidth := rfl
@[simp] theorem raise_lit (c : Cause) (s : State) : (raise c s).lit = s.lit := rfl
@[simp] theorem raise_buf (c : Cause) (s : State) : (raise c s).buf = s.buf := rfl
@[simp] theorem raise_pay (c : Cause) (s : State) : (raise c s).pay = s.pay := rfl
@[simp] theorem raise_out (c : Cause) (s : State) : (raise c s).out = s.out := rfl
@[simp] theorem raise_src (c : Cause) (s : State) : (raise c s).src = s.src := rfl
@[simp] theorem raise_mask (c : Cause) (s : State) : (raise c s).mask = s.mask := rfl
@[simp] theorem raise_host (c : Cause) (s : State) : (raise c s).host = s.host := rfl
@[simp] theorem raise_ret (c : Cause) (s : State) : (raise c s).ret = s.ret := rfl
@[simp] theorem raise_params (c : Cause) (s : State) : (raise c s).params = s.params := rfl

@[simp] theorem withPacker_phase (k : Packer) (s : State) : (withPacker k s).phase = s.phase := rfl
@[simp] theorem withPacker_cause (k : Packer) (s : State) : (withPacker k s).cause = s.cause := rfl
@[simp] theorem withPacker_cfg (k : Packer) (s : State) : (withPacker k s).cfg = s.cfg := rfl
@[simp] theorem withPacker_srcDesc (k : Packer) (s : State) : (withPacker k s).srcDesc = s.srcDesc := rfl
@[simp] theorem withPacker_dimW (k : Packer) (s : State) : (withPacker k s).dimW = s.dimW := rfl
@[simp] theorem withPacker_dimH (k : Packer) (s : State) : (withPacker k s).dimH = s.dimH := rfl
@[simp] theorem withPacker_hdrAux (k : Packer) (s : State) : (withPacker k s).hdrAux = s.hdrAux := rfl
@[simp] theorem withPacker_outLen (k : Packer) (s : State) : (withPacker k s).outLen = s.outLen := rfl
@[simp] theorem withPacker_job (k : Packer) (s : State) : (withPacker k s).job = s.job := rfl
@[simp] theorem withPacker_y (k : Packer) (s : State) : (withPacker k s).y = s.y := rfl
@[simp] theorem withPacker_x (k : Packer) (s : State) : (withPacker k s).x = s.x := rfl
@[simp] theorem withPacker_cur (k : Packer) (s : State) : (withPacker k s).cur = s.cur := rfl
@[simp] theorem withPacker_runlen (k : Packer) (s : State) : (withPacker k s).runlen = s.runlen := rfl
@[simp] theorem withPacker_acc (k : Packer) (s : State) : (withPacker k s).acc = k.acc := rfl
@[simp] theorem withPacker_bits (k : Packer) (s : State) : (withPacker k s).bits = k.bits := rfl
@[simp] theorem withPacker_rowWidth (k : Packer) (s : State) : (withPacker k s).rowWidth = s.rowWidth := rfl
@[simp] theorem withPacker_lit (k : Packer) (s : State) : (withPacker k s).lit = s.lit := rfl
@[simp] theorem withPacker_buf (k : Packer) (s : State) : (withPacker k s).buf = k.buf := rfl
@[simp] theorem withPacker_pay (k : Packer) (s : State) : (withPacker k s).pay = s.pay := rfl
@[simp] theorem withPacker_out (k : Packer) (s : State) : (withPacker k s).out = s.out := rfl
@[simp] theorem withPacker_src (k : Packer) (s : State) : (withPacker k s).src = s.src := rfl
@[simp] theorem withPacker_mask (k : Packer) (s : State) : (withPacker k s).mask = s.mask := rfl
@[simp] theorem withPacker_host (k : Packer) (s : State) : (withPacker k s).host = s.host := rfl
@[simp] theorem withPacker_ret (k : Packer) (s : State) : (withPacker k s).ret = s.ret := rfl
@[simp] theorem withPacker_params (k : Packer) (s : State) : (withPacker k s).params = s.params := rfl

@[simp] theorem packedState_phase (v : Byte) (w : Nat) (s : State) : (packedState v w s).phase = s.phase := rfl
@[simp] theorem packedState_cause (v : Byte) (w : Nat) (s : State) : (packedState v w s).cause = s.cause := rfl
@[simp] theorem packedState_cfg (v : Byte) (w : Nat) (s : State) : (packedState v w s).cfg = s.cfg := rfl
@[simp] theorem packedState_srcDesc (v : Byte) (w : Nat) (s : State) : (packedState v w s).srcDesc = s.srcDesc := rfl
@[simp] theorem packedState_dimW (v : Byte) (w : Nat) (s : State) : (packedState v w s).dimW = s.dimW := rfl
@[simp] theorem packedState_dimH (v : Byte) (w : Nat) (s : State) : (packedState v w s).dimH = s.dimH := rfl
@[simp] theorem packedState_hdrAux (v : Byte) (w : Nat) (s : State) : (packedState v w s).hdrAux = s.hdrAux := rfl
@[simp] theorem packedState_outLen (v : Byte) (w : Nat) (s : State) : (packedState v w s).outLen = s.outLen := rfl
@[simp] theorem packedState_job (v : Byte) (w : Nat) (s : State) : (packedState v w s).job = s.job := rfl
@[simp] theorem packedState_y (v : Byte) (w : Nat) (s : State) : (packedState v w s).y = s.y := rfl
@[simp] theorem packedState_x (v : Byte) (w : Nat) (s : State) : (packedState v w s).x = s.x := rfl
@[simp] theorem packedState_cur (v : Byte) (w : Nat) (s : State) : (packedState v w s).cur = s.cur := rfl
@[simp] theorem packedState_runlen (v : Byte) (w : Nat) (s : State) : (packedState v w s).runlen = s.runlen := rfl
@[simp] theorem packedState_acc (v : Byte) (w : Nat) (s : State) : (packedState v w s).acc = ((packerOf s).push v w).acc := rfl
@[simp] theorem packedState_bits (v : Byte) (w : Nat) (s : State) : (packedState v w s).bits = ((packerOf s).push v w).bits := rfl
@[simp] theorem packedState_rowWidth (v : Byte) (w : Nat) (s : State) : (packedState v w s).rowWidth = some w := rfl
@[simp] theorem packedState_lit (v : Byte) (w : Nat) (s : State) : (packedState v w s).lit = s.lit := rfl
@[simp] theorem packedState_buf (v : Byte) (w : Nat) (s : State) : (packedState v w s).buf = ((packerOf s).push v w).buf := rfl
@[simp] theorem packedState_pay (v : Byte) (w : Nat) (s : State) : (packedState v w s).pay = s.pay := rfl
@[simp] theorem packedState_out (v : Byte) (w : Nat) (s : State) : (packedState v w s).out = s.out := rfl
@[simp] theorem packedState_src (v : Byte) (w : Nat) (s : State) : (packedState v w s).src = s.src := rfl
@[simp] theorem packedState_mask (v : Byte) (w : Nat) (s : State) : (packedState v w s).mask = s.mask := rfl
@[simp] theorem packedState_host (v : Byte) (w : Nat) (s : State) : (packedState v w s).host = s.host := rfl
@[simp] theorem packedState_ret (v : Byte) (w : Nat) (s : State) : (packedState v w s).ret = s.ret := rfl
@[simp] theorem packedState_params (v : Byte) (w : Nat) (s : State) : (packedState v w s).params = s.params := rfl

@[simp] theorem rowBeginState_phase (s : State) : (rowBeginState s).phase = s.phase := rfl
@[simp] theorem rowBeginState_cause (s : State) : (rowBeginState s).cause = s.cause := rfl
@[simp] theorem rowBeginState_cfg (s : State) : (rowBeginState s).cfg = s.cfg := rfl
@[simp] theorem rowBeginState_srcDesc (s : State) : (rowBeginState s).srcDesc = s.srcDesc := rfl
@[simp] theorem rowBeginState_dimW (s : State) : (rowBeginState s).dimW = s.dimW := rfl
@[simp] theorem rowBeginState_dimH (s : State) : (rowBeginState s).dimH = s.dimH := rfl
@[simp] theorem rowBeginState_hdrAux (s : State) : (rowBeginState s).hdrAux = s.hdrAux := rfl
@[simp] theorem rowBeginState_outLen (s : State) : (rowBeginState s).outLen = s.outLen := rfl
@[simp] theorem rowBeginState_job (s : State) : (rowBeginState s).job = s.job := rfl
@[simp] theorem rowBeginState_y (s : State) : (rowBeginState s).y = s.y := rfl
@[simp] theorem rowBeginState_x (s : State) : (rowBeginState s).x = s.x := rfl
@[simp] theorem rowBeginState_cur (s : State) : (rowBeginState s).cur = s.cur := rfl
@[simp] theorem rowBeginState_runlen (s : State) : (rowBeginState s).runlen = s.runlen := rfl
@[simp] theorem rowBeginState_acc (s : State) : (rowBeginState s).acc = 0 := rfl
@[simp] theorem rowBeginState_bits (s : State) : (rowBeginState s).bits = 0 := rfl
@[simp] theorem rowBeginState_rowWidth (s : State) : (rowBeginState s).rowWidth = none := rfl
@[simp] theorem rowBeginState_lit (s : State) : (rowBeginState s).lit = s.lit := rfl
@[simp] theorem rowBeginState_buf (s : State) : (rowBeginState s).buf = s.buf := rfl
@[simp] theorem rowBeginState_pay (s : State) : (rowBeginState s).pay = s.pay := rfl
@[simp] theorem rowBeginState_out (s : State) : (rowBeginState s).out = s.out := rfl
@[simp] theorem rowBeginState_src (s : State) : (rowBeginState s).src = s.src := rfl
@[simp] theorem rowBeginState_mask (s : State) : (rowBeginState s).mask = s.mask := rfl
@[simp] theorem rowBeginState_host (s : State) : (rowBeginState s).host = s.host := rfl
@[simp] theorem rowBeginState_ret (s : State) : (rowBeginState s).ret = s.ret := rfl
@[simp] theorem rowBeginState_params (s : State) : (rowBeginState s).params = s.params := rfl

@[simp] theorem flushRowState_phase (s : State) : (flushRowState s).phase = s.phase := rfl
@[simp] theorem flushRowState_cause (s : State) : (flushRowState s).cause = s.cause := rfl
@[simp] theorem flushRowState_cfg (s : State) : (flushRowState s).cfg = s.cfg := rfl
@[simp] theorem flushRowState_srcDesc (s : State) : (flushRowState s).srcDesc = s.srcDesc := rfl
@[simp] theorem flushRowState_dimW (s : State) : (flushRowState s).dimW = s.dimW := rfl
@[simp] theorem flushRowState_dimH (s : State) : (flushRowState s).dimH = s.dimH := rfl
@[simp] theorem flushRowState_hdrAux (s : State) : (flushRowState s).hdrAux = s.hdrAux := rfl
@[simp] theorem flushRowState_outLen (s : State) : (flushRowState s).outLen = s.outLen := rfl
@[simp] theorem flushRowState_job (s : State) : (flushRowState s).job = s.job := rfl
@[simp] theorem flushRowState_y (s : State) : (flushRowState s).y = s.y := rfl
@[simp] theorem flushRowState_x (s : State) : (flushRowState s).x = s.x := rfl
@[simp] theorem flushRowState_cur (s : State) : (flushRowState s).cur = s.cur := rfl
@[simp] theorem flushRowState_runlen (s : State) : (flushRowState s).runlen = s.runlen := rfl
@[simp] theorem flushRowState_acc (s : State) : (flushRowState s).acc = 0 := rfl
@[simp] theorem flushRowState_bits (s : State) : (flushRowState s).bits = 0 := rfl
@[simp] theorem flushRowState_rowWidth (s : State) : (flushRowState s).rowWidth = none := rfl
@[simp] theorem flushRowState_lit (s : State) : (flushRowState s).lit = s.lit := rfl
@[simp] theorem flushRowState_buf (s : State) : (flushRowState s).buf = if 0 < s.bits then s.buf ++ [s.acc] else s.buf := rfl
@[simp] theorem flushRowState_pay (s : State) : (flushRowState s).pay = s.pay := rfl
@[simp] theorem flushRowState_out (s : State) : (flushRowState s).out = s.out := rfl
@[simp] theorem flushRowState_src (s : State) : (flushRowState s).src = s.src := rfl
@[simp] theorem flushRowState_mask (s : State) : (flushRowState s).mask = s.mask := rfl
@[simp] theorem flushRowState_host (s : State) : (flushRowState s).host = s.host := rfl
@[simp] theorem flushRowState_ret (s : State) : (flushRowState s).ret = s.ret := rfl
@[simp] theorem flushRowState_params (s : State) : (flushRowState s).params = s.params := rfl

@[simp] theorem flushLit_phase (s : State) : (flushLit s).phase = s.phase := rfl
@[simp] theorem flushLit_cause (s : State) : (flushLit s).cause = s.cause := rfl
@[simp] theorem flushLit_cfg (s : State) : (flushLit s).cfg = s.cfg := rfl
@[simp] theorem flushLit_srcDesc (s : State) : (flushLit s).srcDesc = s.srcDesc := rfl
@[simp] theorem flushLit_dimW (s : State) : (flushLit s).dimW = s.dimW := rfl
@[simp] theorem flushLit_dimH (s : State) : (flushLit s).dimH = s.dimH := rfl
@[simp] theorem flushLit_hdrAux (s : State) : (flushLit s).hdrAux = s.hdrAux := rfl
@[simp] theorem flushLit_outLen (s : State) : (flushLit s).outLen = s.outLen := rfl
@[simp] theorem flushLit_job (s : State) : (flushLit s).job = s.job := rfl
@[simp] theorem flushLit_y (s : State) : (flushLit s).y = s.y := rfl
@[simp] theorem flushLit_x (s : State) : (flushLit s).x = s.x := rfl
@[simp] theorem flushLit_cur (s : State) : (flushLit s).cur = s.cur := rfl
@[simp] theorem flushLit_runlen (s : State) : (flushLit s).runlen = s.runlen := rfl
@[simp] theorem flushLit_acc (s : State) : (flushLit s).acc = s.acc := rfl
@[simp] theorem flushLit_bits (s : State) : (flushLit s).bits = s.bits := rfl
@[simp] theorem flushLit_rowWidth (s : State) : (flushLit s).rowWidth = s.rowWidth := rfl
@[simp] theorem flushLit_lit (s : State) : (flushLit s).lit = [] := rfl
@[simp] theorem flushLit_buf (s : State) : (flushLit s).buf = s.buf := rfl
@[simp] theorem flushLit_pay (s : State) : (flushLit s).pay = s.pay ++ litPacket s.lit := rfl
@[simp] theorem flushLit_out (s : State) : (flushLit s).out = s.out := rfl
@[simp] theorem flushLit_src (s : State) : (flushLit s).src = s.src := rfl
@[simp] theorem flushLit_mask (s : State) : (flushLit s).mask = s.mask := rfl
@[simp] theorem flushLit_host (s : State) : (flushLit s).host = s.host := rfl
@[simp] theorem flushLit_ret (s : State) : (flushLit s).ret = s.ret := rfl
@[simp] theorem flushLit_params (s : State) : (flushLit s).params = s.params := rfl

@[simp] theorem resetState_phase (s : State) : (resetState s).phase = State.reset.phase := rfl
@[simp] theorem resetState_cause (s : State) : (resetState s).cause = State.reset.cause := rfl
@[simp] theorem resetState_cfg (s : State) : (resetState s).cfg = State.reset.cfg := rfl
@[simp] theorem resetState_srcDesc (s : State) : (resetState s).srcDesc = State.reset.srcDesc := rfl
@[simp] theorem resetState_dimW (s : State) : (resetState s).dimW = State.reset.dimW := rfl
@[simp] theorem resetState_dimH (s : State) : (resetState s).dimH = State.reset.dimH := rfl
@[simp] theorem resetState_hdrAux (s : State) : (resetState s).hdrAux = State.reset.hdrAux := rfl
@[simp] theorem resetState_outLen (s : State) : (resetState s).outLen = State.reset.outLen := rfl
@[simp] theorem resetState_job (s : State) : (resetState s).job = State.reset.job := rfl
@[simp] theorem resetState_y (s : State) : (resetState s).y = State.reset.y := rfl
@[simp] theorem resetState_x (s : State) : (resetState s).x = State.reset.x := rfl
@[simp] theorem resetState_cur (s : State) : (resetState s).cur = State.reset.cur := rfl
@[simp] theorem resetState_runlen (s : State) : (resetState s).runlen = State.reset.runlen := rfl
@[simp] theorem resetState_acc (s : State) : (resetState s).acc = State.reset.acc := rfl
@[simp] theorem resetState_bits (s : State) : (resetState s).bits = State.reset.bits := rfl
@[simp] theorem resetState_rowWidth (s : State) : (resetState s).rowWidth = State.reset.rowWidth := rfl
@[simp] theorem resetState_lit (s : State) : (resetState s).lit = State.reset.lit := rfl
@[simp] theorem resetState_buf (s : State) : (resetState s).buf = State.reset.buf := rfl
@[simp] theorem resetState_pay (s : State) : (resetState s).pay = State.reset.pay := rfl
@[simp] theorem resetState_out (s : State) : (resetState s).out = State.reset.out := rfl
@[simp] theorem resetState_src (s : State) : (resetState s).src = s.src := rfl
@[simp] theorem resetState_mask (s : State) : (resetState s).mask = s.mask := rfl
@[simp] theorem resetState_host (s : State) : (resetState s).host = s.host := rfl
@[simp] theorem resetState_ret (s : State) : (resetState s).ret = s.ret := rfl
@[simp] theorem resetState_params (s : State) : (resetState s).params = s.params := rfl

@[simp] theorem packerOf_acc (s : State) : (packerOf s).acc = s.acc := rfl
@[simp] theorem packerOf_bits (s : State) : (packerOf s).bits = s.bits := rfl
@[simp] theorem packerOf_buf (s : State) : (packerOf s).buf = s.buf := rfl

/-! The values of reset (10_state.md R34; JOB: log 2). -/

@[simp] theorem reset_phase : State.reset.phase = .idle := rfl
@[simp] theorem reset_cause : State.reset.cause = 0 := rfl
@[simp] theorem reset_cfg : State.reset.cfg = 0 := rfl
@[simp] theorem reset_srcDesc : State.reset.srcDesc = 0 := rfl
@[simp] theorem reset_dimW : State.reset.dimW = 0 := rfl
@[simp] theorem reset_dimH : State.reset.dimH = 0 := rfl
@[simp] theorem reset_hdrAux : State.reset.hdrAux = 0 := rfl
@[simp] theorem reset_outLen : State.reset.outLen = 0 := rfl
@[simp] theorem reset_job : State.reset.job = Job.reset := rfl
@[simp] theorem reset_y : State.reset.y = 0 := rfl
@[simp] theorem reset_x : State.reset.x = 0 := rfl
@[simp] theorem reset_cur : State.reset.cur = 0 := rfl
@[simp] theorem reset_runlen : State.reset.runlen = 0 := rfl
@[simp] theorem reset_acc : State.reset.acc = 0 := rfl
@[simp] theorem reset_bits : State.reset.bits = 0 := rfl
@[simp] theorem reset_rowWidth : State.reset.rowWidth = none := rfl
@[simp] theorem reset_lit : State.reset.lit = [] := rfl
@[simp] theorem reset_buf : State.reset.buf = [] := rfl
@[simp] theorem reset_pay : State.reset.pay = [] := rfl
@[simp] theorem reset_out : State.reset.out = [] := rfl

/-- A started block: busy leaves it as it is. -/
theorem startState_of_busy (s : State) (h : s.phase.busy = true) : startState s = s := by
  simp [startState, h]

/-- A started block: otherwise JOB is latched and everything of the last conversion cleared. -/
theorem startState_of_not_busy (s : State) (h : s.phase.busy = false) :
    startState s =
      { s with
        job := latchJob s, cause := 0, outLen := 0, buf := [], pay := [], out := [], acc := 0, bits := 0, rowWidth := none, x := 0, y := 0,
        cur := 0, lit := [], runlen := 0, phase := .check } := by
  simp [startState, h]

end Sys2Proof.Machine
end

