-- ==== Sys2Proof/Laws/Ops.lean ====
section
/-! SUPPORT. For each shared operation, everything it can do: registers and START, the tests of CHECK, the pixel stage, the bit
packer, the output. -/

namespace Sys2Proof.Machine

/-! ### Phases and registers -/

theorem Phase.busy_iff (p : Phase) : p.busy = true ↔ p ∈ [.check, .encode, .rle, .emit] := by
  cases p <;> decide

theorem Phase.not_busy_iff (p : Phase) : p.busy = false ↔ p ∈ [.idle, .done, .fault] := by
  cases p <;> decide

/-- STATUS as a number (10_state.md R22). -/
theorem status_toNat (s : State) :
    (status s).toNat =
      (if s.phase.busy then 1 else 0) + (if s.phase = .done then 2 else 0) + (if s.phase = .fault then 4 else 0) +
        16 * s.cause.toNat := by
  unfold status
  generalize s.cause = c
  cases s.phase <;> revert c <;> decide

/-- LAYOUT by its two bits. -/
theorem descLayout_eq (d : BitVec 4) :
    descLayout d = ([.indexed, .rgb, .rgba, .other] : List Layout).getD (d.toNat % 4) .other := by
  revert d
  decide

/-- START either does nothing or is the whole latch and clearing. -/
theorem startState_cases (s : State) :
    (s.phase.busy = true ∧ startState s = s) ∨
      (s.phase.busy = false ∧ startState s =
        { s with
          job := latchJob s, cause := 0, outLen := 0, buf := [], pay := [], out := [], acc := 0, bits := 0,
          rowWidth := none, x := 0, y := 0, cur := 0, lit := [], runlen := 0, phase := .check }) := by
  cases h : s.phase.busy
  · exact .inr ⟨rfl, startState_of_not_busy s h⟩
  · exact .inl ⟨rfl, startState_of_busy s h⟩

/-- A configuration write changes at most the five configuration registers. -/
theorem writeConfig_cases (k : Nat) (v : Word) (s : State) :
    ∃ (c : Half) (d : BitVec 4) (w h a : Half),
      writeConfig k v s = { s with cfg := c, srcDesc := d, dimW := w, dimH := h, hdrAux := a } := by
  unfold writeConfig
  split
  · exact ⟨_, s.srcDesc, s.dimW, s.dimH, s.hdrAux, rfl⟩
  · exact ⟨s.cfg, _, s.dimW, s.dimH, s.hdrAux, rfl⟩
  · exact ⟨s.cfg, s.srcDesc, _, s.dimH, s.hdrAux, rfl⟩
  · exact ⟨s.cfg, s.srcDesc, s.dimW, _, s.hdrAux, rfl⟩
  · exact ⟨s.cfg, s.srcDesc, s.dimW, s.dimH, _, rfl⟩
  · exact ⟨s.cfg, s.srcDesc, s.dimW, s.dimH, s.hdrAux, rfl⟩

/-- WRREG: the reset or START for register 0, a configuration write while not busy, or nothing. -/
theorem writeRegister_cases (k : Nat) (v : Word) (s : State) :
    writeRegister k v s = s ∨ (k = 0 ∧ writeRegister k v s = resetState s) ∨
      (k = 0 ∧ writeRegister k v s = startState s) ∨
      (k ≠ 0 ∧ s.phase.busy = false ∧ ∃ (c : Half) (d : BitVec 4) (w h a : Half),
        writeRegister k v s = { s with cfg := c, srcDesc := d, dimW := w, dimH := h, hdrAux := a }) := by
  unfold writeRegister
  split
  · rename_i hk
    unfold writeCtrl
    split
    · exact .inr (.inl ⟨hk, rfl⟩)
    · split
      · exact .inr (.inr (.inl ⟨hk, rfl⟩))
      · exact .inl rfl
  · rename_i hk
    split
    · exact .inl rfl
    · rename_i hb
      exact .inr (.inr (.inr ⟨hk, by simpa using hb, writeConfig_cases _ _ _⟩))

/-! ### CHECK -/

/-- The causes CHECK can raise. -/
theorem checkJob_some (p : Params) (job : Job) (c : Cause) (h : checkJob p job = some c) :
    c ∈ [.unsupportedSourcePixelLayout, .maskUnavailableOrInvalid, .unsupportedTargetMode, .capacityExceeded] := by
  unfold checkJob at h
  grind

/-- What a job that passes CHECK has. -/
theorem checkJob_none (p : Params) (job : Job) (h : checkJob p job = none) :
    ∃ n, p.modeCode.nameOf job.fmt = some n ∧ n.supported = true ∧ job.layout ≠ .other ∧
      (n.isDirect = true → job.layout ≠ .indexed) ∧ (n.isIndexed = true → job.layout = .indexed) ∧
      exceeds p.bufCap (imageBytes n job) = false := by
  unfold checkJob at h
  split at h
  · simp at h
  · rename_i hl
    split at h
    · simp at h
    · split at h
      · simp at h
      · rename_i n hn
        refine ⟨n, hn, ?_⟩
        cases hj : job.layout <;> simp only [hj] at h hl <;> split_ifs at h <;> simp_all

/-! ### The pixel stage -/

/-- PREMUL by its channels (41_pixel_encode.md R101). -/
theorem premultiply_eq (l : Layout) (tok : Direct) (r g b : Byte) (h : Premultiplied l tok r g b) :
    premultiply l tok = ⟨r, g, b, tok.a⟩ := by
  have h1 := scale255_le tok.r tok.a.toNat
  have h2 := scale255_le tok.g tok.a.toNat
  have h3 := scale255_le tok.b tok.a.toNat
  have ha := tok.a.isLt
  unfold Premultiplied at h
  split at h
  · rename_i hl
    subst hl
    obtain ⟨e1, e2, e3⟩ := h
    simp only [premultiply, premulChannel, Direct.mk.injEq, and_true]
    simp only [scale255] at *
    refine ⟨?_, ?_, ?_⟩ <;> apply BitVec.eq_of_toNat_eq <;> simp only [BitVec.toNat_ofNat] <;> omega
  · obtain ⟨rfl, rfl, rfl⟩ := h
    cases l <;> simp_all [premultiply]

@[simp] theorem orderedBytes_length (o : WordOrder) (n v : Nat) : (orderedBytes o n v).length = n := by
  cases o <;> simp [orderedBytes]

/-- The value of a pixel word's bytes, read in the word's order (20_memory.md R44). -/
theorem leValue_orderedBytes (o : WordOrder) (n v : Nat) (h : v < 256 ^ n) :
    leValue (if o = .le then orderedBytes o n v else (orderedBytes o n v).reverse) = v := by
  cases o <;> simp [orderedBytes, beBytes, leValue_leBytes_of_lt h]

/-- Four bytes, most significant first, as a number. -/
theorem append4_toNat (a b c d : Byte) :
    (a ++ b ++ c ++ d : BitVec 32).toNat = a.toNat * 2 ^ 24 + b.toNat * 2 ^ 16 + c.toNat * 2 ^ 8 + d.toNat := by
  have := a.isLt
  have := b.isLt
  have := c.isLt
  have := d.isLt
  simp only [BitVec.toNat_append, Nat.shiftLeft_eq]
  rw [Nat.mul_comm _ (2 ^ 8), ← Nat.two_pow_add_eq_or_of_lt (by omega), Nat.mul_comm _ (2 ^ 8),
    ← Nat.two_pow_add_eq_or_of_lt (by omega), Nat.mul_comm _ (2 ^ 8), ← Nat.two_pow_add_eq_or_of_lt (by omega)]
  omega

/-- What the pixel stage gives the packer is the mode's own width, and a byte group comes from a mode that does not pack. -/
theorem pixelOut_bits (p : Params) (job : Job) (tok : Option Token) (m : Option Byte) (v : Byte) (w : Nat)
    (h : pixelOut p job tok m = .bits v w) :
    (p.modeCode.nameOf job.fmt).bind FormatName.packedWidth = some w ∧ (w = 1 ∨ w = 2 ∨ w = 4 ∨ w = 8) := by
  unfold pixelOut at h
  cases hn : p.modeCode.nameOf job.fmt with
  | none => simp [hn] at h
  | some n =>
    simp only [hn, Option.bind_some] at h ⊢
    cases tok with
    | none => cases n <;> simp [FormatName.supported, FormatName.isDirect, FormatName.isIndexed] at h
    | some t =>
      cases t <;> cases n <;>
        simp [FormatName.supported, FormatName.isDirect, FormatName.isIndexed, encodeDirect, encodeIndexed,
          FormatName.packedWidth] at h ⊢ <;> omega

theorem pixelOut_bytes (p : Params) (job : Job) (tok : Option Token) (m : Option Byte) (bs : List Byte)
    (h : pixelOut p job tok m = .bytes bs) :
    ∃ n, p.modeCode.nameOf job.fmt = some n ∧ n.packedWidth = none ∧ 8 * bs.length = n.pixelBits := by
  unfold pixelOut at h
  cases hn : p.modeCode.nameOf job.fmt with
  | none => simp [hn] at h
  | some n =>
    simp only [hn] at h
    refine ⟨n, rfl, ?_⟩
    cases tok with
    | none => cases n <;> simp [FormatName.supported, FormatName.isDirect, FormatName.isIndexed] at h
    | some t =>
      cases t <;> cases n <;>
        simp [FormatName.supported, FormatName.isDirect, FormatName.isIndexed, encodeDirect, encodeIndexed] at h <;>
        subst h <;>
        simp [FormatName.packedWidth, FormatName.pixelBits, argb8888Bytes, rgba8888Bytes, rgb565Bytes]

/-- A job that passed CHECK never has a token of the wrong kind (41_pixel_encode.md R114). -/
theorem pixelOut_of_checked (p : Params) (job : Job) (src : List Host.Cell) (x y : Nat) (m : Option Byte)
    (h : checkJob p job = none) :
    (∃ bs, pixelOut p job (srcRead job.layout job.idxAlpha src x y) m = .bytes bs) ∨
      ∃ v w, pixelOut p job (srcRead job.layout job.idxAlpha src x y) m = .bits v w := by
  obtain ⟨n, hn, hs, ho, hd, hi, -⟩ := checkJob_none p job h
  unfold pixelOut
  rw [hn]
  cases hl : job.layout <;> cases n <;>
    simp_all [FormatName.supported, FormatName.isDirect, FormatName.isIndexed, srcRead, encodeDirect, encodeIndexed]

/-! ### The bit packer -/

/-- PACK's precondition (42_bit_pack.md R121, R125). -/
theorem packAllowed_iff (s : State) (w : Nat) :
    packAllowed s w = true ↔
      (w = 1 ∨ w = 2 ∨ w = 4 ∨ w = 8) ∧ s.bits % w = 0 ∧ s.bits + w ≤ 8 ∧
        (∀ rowWidth, s.rowWidth = some rowWidth → w = rowWidth) ∧
        ∀ jobWidth, jobPackedWidth s = some jobWidth → w = jobWidth := by
  unfold packAllowed jobPackedWidth
  cases (s.params.modeCode.nameOf s.job.fmt).bind FormatName.packedWidth <;> cases s.rowWidth <;> simp <;> tauto

/-- A value placed by PACK, while the byte is not full. -/
theorem Packer.push_partial (value : Byte) (w : Nat) (k : Packer) (h : k.bits + w ≠ 8) :
    k.push value w = { k with acc := k.acc ||| (maskLow value w <<< k.bits), bits := k.bits + w } := by
  simp [Packer.push, h]

/-- A value placed by PACK that fills the byte. -/
theorem Packer.push_full (value : Byte) (w : Nat) (k : Packer) (h : k.bits + w = 8) :
    k.push value w =
      { acc := 0, bits := 0, buf := k.buf ++ [k.acc ||| (maskLow value w <<< k.bits)] } := by
  simp [Packer.push, h]

/-- The accumulator after a value: nothing at or above the filled bits (10_state.md R35). -/
theorem push_acc_lt (acc value : Byte) (bits w : Nat) (hb : bits + w ≤ 8) (h : acc.toNat < 2 ^ bits) :
    (acc ||| (maskLow value w <<< bits)).toNat < 2 ^ (bits + w) := by
  have hm : (maskLow value w).toNat < 2 ^ w := by
    rw [maskLow_toNat _ _ (by omega)]
    exact Nat.mod_lt _ (by positivity)
  rw [BitVec.toNat_or]
  apply Nat.or_lt_two_pow
  · exact lt_of_lt_of_le h (Nat.pow_le_pow_right (by decide) (by omega))
  · rw [BitVec.toNat_shiftLeft, Nat.shiftLeft_eq]
    refine lt_of_le_of_lt (Nat.mod_le _ _) ?_
    rw [Nat.add_comm bits w, pow_add]
    exact Nat.mul_lt_mul_of_pos_right hm (by positivity)

/-- FLUSH_ROW (42_bit_pack.md R122). -/
theorem flushRowState_eq (s : State) :
    flushRowState s =
      { s with buf := (if s.bits = 0 then s.buf else s.buf ++ [s.acc]), acc := 0, bits := 0, rowWidth := none } := by
  by_cases h : s.bits = 0 <;> simp [flushRowState, withPacker, packerOf, Packer.flush, h, Nat.pos_iff_ne_zero]

theorem rowBeginState_eq (s : State) : rowBeginState s = { s with acc := 0, bits := 0, rowWidth := none } := rfl

/-! ### The output -/

@[simp] theorem hdrBytes_length (w h : Half) (f k : Byte) (m : Half) (n : Nat) : (hdrBytes w h f k m n).length = 14 := by
  simp [hdrBytes]

theorem exceeds_iff (cap : Option Nat) (n : Nat) : exceeds cap n = true ↔ ∃ c, cap = some c ∧ c < n := by
  cases cap <;> simp [exceeds]

/-- A write at the front of OUT. -/
theorem memWrite_zero (m v : List Byte) : memWrite m 0 v = v ++ m.drop v.length := by simp [memWrite]

/-- A write at the end of OUT appends. -/
theorem memWrite_end (m v : List Byte) : memWrite m m.length v = m ++ v := by simp [memWrite]

end Sys2Proof.Machine
end

