-- ==== Sys2Proof/Laws/PerInstr.lean ====
section
/-! SUPPORT. Statements for all operations, one lemma per constructor: the length of every operation's word. -/

namespace Sys2Proof

/-- The operand bytes of an optional operand: presence and value. -/
@[simp] theorem encodeOption_length (o : Option Byte) : (encodeOption o).length = 2 := by cases o <;> rfl

@[simp] theorem Direct.bytes_length (t : Direct) : t.bytes.length = 4 := rfl

@[simp] theorem Indexed.bytes_length (t : Indexed) : t.bytes.length = 3 := by
  simp [Indexed.bytes]

@[simp] theorem encodeEnc_length (t : ModeCode) (n : FormatName) (rle : Bool) (ops : List Byte) :
    (encodeEnc t n rle ops).bytes.length = 2 + ops.length := by
  simp [encodeEnc]

/-- The bytes of the row's encoding, rounded up (spec/opcode_table.json). -/
def Instr.rowBytes : Instr → Nat
  | .encAlpha8 _ | .encRgb565 _ _ | .encArgb8888 _ _ | .encArgb4444 _ | .encArgb1555 _ | .encAi44 _ _ _
  | .encRgba8888 _ _ | .encRgba4444 _ | .encRgba5551 _ | .encI8 _ _ | .encI4 _ _ | .encI2 _ _ | .encI1 _ _
  | .encAlpha4 _ | .encAlpha2 _ | .encAlpha1 _ => 2
  | .rleRun _ _ => 2
  | .rleFlush _ | .rleReserved80 => 1
  | .hdrWrite _ _ _ _ _ _ => 14
  | .start | .srst _ | .rdreg _ | .wrreg _ _ => 1
  | .check | .encodePixel | .encodeRowend | .encodeEnd | .rleStep | .rleEnd | .emit => 1
  | .resolve _ | .modeDerive _ _ | .premul _ | .rowBegin | .pack _ _ | .flushRow => 0
  | .rleEncode _ | .rleMeasure | .rleLit | .rleBypass | .rleDecode _ => 0

/-- The operand bytes after them. -/
def Instr.operandBytes : Instr → Nat
  | .encAlpha8 _ | .encArgb4444 _ | .encArgb1555 _ | .encRgba4444 _ | .encRgba5551 _ | .encAlpha4 _ | .encAlpha2 _
  | .encAlpha1 _ => 0
  | .encRgb565 _ _ | .encArgb8888 _ _ | .encRgba8888 _ _ => 4
  | .encAi44 _ _ _ => 5
  | .encI8 _ _ | .encI4 _ _ | .encI2 _ _ | .encI1 _ _ => 3
  | .rleRun _ _ | .rleReserved80 | .hdrWrite _ _ _ _ _ _ | .start | .srst _ | .rdreg _ => 0
  | .rleFlush data => data.length
  | .wrreg _ _ => 4
  | .check | .encodePixel | .encodeRowend | .encodeEnd | .rleStep | .rleEnd | .emit => 0
  | .resolve name => name.length
  | .modeDerive _ _ | .pack _ _ => 2
  | .premul _ => 4
  | .rleEncode b => b.length
  | .rleDecode s => s.length
  | .rowBegin | .flushRow | .rleMeasure | .rleLit | .rleBypass => 0

/-- The word of an operation has the bytes of its row and of its operands, no more and no fewer. -/
def Laws.ByteLength.Statement (i : Instr) : Prop :=
  ∀ p : Params, (encode p i).bytes.length = i.rowBytes + i.operandBytes

theorem Laws.ByteLength.encAlpha8 (rle : Bool) : Laws.ByteLength.Statement (.encAlpha8 rle) := fun _ => by
  simp [encode, Instr.rowBytes, Instr.operandBytes]

theorem Laws.ByteLength.encRgb565 (rle : Bool) (tok : Direct) : Laws.ByteLength.Statement (.encRgb565 rle tok) := fun _ => by
  simp [encode, Instr.rowBytes, Instr.operandBytes]

theorem Laws.ByteLength.encArgb8888 (rle : Bool) (tok : Direct) : Laws.ByteLength.Statement (.encArgb8888 rle tok) := fun _ => by
  simp [encode, Instr.rowBytes, Instr.operandBytes]

theorem Laws.ByteLength.encArgb4444 (rle : Bool) : Laws.ByteLength.Statement (.encArgb4444 rle) := fun _ => by
  simp [encode, Instr.rowBytes, Instr.operandBytes]

theorem Laws.ByteLength.encArgb1555 (rle : Bool) : Laws.ByteLength.Statement (.encArgb1555 rle) := fun _ => by
  simp [encode, Instr.rowBytes, Instr.operandBytes]

theorem Laws.ByteLength.encAi44 (rle : Bool) (tok : Indexed) (m : Option Byte) : Laws.ByteLength.Statement (.encAi44 rle tok m) := fun _ => by
  simp [encode, Instr.rowBytes, Instr.operandBytes]

theorem Laws.ByteLength.encRgba8888 (rle : Bool) (tok : Direct) : Laws.ByteLength.Statement (.encRgba8888 rle tok) := fun _ => by
  simp [encode, Instr.rowBytes, Instr.operandBytes]

theorem Laws.ByteLength.encRgba4444 (rle : Bool) : Laws.ByteLength.Statement (.encRgba4444 rle) := fun _ => by
  simp [encode, Instr.rowBytes, Instr.operandBytes]

theorem Laws.ByteLength.encRgba5551 (rle : Bool) : Laws.ByteLength.Statement (.encRgba5551 rle) := fun _ => by
  simp [encode, Instr.rowBytes, Instr.operandBytes]

theorem Laws.ByteLength.encI8 (rle : Bool) (tok : Indexed) : Laws.ByteLength.Statement (.encI8 rle tok) := fun _ => by
  simp [encode, Instr.rowBytes, Instr.operandBytes]

theorem Laws.ByteLength.encI4 (rle : Bool) (tok : Indexed) : Laws.ByteLength.Statement (.encI4 rle tok) := fun _ => by
  simp [encode, Instr.rowBytes, Instr.operandBytes]

theorem Laws.ByteLength.encI2 (rle : Bool) (tok : Indexed) : Laws.ByteLength.Statement (.encI2 rle tok) := fun _ => by
  simp [encode, Instr.rowBytes, Instr.operandBytes]

theorem Laws.ByteLength.encI1 (rle : Bool) (tok : Indexed) : Laws.ByteLength.Statement (.encI1 rle tok) := fun _ => by
  simp [encode, Instr.rowBytes, Instr.operandBytes]

theorem Laws.ByteLength.encAlpha4 (rle : Bool) : Laws.ByteLength.Statement (.encAlpha4 rle) := fun _ => by
  simp [encode, Instr.rowBytes, Instr.operandBytes]

theorem Laws.ByteLength.encAlpha2 (rle : Bool) : Laws.ByteLength.Statement (.encAlpha2 rle) := fun _ => by
  simp [encode, Instr.rowBytes, Instr.operandBytes]

theorem Laws.ByteLength.encAlpha1 (rle : Bool) : Laws.ByteLength.Statement (.encAlpha1 rle) := fun _ => by
  simp [encode, Instr.rowBytes, Instr.operandBytes]

theorem Laws.ByteLength.rleRun (n : BitVec 7) (v : Byte) : Laws.ByteLength.Statement (.rleRun n v) := fun _ => by
  simp [encode, Instr.rowBytes, Instr.operandBytes]

theorem Laws.ByteLength.rleFlush (data : List Byte) : Laws.ByteLength.Statement (.rleFlush data) := fun _ => by
  simp [encode, Instr.rowBytes, Instr.operandBytes, Nat.add_comm]

theorem Laws.ByteLength.rleReserved80 : Laws.ByteLength.Statement (.rleReserved80) := fun _ => by
  simp [encode, Instr.rowBytes, Instr.operandBytes]

theorem Laws.ByteLength.hdrWrite (width height : Half) (flags kind : Byte) (mode : Half) (payloadLength : Nat) : Laws.ByteLength.Statement (.hdrWrite width height flags kind mode payloadLength) := fun _ => by
  simp [encode, Instr.rowBytes, Instr.operandBytes]

theorem Laws.ByteLength.start : Laws.ByteLength.Statement (.start) := fun _ => by
  simp [encode, Instr.rowBytes, Instr.operandBytes]

theorem Laws.ByteLength.srst (startBit : Bool) : Laws.ByteLength.Statement (.srst startBit) := fun _ => by
  simp [encode, Instr.rowBytes, Instr.operandBytes]

theorem Laws.ByteLength.rdreg (k : Nat) : Laws.ByteLength.Statement (.rdreg k) := fun _ => by
  simp [encode, Instr.rowBytes, Instr.operandBytes]

theorem Laws.ByteLength.wrreg (k : Nat) (v : Word) : Laws.ByteLength.Statement (.wrreg k v) := fun _ => by
  simp [encode, Instr.rowBytes, Instr.operandBytes]

theorem Laws.ByteLength.check : Laws.ByteLength.Statement (.check) := fun _ => by
  simp [encode, Instr.rowBytes, Instr.operandBytes]

theorem Laws.ByteLength.encodePixel : Laws.ByteLength.Statement (.encodePixel) := fun _ => by
  simp [encode, Instr.rowBytes, Instr.operandBytes]

theorem Laws.ByteLength.encodeRowend : Laws.ByteLength.Statement (.encodeRowend) := fun _ => by
  simp [encode, Instr.rowBytes, Instr.operandBytes]

theorem Laws.ByteLength.encodeEnd : Laws.ByteLength.Statement (.encodeEnd) := fun _ => by
  simp [encode, Instr.rowBytes, Instr.operandBytes]

theorem Laws.ByteLength.rleStep : Laws.ByteLength.Statement (.rleStep) := fun _ => by
  simp [encode, Instr.rowBytes, Instr.operandBytes]

theorem Laws.ByteLength.rleEnd : Laws.ByteLength.Statement (.rleEnd) := fun _ => by
  simp [encode, Instr.rowBytes, Instr.operandBytes]

theorem Laws.ByteLength.emit : Laws.ByteLength.Statement (.emit) := fun _ => by
  simp [encode, Instr.rowBytes, Instr.operandBytes]

theorem Laws.ByteLength.resolve (name : List Byte) : Laws.ByteLength.Statement (.resolve name) := fun _ => by
  simp [encode, Instr.rowBytes, Instr.operandBytes]

theorem Laws.ByteLength.modeDerive (base : BitVec 4) (useRle : Bool) : Laws.ByteLength.Statement (.modeDerive base useRle) := fun _ => by
  simp [encode, Instr.rowBytes, Instr.operandBytes]

theorem Laws.ByteLength.premul (tok : Direct) : Laws.ByteLength.Statement (.premul tok) := fun _ => by
  simp [encode, Instr.rowBytes, Instr.operandBytes]

theorem Laws.ByteLength.rowBegin : Laws.ByteLength.Statement (.rowBegin) := fun _ => by
  simp [encode, Instr.rowBytes, Instr.operandBytes]

theorem Laws.ByteLength.pack (value : Byte) (w : Nat) : Laws.ByteLength.Statement (.pack value w) := fun _ => by
  simp [encode, Instr.rowBytes, Instr.operandBytes]

theorem Laws.ByteLength.flushRow : Laws.ByteLength.Statement (.flushRow) := fun _ => by
  simp [encode, Instr.rowBytes, Instr.operandBytes]

theorem Laws.ByteLength.rleEncode (b : List Byte) : Laws.ByteLength.Statement (.rleEncode b) := fun _ => by
  simp [encode, Instr.rowBytes, Instr.operandBytes]

theorem Laws.ByteLength.rleMeasure : Laws.ByteLength.Statement (.rleMeasure) := fun _ => by
  simp [encode, Instr.rowBytes, Instr.operandBytes]

theorem Laws.ByteLength.rleLit : Laws.ByteLength.Statement (.rleLit) := fun _ => by
  simp [encode, Instr.rowBytes, Instr.operandBytes]

theorem Laws.ByteLength.rleBypass : Laws.ByteLength.Statement (.rleBypass) := fun _ => by
  simp [encode, Instr.rowBytes, Instr.operandBytes]

theorem Laws.ByteLength.rleDecode (s : List Byte) : Laws.ByteLength.Statement (.rleDecode s) := fun _ => by
  simp [encode, Instr.rowBytes, Instr.operandBytes]

end Sys2Proof
end

