-- ==== Sys2Proof/Laws/Rle.lean ====
section
/-! SUPPORT. The run-length compressor: the measured run, the packets, and what its operations leave. -/

namespace Sys2Proof.Machine

/-! ### The measured run -/

theorem leadCount_le (v : Byte) (bs : List Byte) (limit : Nat) : leadCount v bs limit ≤ limit ∧ leadCount v bs limit ≤ bs.length := by
  induction bs generalizing limit with
  | nil => simp [leadCount]
  | cons b bs ih =>
    cases limit with
    | zero => simp [leadCount]
    | succ limit =>
      have := ih limit
      simp only [leadCount, List.length_cons]
      split <;> omega

/-- The counted bytes are copies of `v`. -/
theorem leadCount_take (v : Byte) (bs : List Byte) (limit : Nat) :
    bs.take (leadCount v bs limit) = List.replicate (leadCount v bs limit) v := by
  induction bs generalizing limit with
  | nil => simp [leadCount]
  | cons b bs ih =>
    cases limit with
    | zero => simp [leadCount]
    | succ limit =>
      simp only [leadCount]
      split
      · rename_i hb
        simp [List.replicate_succ, ih, hb]
      · simp

/-- The count stops at the limit or at a byte that differs. -/
theorem leadCount_stop (v : Byte) (bs : List Byte) (limit : Nat) (h : leadCount v bs limit < limit) :
    bs[leadCount v bs limit]? ≠ some v := by
  induction bs generalizing limit with
  | nil => simp
  | cons b bs ih =>
    cases limit with
    | zero => omega
    | succ limit =>
      simp only [leadCount] at h ⊢
      split
      · rename_i hb
        rw [if_pos hb] at h
        simpa using ih limit (by omega)
      · rename_i hb
        simpa using hb

/-- A measured run is 1 to 128 bytes and no longer than the input (43_rle.md R132). -/
theorem runLength_bounds (v : Byte) (rest : List Byte) :
    1 ≤ runLength v rest ∧ runLength v rest ≤ 128 ∧ runLength v rest ≤ (v :: rest).length := by
  have := leadCount_le v rest (runMax - 1)
  simp only [runLength, runMax, List.length_cons] at *
  omega

/-- The measured bytes are copies of the first. -/
theorem runLength_take (v : Byte) (rest : List Byte) :
    (v :: rest).take (runLength v rest) = List.replicate (runLength v rest) v := by
  rw [runLength, Nat.add_comm, List.take_succ_cons, List.replicate_succ, leadCount_take]

/-- The run is maximal: it ends at the cap or before a byte that differs. -/
theorem runLength_stop (v : Byte) (rest : List Byte) (h : runLength v rest < 128) :
    (v :: rest)[runLength v rest]? ≠ some v := by
  have h' : leadCount v rest (runMax - 1) < runMax - 1 := by
    simp only [runLength, runMax] at *
    omega
  rw [runLength, Nat.add_comm]
  simpa using leadCount_stop v rest _ h'

/-- The run at a cursor within BUF. -/
theorem measureAt_of_lt (s : State) (h : s.cur < s.buf.length) :
    ∃ v, s.buf[s.cur]? = some v ∧ s.buf.drop s.cur = v :: s.buf.drop (s.cur + 1) ∧
      measureAt s = some (runLength v (s.buf.drop (s.cur + 1))) := by
  refine ⟨s.buf[s.cur], List.getElem?_eq_getElem h, List.drop_eq_getElem_cons h, ?_⟩
  rw [measureAt, List.drop_eq_getElem_cons h]

theorem measureAt_of_ge (s : State) (h : s.buf.length ≤ s.cur) : measureAt s = none := by
  simp [measureAt, List.drop_eq_nil_of_le h]

/-! ### Packets -/

@[simp] theorem runPacket_length (len : Nat) (v : Byte) : (runPacket len v).length = 2 := rfl

@[simp] theorem litPacket_length (lit : List Byte) : (litPacket lit).length = lit.length + 1 := rfl

theorem flushed_nil : flushed [] = [] := rfl

theorem flushed_eq (lit : List Byte) (h : lit ≠ []) : flushed lit = litPacket lit := by
  simp [flushed, h]

/-- The loop of the decoder on a run packet (30_encoding.md R76). -/
theorem unpackLoop_run (fuel len : Nat) (v : Byte) (rest : List Byte) (h1 : 2 ≤ len) (h2 : len ≤ 128) :
    unpackLoop (fuel + 1) (runPacket len v ++ rest) = (unpackLoop fuel rest).map (List.replicate len v ++ ·) := by
  have hc : (BitVec.ofNat 8 (128 + (len - 1))).toNat = 128 + (len - 1) := by
    simp only [BitVec.toNat_ofNat]
    omega
  have hl : 128 + (len - 1) - 128 + 1 = len := by omega
  simp only [runPacket, List.cons_append, List.nil_append, unpackLoop, hc]
  rw [if_pos (by omega), hl]

/-- The loop of the decoder on a literal packet (30_encoding.md R77). -/
theorem unpackLoop_lit (fuel : Nat) (lit rest : List Byte) (h1 : 1 ≤ lit.length) (h2 : lit.length ≤ 128) :
    unpackLoop (fuel + 1) (litPacket lit ++ rest) = (unpackLoop fuel rest).map (lit ++ ·) := by
  have hc : (BitVec.ofNat 8 (lit.length - 1)).toNat = lit.length - 1 := by
    simp only [BitVec.toNat_ofNat]
    omega
  have hl : lit.length - 1 + 1 = lit.length := by omega
  simp only [litPacket, List.cons_append, unpackLoop, hc]
  rw [if_neg (by omega), if_neg (by omega), hl, if_neg (by simp)]
  simp

/-! ### The operations on the block's state -/

/-- RLE.FLUSH leaves everything but PAY and LIT. -/
theorem flushLit_eq (s : State) : flushLit s = { s with pay := s.pay ++ litPacket s.lit, lit := [] } := rfl

/-- RLE.RUN (43_rle.md R133). -/
theorem takeRun_eq (v : Byte) (s : State) :
    takeRun v s = { s with pay := s.pay ++ flushed s.lit ++ runPacket s.runlen v, lit := [], cur := s.cur + s.runlen } := by
  rcases hl : s.lit with _ | ⟨b, bs⟩ <;> simp [takeRun, payAppend, flushLit, flushed, hl]

/-- RLE.LIT (43_rle.md R134). -/
theorem takeLit_eq (v : Byte) (s : State) :
    takeLit v s =
      (if s.lit.length + 1 = 128 then
        { s with pay := s.pay ++ litPacket (s.lit ++ [v]), lit := [], cur := s.cur + 1 }
      else { s with lit := s.lit ++ [v], cur := s.cur + 1 }) := by
  simp [takeLit, flushLit, payAppend, litMax]

end Sys2Proof.Machine
end

