-- ==== Sys2Proof/Laws/Step.lean ====
section
/-! SUPPORT. What a step can be: an operation of the block, an operation the host names, or a move of the host on its own memories. -/

namespace Sys2Proof.Machine

/-- The operations PHASE and the cursors select. -/
def blockOps : List Instr := [.check, .encodePixel, .encodeRowend, .encodeEnd, .rleStep, .rleEnd, .emit]

/-- The operations a host reaches by the registers. -/
def byRegister : Instr → Bool
  | .start | .srst _ | .rdreg _ | .wrreg _ _ => true
  | _ => false

theorem enabledStep_mem (c : CursorCase) (p : Nat) (i : Instr) (h : enabledStep c p = some i) : i ∈ blockOps := by
  unfold enabledStep at h
  split at h <;> simp at h <;> subst h <;> decide

theorem decode_phase3 (p : Params) (c : CursorCase) (bs : List Byte) (i : Instr) (h : decode p ⟨.phase3 c, bs⟩ = .ok i) :
    i ∈ blockOps := by
  simp only [decode] at h
  unfold decodePhase3 at h
  split at h
  · split at h
    · simp at h
    · split at h
      · rename_i hs
        injection h with h
        exact h ▸ enabledStep_mem _ _ _ hs
      · simp at h
  · simp at h

theorem decode_architectural (p : Params) (w : OpWord) (i : Instr) (hw : (HostMove.op w).architectural = true)
    (h : decode p w = .ok i) : byRegister i = true := by
  obtain ⟨sel, bs⟩ := w
  cases sel <;> simp [HostMove.architectural] at hw
  · simp only [decode, decodeCtrl2] at h
    split at h
    · split_ifs at h <;> (injection h with h; subst h; rfl)
    · simp at h
  · simp only [decode, decodeRdreg] at h
    split at h
    · injection h with h
      subst h
      rfl
    · simp at h
  · simp only [decode, decodeWrreg] at h
    split at h
    · injection h with h
      subst h
      rfl
    · simp at h

/-- The block's own step: the selected operation, or the state as it is. -/
theorem fetchBlock_cases (s : State) :
    (∃ i ∈ blockOps, fetchBlock s = .run i s) ∨ fetchBlock s = .answer (.next s) := by
  unfold fetchBlock
  cases h : decode s.params (phaseWord s) with
  | ok i => exact .inl ⟨i, decode_phase3 _ _ _ _ h, rfl⟩
  | error e => exact .inr rfl

/-- What a step does with what the fetch finds. -/
def runFetched : Fetched → Out
  | .run i t => exec i t
  | .answer o => o

theorem step_eq (s : State) : step s = runFetched (fetch s) := rfl

/-- A run of no step. -/
theorem run_zero (s : State) : core.run 0 s = .next s := rfl

/-- A run whose first step answers a next state goes on from there. -/
theorem run_next (k : Nat) (s t : State) (h : step s = .next t) : core.run (k + 1) s = core.run k t := by
  simp only [Host.Core.run, core, h]

/-- The state a step starts from: the host's next move taken off, if there is one. -/
def moveTaken (s u : State) : Prop := (s.host = [] ∧ u = s) ∨ ∃ m rest, s.host = m :: rest ∧ u = { s with host := rest }

/-- Everything a step that answers a next state can be. -/
theorem step_next_cases (s t : State) (h : step s = .next t) :
    ∃ u, moveTaken s u ∧
      ((∃ i ∈ blockOps, exec i u = .next t) ∨
        (∃ (w : OpWord) (i : Instr), s.host = .op w :: u.host ∧ decode u.params w = .ok i ∧ exec i u = .next t) ∨
        t = u ∨
        (u.phase.busy = false ∧ ∃ (x y : Half) (tok : Token), t = { u with src := supplyToken u.src x.toNat y.toNat tok }) ∨
        (u.phase.busy = false ∧ ∃ (x y : Half) (a : Byte), t = { u with mask := Memory.write u.mask (maskAddr x.toNat y.toNat) a }) ∨
        (∃ r, t = withRet r u) ∨
        t = resetState u) := by
  have block : ∀ u, moveTaken s u → step s = runFetched (fetchBlock u) →
      ∃ u, moveTaken s u ∧ ((∃ i ∈ blockOps, exec i u = .next t) ∨ t = u) := by
    intro u hu hs
    rcases fetchBlock_cases u with ⟨i, hi, hf⟩ | hf
    · exact ⟨u, hu, .inl ⟨i, hi, by rw [← h, hs, hf, runFetched]⟩⟩
    · rw [hs, hf] at h
      exact ⟨u, hu, .inr (by injection h with h; exact h.symm)⟩
  rcases hh : s.host with _ | ⟨m, rest⟩
  · obtain ⟨u, hu, hc⟩ := block s (.inl ⟨hh, rfl⟩) (by simp only [step_eq, fetch, hh])
    exact ⟨u, hu, hc.elim .inl (fun e => .inr (.inr (.inl e)))⟩
  · have hu : moveTaken s { s with host := rest } := .inr ⟨m, rest, hh, rfl⟩
    have hm : step s = runFetched (fetchMove m { s with host := rest }) := by
      simp only [step_eq, fetch, hh]
    cases m with
    | silent =>
      obtain ⟨u, hu, hc⟩ := block _ hu (by rw [hm]; rfl)
      exact ⟨u, hu, hc.elim .inl (fun e => .inr (.inr (.inl e)))⟩
    | op w =>
      rw [hm] at h
      simp only [fetchMove, fetchWord] at h
      split at h
      · rename_i i hd
        exact ⟨_, hu, .inr (.inl ⟨w, i, rfl, hd, h⟩)⟩
      · simp only [runFetched] at h
        split at h
        · injection h with h
          exact ⟨_, hu, .inr (.inr (.inl h.symm))⟩
        · simp at h
    | putSrc x y tok =>
      rw [hm] at h
      simp only [fetchMove, whenNotBusy, runFetched] at h
      split at h
      · simp at h
      · rename_i hb
        injection h with h
        exact ⟨_, hu, .inr (.inr (.inr (.inl ⟨by simpa using hb, x, y, tok, h.symm⟩)))⟩
    | putMask x y a =>
      rw [hm] at h
      simp only [fetchMove, whenNotBusy, runFetched] at h
      split at h
      · simp at h
      · rename_i hb
        injection h with h
        exact ⟨_, hu, .inr (.inr (.inr (.inr (.inl ⟨by simpa using hb, x, y, a, h.symm⟩))))⟩
    | readSrc x y =>
      rw [hm] at h
      injection h with h
      exact ⟨_, hu, .inr (.inr (.inr (.inr (.inr (.inl ⟨_, h.symm⟩)))))⟩
    | readMask x y =>
      rw [hm] at h
      injection h with h
      exact ⟨_, hu, .inr (.inr (.inr (.inr (.inr (.inl ⟨_, h.symm⟩)))))⟩
    | readOut a =>
      rw [hm] at h
      simp only [fetchMove, whenNotBusy, hostReadOut, runFetched] at h
      split at h
      · simp at h
      · split at h
        · split at h
          · injection h with h
            exact ⟨_, hu, .inr (.inr (.inr (.inr (.inr (.inl ⟨_, h.symm⟩)))))⟩
          · simp at h
        · simp at h
    | hwReset =>
      rw [hm] at h
      injection h with h
      exact ⟨_, hu, .inr (.inr (.inr (.inr (.inr (.inr h.symm)))))⟩

end Sys2Proof.Machine
end

