-- ==== Sys2Proof/Tests/Slice0.lean ====
section
/-! SUPPORT. Tests of the model. Expected results are the spec's: its examples and the vectors of 95_test_vectors.md (named V-… and
S… here), never the model's own answers. The theorems named test_witness_… show for each obligation with hypotheses a state and
operands that meet them. -/

namespace Sys2Proof.Machine.Test

def nextOf : Out → Option State
  | .next t => some t
  | _ => none

def refusalOf : Out → Option Refusal
  | .refused r => some r
  | _ => none

def retOf (o : Out) : Option Ret := (nextOf o).map State.ret

/-- The reset state with a job of this code and layout. -/
def withJob (fmt : BitVec 4) (layout : Layout) : State :=
  { State.reset with job := { Job.reset with fmt := fmt, layout := layout } }

/-- A job of this code, layout and size in this phase. -/
def inPhase (phase : Phase) (fmt : BitVec 4) (layout : Layout) (w h : Half) : State :=
  { State.reset with phase := phase, job := { Job.reset with fmt := fmt, layout := layout, w := w, h := h } }

/-! ### Well-formedness: one ill-formed term for each check -/

theorem test_wf_run_of_one : Instr.wellFormed (.rleRun 0 5) = false := by decide

theorem test_wf_empty_literal : Instr.wellFormed (.rleFlush []) = false := by decide

theorem test_wf_long_literal : Instr.wellFormed (.rleFlush (List.replicate 129 0)) = false := by
  simp [Instr.wellFormed]

theorem test_wf_long_payload : Instr.wellFormed (.hdrWrite 0 0 0 0 0 (2 ^ 32)) = false := by decide

theorem test_wf_pack_width : Instr.wellFormed (.pack 0 3) = false := by decide

theorem test_wf_register_number : Instr.wellFormed (.rdreg 256) = false ∧ Instr.wellFormed (.wrreg 256 0) = false := by decide

theorem test_wf_accepts : ∀ i ∈ [Instr.rleRun 1 5, .rleFlush [1], .rleFlush (List.replicate 128 0),
    .hdrWrite 0 0 0 0 0 (2 ^ 32 - 1), .pack 255 8, .rdreg 255, .wrreg 255 0, .start], i.wellFormed = true := by
  simp [Instr.wellFormed]

/-! ### Decoding: words written out from the spec, one for each constructor -/

/-- MODE16 (30_encoding.md R64), low byte first, r = 0 and r = 1 by turns. -/
theorem test_decode_unsupported_modes :
    decode .default ⟨.mode16, [0x00, 0]⟩ = .ok (.encAlpha8 false) ∧
    decode .default ⟨.mode16, [0x13, 0]⟩ = .ok (.encArgb4444 true) ∧
    decode .default ⟨.mode16, [0x04, 0]⟩ = .ok (.encArgb1555 false) ∧
    decode .default ⟨.mode16, [0x17, 0]⟩ = .ok (.encRgba4444 true) ∧
    decode .default ⟨.mode16, [0x08, 0]⟩ = .ok (.encRgba5551 false) ∧
    decode .default ⟨.mode16, [0x1D, 0]⟩ = .ok (.encAlpha4 true) ∧
    decode .default ⟨.mode16, [0x0E, 0]⟩ = .ok (.encAlpha2 false) ∧
    decode .default ⟨.mode16, [0x1F, 0]⟩ = .ok (.encAlpha1 true) := by decide

theorem test_decode_direct_modes :
    decode .default ⟨.mode16, [0x11, 0, 1, 2, 3, 4]⟩ = .ok (.encRgb565 true ⟨1, 2, 3, 4⟩) ∧
    decode .default ⟨.mode16, [0x02, 0, 1, 2, 3, 4]⟩ = .ok (.encArgb8888 false ⟨1, 2, 3, 4⟩) ∧
    decode .default ⟨.mode16, [0x16, 0, 1, 2, 3, 4]⟩ = .ok (.encRgba8888 true ⟨1, 2, 3, 4⟩) := by decide

theorem test_decode_indexed_modes :
    decode .default ⟨.mode16, [0x25, 0, 7, 1, 255, 1, 0x80]⟩ = .ok (.encAi44 false ⟨7, some 255⟩ (some 0x80)) ∧
    decode .default ⟨.mode16, [0x39, 0, 7, 0, 0]⟩ = .ok (.encI8 true ⟨7, none⟩) ∧
    decode .default ⟨.mode16, [0x2A, 0, 7, 1, 9]⟩ = .ok (.encI4 false ⟨7, some 9⟩) ∧
    decode .default ⟨.mode16, [0x3B, 0, 7, 0, 0]⟩ = .ok (.encI2 true ⟨7, none⟩) ∧
    decode .default ⟨.mode16, [0x2C, 0, 7, 0, 0]⟩ = .ok (.encI1 false ⟨7, none⟩) := by decide

/-- The packets of 43_rle.md's examples and the reserved control byte (30_encoding.md R76, R77, R83). -/
theorem test_decode_packets :
    decode .default ⟨.packet, [0xAB, 5]⟩ = .ok (.rleRun 43 5) ∧
    decode .default ⟨.packet, [0x02, 1, 2, 3]⟩ = .ok (.rleFlush [1, 2, 3]) ∧
    decode .default ⟨.packet, [0x80, 7]⟩ = .ok .rleReserved80 := by decide

/-- V-HDR-5: every field's byte order and position. -/
theorem test_decode_header :
    decode .default ⟨.hdr14, [0x44, 0x32, 0x02, 0x01, 0x04, 0x03, 0x05, 0x06, 0x08, 0x07, 0x0C, 0x0B, 0x0A, 0x09]⟩ =
      .ok (.hdrWrite 0x0102 0x0304 0x05 0x06 0x0708 0x090A0B0C) := by decide

/-- CTRL2 and REGACC (30_encoding.md R88; 10_state.md R20); bits of CTRL above 1 are ignored (93_implementation_defined.md U17), and
any register number is one (45_sequencer.md R169). -/
theorem test_decode_host :
    decode .default ⟨.ctrl2, [1]⟩ = .ok .start ∧ decode .default ⟨.ctrl2, [2]⟩ = .ok (.srst false) ∧
    decode .default ⟨.ctrl2, [3]⟩ = .ok (.srst true) ∧ decode .default ⟨.ctrl2, [0x81]⟩ = .ok .start ∧
    decode .default ⟨.rdreg, [7]⟩ = .ok (.rdreg 7) ∧ decode .default ⟨.rdreg, [200]⟩ = .ok (.rdreg 200) ∧
    decode .default ⟨.wrreg, [4, 0x45, 0x23, 1, 0]⟩ = .ok (.wrreg 4 0x12345) := by decide

/-- PHASE3: the codes of 10_state.md R26 with the conditions of 30_encoding.md R60. -/
theorem test_decode_phases :
    decode .default ⟨.phase3 .any, [1]⟩ = .ok .check ∧ decode .default ⟨.phase3 .pixelLeft, [2]⟩ = .ok .encodePixel ∧
    decode .default ⟨.phase3 .rowDone, [2]⟩ = .ok .encodeRowend ∧
    decode .default ⟨.phase3 .imageDone, [2]⟩ = .ok .encodeEnd ∧
    decode .default ⟨.phase3 .inputLeft, [3]⟩ = .ok .rleStep ∧ decode .default ⟨.phase3 .inputDone, [3]⟩ = .ok .rleEnd ∧
    decode .default ⟨.phase3 .any, [4]⟩ = .ok .emit := by decide

/-- A write to CTRL with both bits clear is no operation (30_encoding.md R88), and so is a PHASE that enables no step (45_sequencer.md
R168); a code above 6 is no PHASE (10_state.md R26). -/
theorem test_no_operation :
    nextOf (step { State.reset with host := [.op ⟨.ctrl2, [0xFC]⟩] }) = some State.reset ∧
    nextOf (step { State.reset with host := [.op ⟨.phase3 .any, [5]⟩] }) = some State.reset ∧
    refusalOf (step { State.reset with host := [.op ⟨.phase3 .any, [7]⟩] }) = some (.notAnOperation .phaseCode) := by decide

theorem test_decode_internal :
    decode .default ⟨.internal .resolve, [0x69, 0x34]⟩ = .ok (.resolve [0x69, 0x34]) ∧
    decode .default ⟨.internal .modeDerive, [10, 1]⟩ = .ok (.modeDerive 10 true) ∧
    decode .default ⟨.internal .premul, [200, 100, 50, 128]⟩ = .ok (.premul ⟨200, 100, 50, 128⟩) ∧
    decode .default ⟨.internal .rowBegin, []⟩ = .ok .rowBegin ∧
    decode .default ⟨.internal .pack, [5, 4]⟩ = .ok (.pack 5 4) ∧
    decode .default ⟨.internal .flushRow, []⟩ = .ok .flushRow ∧
    decode .default ⟨.internal .rleEncode, [1, 2]⟩ = .ok (.rleEncode [1, 2]) ∧
    decode .default ⟨.internal .rleMeasure, []⟩ = .ok .rleMeasure ∧
    decode .default ⟨.internal .rleLit, []⟩ = .ok .rleLit ∧
    decode .default ⟨.internal .rleBypass, []⟩ = .ok .rleBypass ∧
    decode .default ⟨.internal .rleDecode, [0, 7]⟩ = .ok (.rleDecode [0, 7]) := by decide

/-- What the encodings exclude is refused by name: 0x22 is no mode value of the block (90_conflicts.md C7), reserved mode bits, a
literal packet one byte short (43_rle.md R140), bad magic, CTRL without a bit. -/
theorem test_decode_refuses :
    decode .default ⟨.mode16, [0x22, 0, 0, 0, 0, 0]⟩ = .error .clutNotAsDerived ∧
    decode .default ⟨.mode16, [0x42, 0, 0, 0, 0, 0]⟩ = .error .reservedModeBits ∧
    decode .default ⟨.packet, [2, 1, 2]⟩ = .error .packetLength ∧
    decode .default ⟨.hdr14, [0x44, 0x33, 0, 0, 0, 0, 0, 0, 0, 0, 0, 0, 0, 0]⟩ = .error .badMagic ∧
    decode .default ⟨.ctrl2, [0]⟩ = .error .noControlBit := by decide

/-- Bare numbers of the table. -/
theorem test_table_words :
    decodeTableWord 16 0x0002 = some (.encArgb8888 false ⟨0, 0, 0, 0⟩) ∧ decodeTableWord 16 0x8105 = some (.rleRun 1 5) ∧
    decodeTableWord 112 0x44320400020000002200_0A000000 = some (.hdrWrite 4 2 0 0 0x22 10) ∧
    decodeTableWord 8 1 = some .start ∧ decodeTableWord 8 4 = some .emit := by decide

/-- A placed word is the next operation: RLE.RUN right after reset emits its packet. -/
theorem test_place_word : (nextOf (step (State.reset.withFetchWord 16 0x8105))).map State.pay = some [0x81, 5] := by decide

/-! ### The mode table -/

/-- V-MODE-6 and V-MODE-12: the indexed range and the code just above it. -/
theorem test_modeDerive : retOf (exec (.modeDerive 10 true) State.reset) = some (.mode 0x003A) ∧
    retOf (exec (.modeDerive 13 false) State.reset) = some (.mode 0x000D) := by decide

/-- 40_mode_resolve.md R90's example; V-MODE-14: capitals are no name. -/
theorem test_resolve : retOf (exec (.resolve [0x69, 0x34]) State.reset) = some (.code 10) ∧
    retOf (exec (.resolve [0x49, 0x34]) State.reset) = some (.raised .unknownFormat) := by decide

/-! ### Pixel transforms -/

/-- 41_pixel_encode.md R101's second example. -/
theorem test_premul : retOf (exec (.premul ⟨123, 45, 67, 200⟩) (withJob 2 .rgba)) = some (.rgb 96 35 52) := by decide

/-- V-PIX-16: no premultiplication without an alpha channel. -/
theorem test_premul_rgb : retOf (exec (.premul ⟨123, 45, 67, 255⟩) (withJob 2 .rgb)) = some (.rgb 123 45 67) := by decide

/-- V-PIX-1 (S5). -/
theorem test_argb8888 : retOf (exec (.encArgb8888 false ⟨200, 100, 50, 128⟩) (withJob 2 .rgba)) =
    some (.bytes [0x19, 0x32, 0x64, 0x80]) := by decide

/-- V-PIX-18: the same word big-endian. -/
theorem test_argb8888_be :
    retOf (exec (.encArgb8888 false ⟨200, 100, 50, 128⟩)
      { withJob 2 .rgba with params := { Params.default with wordOrder := .be } }) =
      some (.bytes [0x80, 0x64, 0x32, 0x19]) := by decide

/-- V-PIX-15. -/
theorem test_rgba8888 : retOf (exec (.encRgba8888 true ⟨123, 45, 67, 200⟩) (withJob 6 .rgba)) =
    some (.bytes [0xC8, 0x34, 0x23, 0x60]) := by decide

/-- V-PIX-11: truncating division, where a shift would give 16, 32, 16. -/
theorem test_rgb565_truncates : retOf (exec (.encRgb565 false ⟨128, 128, 128, 255⟩) (withJob 1 .rgba)) =
    some (.bytes [0xEF, 0x7B]) := by decide

/-- V-PIX-15: premultiplied first. -/
theorem test_rgb565_premultiplied : retOf (exec (.encRgb565 false ⟨123, 45, 67, 200⟩) (withJob 1 .rgba)) =
    some (.bytes [0x06, 0x59]) := by decide

/-- V-AI-2, V-AI-4, V-AI-11: zero alpha, alpha below 16, no alpha anywhere. -/
theorem test_ai44 : retOf (exec (.encAi44 false ⟨7, some 0⟩ none) (withJob 5 .indexed)) = some (.bytes [0]) ∧
    retOf (exec (.encAi44 false ⟨7, some 15⟩ none) (withJob 5 .indexed)) = some (.bytes [7]) ∧
    retOf (exec (.encAi44 false ⟨7, none⟩ none) (withJob 5 .indexed)) = some (.bytes [0xF7]) := by decide

/-- V-AI-9 and V-AI-10: the mask wins over the source alpha. -/
theorem test_ai44_mask :
    retOf (exec (.encAi44 false ⟨7, some 255⟩ (some 0))
      { State.reset with job := { Job.reset with maskEn := true } }) = some (.bytes [0]) ∧
    retOf (exec (.encAi44 false ⟨7, some 0⟩ (some 255))
      { State.reset with job := { Job.reset with maskEn := true } }) = some (.bytes [0xF7]) := by decide

/-- 41_pixel_encode.md R106 to R109: 0xC8; 0x13 becomes 3; 7 becomes 3; 3 becomes 1. -/
theorem test_indexed_modes : retOf (exec (.encI8 false ⟨0xC8, none⟩) State.reset) = some (.bits 0xC8 8) ∧
    retOf (exec (.encI4 false ⟨0x13, some 1⟩) State.reset) = some (.bits 3 4) ∧
    retOf (exec (.encI2 false ⟨7, none⟩) State.reset) = some (.bits 3 2) ∧
    retOf (exec (.encI1 false ⟨3, none⟩) State.reset) = some (.bits 1 1) := by decide

/-- 41_pixel_encode.md R111: the eight unsupported modes fault with cause 3; STATUS is 34 (V-SEQ-3). -/
theorem test_unsupported_modes :
    ∀ i ∈ [Instr.encAlpha8 false, .encArgb4444 true, .encArgb1555 false, .encRgba4444 true, .encRgba5551 false,
      .encAlpha4 true, .encAlpha2 false, .encAlpha1 true],
      (nextOf (exec i State.reset)).map status = some 0x34 := by decide

/-! ### The bit packer -/

/-- V-PACK-1 (S9): the second pixel of a row goes to the high nibble. -/
theorem test_pack_fills :
    (nextOf (exec (.pack 5 4) { withJob 10 .indexed with acc := 3, bits := 4 })).map (fun t => (t.buf, t.acc, t.bits)) =
      some ([0x53], 0, 0) := by decide

/-- V-PACK-7: the value is masked to its width. -/
theorem test_pack_masks :
    (nextOf (exec (.pack 7 2) (withJob 11 .indexed))).map (fun t => (t.buf, t.acc, t.bits)) = some ([], 3, 2) := by decide

/-- R125: another width in the same row is refused, also on a byte boundary; the next row takes it. -/
theorem test_pack_mixed_widths :
    refusalOf (execAll [.rowBegin, .pack 1 4, .pack 1 2] State.reset) = some .packPrecondition ∧
    refusalOf (execAll [.rowBegin, .pack 1 4, .pack 1 4, .pack 1 2] State.reset) = some .packPrecondition ∧
    (nextOf (execAll [.pack 1 4, .flushRow, .pack 1 2] State.reset)).map State.buf = some [1] := by decide

/-- V-PACK-2 (S4): a partial accumulator is flushed. -/
theorem test_flushRow :
    (nextOf (exec .flushRow { State.reset with acc := 5, bits := 4 })).map (fun t => (t.buf, t.acc, t.bits)) =
      some ([5], 0, 0) := by decide

/-- V-PACK-6: a flush on a byte boundary emits nothing. -/
theorem test_flushRow_boundary :
    (nextOf (exec .flushRow { State.reset with buf := [0xFF] })).map State.buf = some [0xFF] := by decide

theorem test_rowBegin :
    (nextOf (exec .rowBegin { State.reset with acc := 5, bits := 4 })).map (fun t => (t.buf, t.acc, t.bits)) =
      some ([], 0, 0) := by decide

/-! ### The run-length compressor -/

/-- V-RLE-8. -/
theorem test_rleEncode : retOf (exec (.rleEncode [1, 2, 2, 3, 4, 4, 4]) State.reset) =
    some (.bytes [0, 1, 0x81, 2, 0, 3, 0x82, 4]) := by decide

/-- V-RLE-1: the empty input gives the empty output. -/
theorem test_rleEncode_empty : retOf (exec (.rleEncode []) State.reset) = some (.bytes []) := by decide

/-- 43_rle.md R140's first example. -/
theorem test_rleDecode : retOf (exec (.rleDecode [0, 1, 0x81, 2, 0, 3, 0x82, 4]) State.reset) =
    some (.bytes [1, 2, 2, 3, 4, 4, 4]) := by decide

/-- 43_rle.md R140's refusals. -/
theorem test_rleDecode_refuses : ∀ b ∈ [[0x80, 7], [2, 1, 2], [0x81]],
    refusalOf (exec (.rleDecode b) State.reset) = some .streamMalformed := by decide

/-- 43_rle.md R132's example. -/
theorem test_rleMeasure :
    (nextOf (exec .rleMeasure { State.reset with buf := [5, 5, 5, 7] })).map State.runlen = some 3 ∧
    (nextOf (exec .rleMeasure { State.reset with buf := [5, 5, 5, 7], cur := 3 })).map State.runlen = some 1 := by decide

/-- 45_sequencer.md R166's example as the run alone: the pending literal first. -/
theorem test_rleRun :
    (nextOf (exec (.rleRun 1 2) { State.reset with buf := [1, 2, 2], cur := 1, runlen := 2, lit := [1] })).map
      (fun t => (t.pay, t.lit, t.cur)) = some ([0, 1, 0x81, 2], [], 3) := by decide

/-- 43_rle.md R134's example. -/
theorem test_rleLit :
    (nextOf (exec .rleLit { State.reset with buf := [1, 2, 2], runlen := 1 })).map (fun t => (t.pay, t.lit, t.cur)) =
      some ([], [1], 1) := by decide

/-- V-RLE-15: a literal block that reaches 128 is flushed at once. -/
theorem test_rleLit_cap :
    (nextOf (exec .rleLit { State.reset with buf := [9], runlen := 1, lit := List.replicate 127 0 })).map
      (fun t => (t.pay.length, t.pay.head?, t.lit)) = some (129, some 0x7F, []) := by
  simp [exec, execRleLit, takeLit_eq, nextOf, litPacket]

/-- 43_rle.md R135's example. -/
theorem test_rleFlush :
    (nextOf (exec (.rleFlush [1, 2, 3]) { State.reset with lit := [1, 2, 3] })).map (fun t => (t.pay, t.lit)) =
      some ([2, 1, 2, 3], []) := by decide

/-- 43_rle.md R139's example. -/
theorem test_rleBypass : (nextOf (exec .rleBypass { State.reset with buf := [0x53] })).map State.pay = some [0x53] := by
  decide

theorem test_rleReserved80 : refusalOf (exec .rleReserved80 State.reset) = some .reservedControlByte := by decide

/-! ### The header writer -/

/-- V-HDR-1 (S8). -/
theorem test_hdrWrite : retOf (exec (.hdrWrite 4 2 0 0 0x22 10) State.reset) =
    some (.bytes [0x44, 0x32, 4, 0, 2, 0, 0, 0, 0x22, 0, 10, 0, 0, 0]) := by decide

/-- V-HDR-7: a length of 2^32 faults with cause 6. -/
theorem test_hdrWrite_range :
    (nextOf (exec (.hdrWrite 0 0 0 0 0 4294967296) State.reset)).map status = some 0x64 := by decide

/-! ### The host's operations -/

/-- 45_sequencer.md R161's example, and the mode latched (P1). -/
theorem test_start : (nextOf (exec .start { State.reset with cfg := 0x010A, cause := 3 })).map
    (fun t => (t.phase, status t, t.job.mode)) = some (.check, 1, 0x002A) := by decide

/-- 93_implementation_defined.md U20: ignored while busy. -/
theorem test_start_busy : nextOf (exec .start (inPhase .rle 10 .indexed 4 4)) = some (inPhase .rle 10 .indexed 4 4) := by
  decide

/-- V-SEQ-14. -/
theorem test_srst : (nextOf (exec (.srst false) { State.reset with phase := .fault, cause := 2, cfg := 0x10A })).map
    (fun t => (status t, t.cfg)) = some (0, 0) := by decide

/-- V-MODE-15: MODE follows CFG; V-MODE-16: 0x031F reads as mode 0x001F. -/
theorem test_rdreg_mode : retOf (exec (.rdreg 7) { State.reset with cfg := 0x001A }) = some (.reg 0x003A) ∧
    retOf (exec (.rdreg 7) { State.reset with cfg := 0x031F }) = some (.reg 0x001F) := by decide

/-- CTRL reads 0; V-SEQ-1's STATUS. -/
theorem test_rdreg_status : retOf (exec (.rdreg 0) State.reset) = some (.reg 0) ∧
    retOf (exec (.rdreg 1) { State.reset with phase := .fault, cause := 2 }) = some (.reg 0x24) := by decide

/-- V-MODE-16: reserved bits dropped; V-SEQ-12: bits above the width dropped. -/
theorem test_wrreg : (nextOf (exec (.wrreg 2 0xFFFF) State.reset)).map State.cfg = some 0x031F ∧
    (nextOf (exec (.wrreg 4 0x12345) State.reset)).map State.dimW = some 0x2345 := by decide

/-- V-SEQ-13: no write while busy; V-SEQ-15: both control bits are SRST. -/
theorem test_wrreg_busy_and_ctrl :
    (nextOf (exec (.wrreg 2 0x10A) (inPhase .encode 10 .indexed 1 1))).map State.cfg = some 0 ∧
    (nextOf (exec (.wrreg 0 3) (inPhase .encode 10 .indexed 1 1))).map State.phase = some .idle := by decide

/-- 45_sequencer.md R169: above 8 a read gives 0 and a write does nothing, whatever the number. -/
theorem test_register_above_8 : retOf (exec (.rdreg 1000) State.reset) = some (.reg 0) ∧
    nextOf (exec (.wrreg 16 1) State.reset) = some State.reset := by decide

/-! ### The steps of a conversion -/

/-- V-SEQ-1, V-SEQ-2, V-SEQ-3: layout mismatch both ways, an unsupported target with no pixels. -/
theorem test_check : (nextOf (exec .check (inPhase .check 10 .rgba 2 1))).map status = some 0x24 ∧
    (nextOf (exec .check (inPhase .check 2 .indexed 1 1))).map status = some 0x24 ∧
    (nextOf (exec .check (inPhase .check 3 .rgba 0 0))).map status = some 0x34 ∧
    (nextOf (exec .check (inPhase .check 10 .indexed 2 1))).map State.phase = some .encode := by decide

/-- V-SEQ-5 and V-SEQ-6: layout OTHER before the mask, the mask before the target mode. -/
theorem test_check_order :
    (nextOf (exec .check
      { State.reset with phase := .check, job := { Job.reset with maskEn := true, layout := .other } })).map status =
      some 0x24 ∧
    (nextOf (exec .check
      { State.reset with phase := .check, job := { Job.reset with maskEn := true, layout := .rgba } })).map status =
      some 0x44 := by decide

/-- 45_sequencer.md R164's example: index 3 at i4. -/
theorem test_encodePixel :
    (nextOf (exec .encodePixel { inPhase .encode 10 .indexed 2 1 with src := [(0, 3)] })).map
      (fun t => (t.acc, t.bits, t.x, t.buf)) = some (3, 4, 1, []) := by decide

/-- P5's second pixel: the mask byte 0x80 with index 0x1F. -/
theorem test_encodePixel_mask :
    (nextOf (exec .encodePixel
      { State.reset with
        phase := .encode, x := 1, src := [(0, 7), (1, 255), (4, 0x1F), (5, 255)], mask := [(0, 255), (1, 0x80)],
        job := { Job.reset with fmt := 5, maskEn := true, maskOk := true, idxAlpha := true, w := 4, h := 1 } })).map
      (fun t => (t.buf, t.x)) = some ([0x8F], 2) := by decide

/-- 45_sequencer.md R165's example. -/
theorem test_encodeRowend :
    (nextOf (exec .encodeRowend { inPhase .encode 10 .indexed 1 1 with x := 1, acc := 5, bits := 4 })).map
      (fun t => (t.buf, t.acc, t.bits, t.y, t.x)) = some ([5], 0, 0, 1, 0) := by decide

/-- P1: without RLE the payload is the buffer; with RLE the stage starts empty. -/
theorem test_encodeEnd :
    (nextOf (exec .encodeEnd { inPhase .encode 10 .indexed 2 1 with y := 1, buf := [0x53] })).map
      (fun t => (t.pay, t.phase)) = some ([0x53], .emit) ∧
    (nextOf (exec .encodeEnd
      { State.reset with phase := .encode, buf := [0x53], job := { Job.reset with rle := true } })).map
      (fun t => (t.pay, t.phase)) = some ([], .rle) := by decide

/-- 45_sequencer.md R166's example. -/
theorem test_rleStep :
    (nextOf (exec .rleStep { State.reset with phase := .rle, buf := [1, 2, 2], cur := 1, lit := [1] })).map
      (fun t => (t.runlen, t.pay, t.cur, t.lit)) = some (2, [0, 1, 0x81, 2], 3, []) := by decide

/-- The end of V-RLE-7's trace. -/
theorem test_rleEnd :
    (nextOf (exec .rleEnd
      { State.reset with phase := .rle, buf := [1, 2, 2, 3], cur := 4, lit := [3], pay := [0, 1, 0x81, 2] })).map
      (fun t => (t.pay, t.lit, t.phase)) = some ([0, 1, 0x81, 2, 0, 3], [], .emit) := by decide

/-- 45_sequencer.md R167's example. -/
theorem test_emit :
    (nextOf (exec .emit
      { State.reset with
        phase := .emit, pay := [0x53], job := { Job.reset with hdrEn := true, w := 2, h := 1, mode := 0x2A } })).map
      (fun t => (t.out, t.outLen, status t)) =
      some ([0x44, 0x32, 2, 0, 1, 0, 0, 0, 0x2A, 0, 1, 0, 0, 0, 0x53], 15, 2) := by decide

/-- A finite OUT_CAP that the output exceeds: cause 7, nothing in OUT (60_exceptions.md R189). -/
theorem test_emit_capacity :
    (nextOf (exec .emit
      { State.reset with phase := .emit, pay := [1, 2], params := { Params.default with outCap := some 1 } })).map
      (fun t => (t.out, t.outLen, status t)) = some ([], 0, 0x74) := by decide

/-! ### The step -/

/-- With a silent host PHASE selects the operation, and IDLE holds. -/
theorem test_step_silent : (nextOf (step (inPhase .check 10 .indexed 2 1))).map State.phase = some .encode ∧
    nextOf (step State.reset) = some State.reset := by decide

/-- The host's own memories: a mask byte supplied, and the refusal while busy. -/
theorem test_step_host :
    (nextOf (step { State.reset with host := [.putMask 3 2 9] })).map State.mask = some [(131075, 9)] ∧
    refusalOf (step { inPhase .check 10 .indexed 2 1 with host := [.putMask 3 2 9] }) = some .hostAccessWhileBusy := by
  decide

/-- A job text (30_encoding.md R87) becomes P1's register writes: CFG 0x010A, then SRC_DESC, DIM_W, DIM_H, HDR_AUX, CTRL. -/
theorem test_job_moves :
    (match (JobText.moves .default
        { fmt := [0x69, 0x34], hdr := true, w := 2, h := 1, src := .indexed, rows := [[.indexed ⟨3, none⟩]] }) with
      | .ok ms => ms
      | .error _ => []) =
    [.putSrc 0 0 (.indexed ⟨3, none⟩), .op ⟨.wrreg, [2, 0x0A, 1, 0, 0]⟩, .op ⟨.wrreg, [3, 0, 0, 0, 0]⟩,
      .op ⟨.wrreg, [4, 2, 0, 0, 0]⟩, .op ⟨.wrreg, [5, 1, 0, 0, 0]⟩, .op ⟨.wrreg, [6, 0, 0, 0, 0]⟩,
      .op ⟨.wrreg, [0, 1, 0, 0, 0]⟩] := by decide

/-! ### Witnesses: states and operands that meet the hypotheses of the obligations -/

theorem test_witness_DecodeEncodeRoundTrip :
    Params.default.modeCode.wf ∧ Instr.wellFormed (.rleFlush [1]) = true ∧ Instr.wellFormed (.pack 255 8) = true := by decide

theorem test_witness_DecodedOperationsAreWellFormed : decode .default ⟨.packet, [0xFF, 5]⟩ = .ok (.rleRun 127 5) := by decide

theorem test_witness_ModeWordDecodesIffDerivable : Params.default.modeCode.wf ∧
    (0x00#8 ++ 0x3A#8 : Half) = Params.default.modeCode.modeValue 10 true := by decide

def startPending : State := { State.reset with host := [.op ⟨.ctrl2, [1]⟩] }

theorem test_witness_StepRunsHostWord :
    startPending.host = .op ⟨.ctrl2, [1]⟩ :: [] ∧ decode startPending.params ⟨.ctrl2, [1]⟩ = .ok .start := by decide

/-- A state for each clause, the host without a move. -/
theorem test_witness_SilentStepRunsEnabledOperation :
    (inPhase .check 10 .indexed 2 1).host = [] ∧
    (∃ s : State, s.host = [] ∧ s.phase = .encode ∧ s.y < s.job.h.toNat ∧ s.x < s.job.w.toNat) ∧
    (∃ s : State, s.host = [] ∧ s.phase = .encode ∧ s.y < s.job.h.toNat ∧ s.x = s.job.w.toNat) ∧
    (∃ s : State, s.host = [] ∧ s.phase = .encode ∧ s.y = s.job.h.toNat) ∧
    (∃ s : State, s.host = [] ∧ s.phase = .rle ∧ s.cur < s.buf.length) ∧
    (∃ s : State, s.host = [] ∧ s.phase = .rle ∧ s.cur = s.buf.length) ∧
    (∃ s : State, s.host = [] ∧ s.phase = .emit) ∧
    (∃ s : State, s.host = [] ∧ (s.phase = .idle ∨ s.phase = .done ∨ s.phase = .fault)) :=
  ⟨rfl, ⟨inPhase .encode 10 .indexed 2 1, by decide⟩, ⟨{ inPhase .encode 10 .indexed 2 1 with x := 2 }, by decide⟩,
    ⟨{ inPhase .encode 10 .indexed 2 1 with y := 1 }, by decide⟩,
    ⟨{ inPhase .rle 10 .indexed 2 1 with buf := [7] }, by decide⟩, ⟨inPhase .rle 10 .indexed 2 1, by decide⟩,
    ⟨inPhase .emit 10 .indexed 2 1, by decide⟩, ⟨State.reset, by decide⟩⟩

/-- The host's silent move taken off. -/
theorem test_witness_SilentStepRunsEnabledOperation_silent :
    ∃ (s t : State) (rest : List HostMove), s.host = .silent :: rest ∧ t = { s with host := rest } ∧ s.phase = .check :=
  ⟨{ inPhase .check 10 .indexed 2 1 with host := [.silent] }, inPhase .check 10 .indexed 2 1, [], by decide⟩

theorem test_witness_ResolveSpelledNames : ∀ n : FormatName, [0x49, 0x34] ≠ n.spelling := by
  intro n
  cases n <;> decide

/-- S5's channels, and an RGB source's. -/
theorem test_witness_Argb8888WordBytes : Premultiplied (withJob 2 .rgba).job.layout ⟨200, 100, 50, 128⟩ 100 50 25 ∧
    Premultiplied (withJob 2 .rgb).job.layout ⟨123, 45, 67, 255⟩ 123 45 67 := by
  simp [Premultiplied, withJob]

theorem test_witness_Rgba8888WordBytes : Premultiplied (withJob 6 .rgba).job.layout ⟨255, 255, 255, 1⟩ 1 1 1 := by
  simp [Premultiplied, withJob]

theorem test_witness_Rgb565WordBytes : Premultiplied (withJob 1 .rgba).job.layout ⟨255, 255, 255, 0⟩ 0 0 0 := by
  simp [Premultiplied, withJob]

def maskedJob : State := { State.reset with job := { Job.reset with fmt := 5, maskEn := true, maskOk := true } }

/-- The bound is reached by the empty list and by one byte. -/
theorem test_witness_RleEncodeSize :
    (rleEncode []).length = 2 * ([] : List Byte).length ∧ (rleEncode [7]).length = 2 * [(7 : Byte)].length := by decide

/-- The mask supplied; no mask enabled. -/
theorem test_witness_Ai44EffectiveAlpha :
    maskedJob.job.maskEn = true ∧ (withJob 5 .indexed).job.maskEn = false := by decide

theorem test_witness_UnsupportedModesRaise :
    Instr.encAlpha1 true ∈ [.encAlpha8 true, .encArgb4444 true, .encArgb1555 true, .encRgba4444 true, .encRgba5551 true,
      .encAlpha4 true, .encAlpha2 true, .encAlpha1 true] := by decide

/-- A packed job: the byte filled (4 + 4) and not (0 + 4); no packed job: width 8 on an empty accumulator. -/
theorem test_witness_PackPlacesValue :
    (∃ s : State, 4 ∈ [1, 2, 4, 8] ∧ s.bits % 4 = 0 ∧ s.bits + 4 = 8 ∧ s.rowWidth = some 4 ∧
      ∀ jobWidth, jobPackedWidth s = some jobWidth → 4 = jobWidth) ∧
    (∃ s : State, 4 ∈ [1, 2, 4, 8] ∧ s.bits % 4 = 0 ∧ s.bits + 4 < 8 ∧ s.rowWidth = none ∧
      ∀ jobWidth, jobPackedWidth s = some jobWidth → 4 = jobWidth) ∧
    (∃ s : State, 8 ∈ [1, 2, 4, 8] ∧ s.bits % 8 = 0 ∧ s.bits + 8 ≤ 8 ∧ s.rowWidth = none ∧
      ∀ jobWidth, jobPackedWidth s = some jobWidth → 8 = jobWidth) := by
  have h4 : jobPackedWidth (withJob 10 .indexed) = some 4 := by decide
  have h0 : jobPackedWidth State.reset = none := by decide
  refine ⟨⟨{ withJob 10 .indexed with bits := 4, rowWidth := some 4 }, by decide, by decide, by decide, by decide, fun j h => ?_⟩,
    ⟨withJob 10 .indexed, by decide, by decide, by decide, by decide, fun j h => ?_⟩,
    ⟨State.reset, by decide, by decide, by decide, by decide, fun j h => ?_⟩⟩
  · exact Option.some_inj.mp (h4.symm.trans h)
  · exact Option.some_inj.mp (h4.symm.trans h)
  · exact absurd (h0.symm.trans h) (by simp)

/-- One state for each broken part of the precondition. -/
theorem test_witness_PackRefusesBrokenPrecondition :
    3 ∉ [1, 2, 4, 8] ∧ ({ withJob 10 .indexed with bits := 1 } : State).bits % 4 ≠ 0 ∧
    8 < ({ State.reset with bits := 8 } : State).bits + 1 ∧
    (({ State.reset with rowWidth := some 4 } : State).rowWidth = some 4 ∧ 2 ≠ 4) ∧ (jobPackedWidth (withJob 10 .indexed) = some 4 ∧ 2 ≠ 4) := by
  decide

/-- S9's row. -/
theorem test_witness_RowLengthLaw : ∃ (s : State) (w : Nat), w ∈ [1, 2, 4, 8] ∧
    ∀ jobWidth, jobPackedWidth s = some jobWidth → w = jobWidth := by
  have h4 : jobPackedWidth (withJob 10 .indexed) = some 4 := by decide
  exact ⟨withJob 10 .indexed, 4, by decide, fun j h => Option.some_inj.mp (h4.symm.trans h)⟩

theorem test_witness_PackedPixelPosition :
    nextOf (execAll (rowOps [3, 5, 7] 4) (withJob 10 .indexed)) = some { withJob 10 .indexed with buf := [0x53, 7] } ∧
    1 < [3, 5, 7].length ∧ [3, 5, 7].length * 4 ≤ 8 * 1 + 4 := by decide

/-- A stream of packets in range, and one that is none. -/
theorem test_witness_RleDecodeAnswersPacketStreams :
    ((∀ q ∈ [Packet.run 2 7, .lit [1]], q.inRange = true) ∧
      [0x81, 7, 0, 1] = [Packet.run 2 7, .lit [1]].flatMap Packet.serial) ∧
    ¬ ∃ ps : List Packet, (∀ q ∈ ps, q.inRange = true) ∧ [0x80] = ps.flatMap Packet.serial := by
  refine ⟨by decide, ?_⟩
  rintro ⟨ps, hr, h⟩
  rcases ps with _ | ⟨q, qs⟩
  · simp at h
  · have hq := hr q (by simp)
    cases q with
    | run len v => simp [Packet.serial] at h
    | lit bs =>
      simp only [Packet.inRange, Bool.and_eq_true, decide_eq_true_eq] at hq
      simp only [List.flatMap_cons, Packet.serial, List.cons_append, List.cons.injEq] at h
      have := congrArg BitVec.toNat h.1
      simp at this
      omega

/-- The cursor at the first and at the last byte. -/
theorem test_witness_RleMeasureMaximalRun : ({ State.reset with buf := [5, 5, 5, 7] } : State).cur < 4 ∧
    ({ State.reset with buf := [5, 5, 5, 7], cur := 3 } : State).cur < 4 := by decide

/-- The shortest and the longest run. -/
theorem test_witness_RleRunEmitsPacket :
    (∃ s : State, 2 ≤ s.runlen ∧ s.runlen = (1 : BitVec 7).toNat + 1 ∧ s.buf[s.cur]? = some 5) ∧
    (∃ s : State, 2 ≤ s.runlen ∧ s.runlen = (127 : BitVec 7).toNat + 1 ∧ s.buf[s.cur]? = some 5) :=
  ⟨⟨{ State.reset with buf := [5, 5], runlen := 2 }, by decide⟩, ⟨{ State.reset with buf := [5], runlen := 128 }, by decide⟩⟩

/-- The block below its cap, and the byte that fills it. -/
theorem test_witness_RleLitExtendsBlock :
    (∃ s : State, s.runlen = 1 ∧ s.buf[s.cur]? = some 5 ∧ s.lit.length + 1 < 128) ∧
    (∃ s : State, s.runlen = 1 ∧ s.buf[s.cur]? = some 5 ∧ s.lit.length + 1 = 128) :=
  ⟨⟨{ State.reset with buf := [5], runlen := 1 }, by decide⟩,
    ⟨{ State.reset with buf := [5], runlen := 1, lit := List.replicate 127 0 }, rfl, rfl, by simp⟩⟩

theorem test_witness_RleFlushEmitsLiteral :
    (∃ s : State, s.lit.length = 1) ∧ (∃ s : State, s.lit.length = 128) :=
  ⟨⟨{ State.reset with lit := [1] }, rfl⟩, ⟨{ State.reset with lit := List.replicate 128 0 }, by simp⟩⟩

theorem test_witness_RleBypassCopiesBuffer : State.reset.job.rle = false := by decide

/-- Each condition false. -/
theorem test_witness_RleConditionsStop :
    State.reset.buf.length ≤ State.reset.cur ∧ State.reset.runlen < 2 ∧ State.reset.runlen ≠ 1 ∧ State.reset.lit = [] ∧
    (∃ s : State, s.runlen = 2 ∧ s.runlen ≠ (2 : BitVec 7).toNat + 1) ∧
    (∃ s : State, s.buf[s.cur]? ≠ some 5) ∧
    (∃ s : State, 128 < s.lit.length) ∧ (∃ s : State, [2] ≠ s.lit ∧ s.lit = [1]) ∧ (∃ s : State, s.job.rle = true) :=
  ⟨by decide, by decide, by decide, by decide, ⟨{ State.reset with runlen := 2 }, by decide⟩,
    ⟨{ State.reset with buf := [6] }, by decide⟩, ⟨{ State.reset with lit := List.replicate 129 0 }, by simp⟩,
    ⟨{ State.reset with lit := [1] }, by decide⟩, ⟨{ State.reset with job := { Job.reset with rle := true } }, rfl⟩⟩

/-- V-RLE-7's start, and the empty buffer. -/
theorem test_witness_RlePhaseComputesEncoding :
    (∃ s : State, s.phase = .rle ∧ s.cur = 0 ∧ s.lit = [] ∧ s.pay = [] ∧ s.host = [] ∧ s.buf = [1, 2, 2, 3]) ∧
    (∃ s : State, s.phase = .rle ∧ s.cur = 0 ∧ s.lit = [] ∧ s.pay = [] ∧ s.host = [] ∧ s.buf = []) :=
  ⟨⟨{ State.reset with phase := .rle, buf := [1, 2, 2, 3] }, by decide⟩, ⟨{ State.reset with phase := .rle }, by decide⟩⟩

theorem test_witness_HeaderWriteBytes : 4294967295 < 2 ^ 32 ∧ 2 ^ 32 ≤ 4294967296 := by decide

theorem test_witness_StartLatchesJob : (inPhase .emit 10 .indexed 1 1).phase ∈ [Phase.check, .encode, .rle, .emit] ∧
    State.reset.phase ∈ [Phase.idle, .done, .fault] := by decide

theorem test_witness_ResetsGiveResetState :
    ({ inPhase .rle 10 .indexed 1 1 with host := [.hwReset] } : State).host = .hwReset :: [] := rfl

theorem test_witness_ConfigurationWrites : (inPhase .fault 10 .indexed 1 1).phase ∈ [Phase.idle, .done, .fault] := by decide

theorem test_witness_IgnoredRegisterWrites :
    (6 ∈ [2, 3, 4, 5, 6] ∧ (inPhase .check 10 .indexed 1 1).phase ∈ [Phase.check, .encode, .rle, .emit]) ∧
    8 ∈ [1, 7, 8] ∧ 8 < 9 := by decide

theorem test_witness_ControlWrites : (3 : Word).getLsbD 1 = true ∧ ((1 : Word).getLsbD 1 = false ∧ (1 : Word).getLsbD 0 = true) ∧
    ((4 : Word).getLsbD 1 = false ∧ (4 : Word).getLsbD 0 = false) ∧
    startPending.host = .op ⟨.ctrl2, [1]⟩ :: [] := by decide

/-- The two moves, at the last coordinates and the first. -/
theorem test_witness_HostSuppliesSources :
    (∃ s : State, s.phase ∈ [Phase.idle, .done, .fault] ∧ s.host = .putMask 65535 65535 9 :: []) ∧
    (∃ s : State, s.phase ∈ [Phase.idle, .done, .fault] ∧ s.host = .putSrc 0 0 (.direct ⟨1, 2, 3, 4⟩) :: []) ∧
    (∃ s : State, s.phase ∈ [Phase.idle, .done, .fault] ∧ s.host = .putSrc 0 0 (.indexed ⟨7, none⟩) :: []) ∧
    ((1, 0) : Half × Half) ≠ (0, 0) :=
  ⟨⟨{ State.reset with host := [.putMask 65535 65535 9] }, by decide⟩,
    ⟨{ State.reset with host := [.putSrc 0 0 (.direct ⟨1, 2, 3, 4⟩)] }, by decide⟩,
    ⟨{ inPhase .done 0 .rgb 1 1 with host := [.putSrc 0 0 (.indexed ⟨7, none⟩)] }, by decide⟩, by decide⟩

/-- While busy; the last byte of OUT; the first address beyond it. -/
theorem test_witness_HostAccessWindows :
    (∃ s : State, s.phase ∈ [Phase.check, .encode, .rle, .emit] ∧ s.host = .readOut 0 :: []) ∧
    (∃ s : State, s.phase ∈ [Phase.check, .encode, .rle, .emit] ∧ s.host = .putMask 0 0 1 :: []) ∧
    (∃ s : State, s.phase ∈ [Phase.check, .encode, .rle, .emit] ∧ s.host = .putSrc 0 0 (.indexed ⟨1, none⟩) :: []) ∧
    (∃ s : State, s.phase ∈ [Phase.idle, .done, .fault] ∧ s.host = .readOut 0 :: [] ∧ 0 < s.outLen ∧ s.out[0]? = some 0x53) ∧
    (∃ s : State, s.phase ∈ [Phase.idle, .done, .fault] ∧ s.host = .readOut 1 :: [] ∧ s.outLen ≤ 1) ∧
    (∃ s : State, s.phase = .encode ∧ s.host = .readSrc 0 0 :: []) ∧ (∃ s : State, s.phase = .encode ∧ s.host = .readMask 0 0 :: []) :=
  ⟨⟨{ inPhase .emit 0 .rgb 1 1 with host := [.readOut 0] }, by decide⟩,
    ⟨{ inPhase .encode 0 .rgb 1 1 with host := [.putMask 0 0 1] }, by decide⟩,
    ⟨{ inPhase .rle 0 .rgb 1 1 with host := [.putSrc 0 0 (.indexed ⟨1, none⟩)] }, by decide⟩,
    ⟨{ inPhase .done 0 .rgb 1 1 with host := [.readOut 0], out := [0x53], outLen := 1 }, by decide⟩,
    ⟨{ inPhase .done 0 .rgb 1 1 with host := [.readOut 1], out := [0x53], outLen := 1 }, by decide⟩,
    ⟨{ inPhase .encode 0 .rgb 1 1 with host := [.readSrc 0 0] }, by decide⟩,
    ⟨{ inPhase .encode 0 .rgb 1 1 with host := [.readMask 0 0] }, by decide⟩⟩

/-- One state for each answer of CHECK, in the order of the tests. -/
theorem test_witness_CheckTestsInOrder : Params.default.modeCode.wf ∧
    (inPhase .check 10 .other 1 1).job.fmt = Params.default.modeCode.code .i4 ∧
    ((inPhase .check 10 .indexed 1 1).job.fmt = Params.default.modeCode.code .i4) ∧
    (∃ s : State, s.phase = .check ∧ s.job.fmt = s.params.modeCode.code .i8 ∧ s.job.maskEn = true ∧ s.job.maskOk = false) ∧
    (∃ s : State, s.phase = .check ∧ s.job.fmt = s.params.modeCode.code .alpha8 ∧ s.job.layout ≠ .other) ∧
    (∃ s : State, s.phase = .check ∧ s.job.fmt = s.params.modeCode.code .rgb565 ∧ s.job.layout = .indexed) ∧
    (∃ s : State, s.phase = .check ∧ s.job.fmt = s.params.modeCode.code .i1 ∧ s.job.layout = .rgba) ∧
    (∃ s : State, s.phase = .check ∧ s.job.fmt = s.params.modeCode.code .i8 ∧ s.job.layout = .indexed ∧
      s.params.bufCap = some 0 ∧ 0 < s.job.h.toNat * FormatName.rowBytes .i8 s.job.w.toNat) :=
  ⟨by decide, by decide, by decide, ⟨{ maskedJob with phase := .check, job := { maskedJob.job with fmt := 9, maskOk := false } }, by decide⟩,
    ⟨inPhase .check 0 .rgba 1 1, by decide⟩, ⟨inPhase .check 1 .indexed 1 1, by decide⟩, ⟨inPhase .check 12 .rgba 1 1, by decide⟩,
    ⟨{ inPhase .check 9 .indexed 1 1 with params := { Params.default with bufCap := some 0 } }, by decide⟩⟩

theorem test_witness_RowBytesOfModes : FormatName.argb8888 ∈ [FormatName.argb8888, .rgba8888] ∧
    FormatName.ai44 ∈ [FormatName.ai44, .i8] := by decide

/-- A pixel left, and a token of the mode's kind, for each mode of byte groups (the bytes of SRC supplied). -/
def pixelState (fmt : BitVec 4) (layout : Layout) : State :=
  { inPhase .encode fmt layout 1 1 with src := [(0, 200), (1, 100), (2, 50), (3, 128)] }

theorem test_witness_EncodePixelRunsTransform_bytes : Params.default.modeCode.wf ∧
    (pixelState 2 .rgba).y < (pixelState 2 .rgba).job.h.toNat ∧ (pixelState 2 .rgba).x < (pixelState 2 .rgba).job.w.toNat ∧
    srcRead .rgba false (pixelState 2 .rgba).src 0 0 = some (.direct ⟨200, 100, 50, 128⟩) ∧
    (pixelState 2 .rgba).job.fmt = Params.default.modeCode.argb8888 ∧
    (pixelState 6 .rgba).job.fmt = Params.default.modeCode.rgba8888 ∧
    (pixelState 1 .rgba).job.fmt = Params.default.modeCode.rgb565 ∧
    srcRead .indexed false (pixelState 5 .indexed).src 0 0 = some (.indexed ⟨200, none⟩) ∧
    (pixelState 5 .indexed).job.fmt = Params.default.modeCode.ai44 := by decide

theorem test_witness_EncodePixelRunsTransform_bits :
    ∀ c ∈ [((9 : BitVec 4), Params.default.modeCode.i8, 8), (10, Params.default.modeCode.i4, 4),
      (11, Params.default.modeCode.i2, 2), (12, Params.default.modeCode.i1, 1)],
      (pixelState c.1 .indexed).job.fmt = c.2.1 ∧ (pixelState c.1 .indexed).bits % c.2.2 = 0 ∧
      (pixelState c.1 .indexed).bits < 8 ∧ (pixelState c.1 .indexed).rowWidth = none ∧
      srcRead .indexed false (pixelState c.1 .indexed).src 0 0 = some (.indexed ⟨200, none⟩) := by decide

/-- A row ended with a partial accumulator, and an empty row. -/
theorem test_witness_EncodeRowendFlushes :
    (∃ s : State, s.phase = .encode ∧ s.y < s.job.h.toNat ∧ s.x = s.job.w.toNat ∧ s.bits = 4) ∧
    (∃ s : State, s.phase = .encode ∧ s.y < s.job.h.toNat ∧ s.x = s.job.w.toNat ∧ s.job.w = 0) :=
  ⟨⟨{ inPhase .encode 10 .indexed 1 1 with x := 1, bits := 4, acc := 5 }, by decide⟩,
    ⟨inPhase .encode 10 .indexed 0 1, by decide⟩⟩

theorem test_witness_EncodeEndSelectsStage :
    (∃ s : State, s.phase = .encode ∧ s.y = s.job.h.toNat ∧ s.job.rle = false) ∧
    (∃ s : State, s.phase = .encode ∧ s.y = s.job.h.toNat ∧ s.job.rle = true) :=
  ⟨⟨{ inPhase .encode 10 .indexed 1 1 with y := 1 }, by decide⟩,
    ⟨{ State.reset with phase := .encode, job := { Job.reset with rle := true } }, by decide⟩⟩

theorem test_witness_RleStepMeasuresAndTakes :
    ∃ s : State, s.phase = .rle ∧ s.buf[s.cur]? = some 2 :=
  ⟨{ State.reset with phase := .rle, buf := [1, 2, 2], cur := 1, lit := [1] }, by decide⟩

theorem test_witness_RleEndFlushes :
    (∃ s : State, s.phase = .rle ∧ s.cur = s.buf.length ∧ s.lit = [3]) ∧
    (∃ s : State, s.phase = .rle ∧ s.cur = s.buf.length ∧ s.lit = []) :=
  ⟨⟨{ State.reset with phase := .rle, buf := [3], cur := 1, lit := [3] }, by decide⟩,
    ⟨{ State.reset with phase := .rle }, by decide⟩⟩

/-- With a header and without; OUT_CAP just reached. -/
theorem test_witness_EmitTestsThenWrites_writes :
    (∃ s : State, s.phase = .emit ∧ s.out = [] ∧ s.job.hdrEn = true ∧ s.pay.length < 2 ^ 32 ∧ s.params.outCap = some 15 ∧
      14 + s.pay.length ≤ 15) ∧
    (∃ s : State, s.phase = .emit ∧ s.out = [] ∧ s.job.hdrEn = false ∧ s.params.outCap = none) :=
  ⟨⟨{ State.reset with
      phase := .emit, pay := [0x53], job := { Job.reset with hdrEn := true },
      params := { Params.default with outCap := some 15 } }, by decide⟩,
    ⟨{ State.reset with phase := .emit, pay := [0x53] }, by decide⟩⟩

/-- A payload of 2^32 bytes; OUT_CAP exceeded with a header and without. -/
theorem test_witness_EmitTestsThenWrites_faults :
    (∃ s : State, s.phase = .emit ∧ s.job.hdrEn = true ∧ 2 ^ 32 - 1 < s.pay.length) ∧
    (∃ s : State, s.phase = .emit ∧ s.job.hdrEn = true ∧ s.pay.length ≤ 2 ^ 32 - 1 ∧ s.params.outCap = some 14 ∧
      14 < 14 + s.pay.length) ∧
    (∃ s : State, s.phase = .emit ∧ s.job.hdrEn = false ∧ s.params.outCap = some 0 ∧ 0 < s.pay.length) :=
  ⟨⟨{ State.reset with phase := .emit, pay := List.replicate (2 ^ 32) 0, job := { Job.reset with hdrEn := true } }, rfl, rfl,
      by simp only [List.length_replicate]; decide⟩,
    ⟨{ State.reset with
      phase := .emit, pay := [1], job := { Job.reset with hdrEn := true },
      params := { Params.default with outCap := some 14 } }, by decide⟩,
    ⟨{ State.reset with phase := .emit, pay := [1], params := { Params.default with outCap := some 0 } }, by decide⟩⟩

/-- Each "Enabled" line false: by the phase (the reset state) and by the cursors. -/
theorem test_witness_DisabledStepsStop :
    (State.reset.phase ≠ .check ∧ State.reset.phase ≠ .encode ∧ State.reset.phase ≠ .rle ∧ State.reset.phase ≠ .emit) ∧
    (∃ s : State, s.phase = .encode ∧ s.job.w.toNat ≤ s.x) ∧ (∃ s : State, s.phase = .encode ∧ s.x ≠ s.job.w.toNat) ∧
    (∃ s : State, s.phase = .encode ∧ s.job.h.toNat ≤ s.y) ∧ (∃ s : State, s.phase = .encode ∧ s.y ≠ s.job.h.toNat) ∧
    (∃ s : State, s.phase = .rle ∧ s.buf.length ≤ s.cur) ∧ (∃ s : State, s.phase = .rle ∧ s.cur ≠ s.buf.length) :=
  ⟨by decide, ⟨{ inPhase .encode 10 .indexed 1 1 with x := 1 }, by decide⟩, ⟨inPhase .encode 10 .indexed 1 1, by decide⟩,
    ⟨{ inPhase .encode 10 .indexed 1 1 with y := 1 }, by decide⟩, ⟨inPhase .encode 10 .indexed 1 1, by decide⟩,
    ⟨{ State.reset with phase := .rle }, by decide⟩, ⟨{ State.reset with phase := .rle, buf := [1] }, by decide⟩⟩

/-- P1 after its first pixel: a state in the middle of a byte. -/
def midByte : State :=
  { inPhase .encode 10 .indexed 2 1 with acc := 3, bits := 4, rowWidth := some 4, x := 1, src := [(0, 3), (4, 5)] }

theorem test_witness_WorkingInvariantKept : WorkingInv midByte ∧
    nextOf (step midByte) = some { midByte with acc := 0, bits := 0, x := 2, buf := [0x53] } := by
  have h4 : jobPackedWidth midByte = some 4 := by decide
  refine ⟨⟨?_, ?_, ?_, ?_, ?_, ?_, ?_, ?_, ?_, ?_, ?_, ?_, ?_⟩, ?_⟩
  case refine_3 => rw [h4]; decide
  case refine_4 => exact fun w h => h4.trans h
  all_goals decide

theorem test_witness_EncodingNeverStops : WorkingInv midByte ∧ midByte.phase = .encode ∧ midByte.host = [] ∧
    (nextOf (exec .check { midByte with phase := .check })).map State.phase = some .encode :=
  ⟨test_witness_WorkingInvariantKept.1, by decide⟩

/-- A state in the middle of a byte, and one past ENCODE with a finite BUF_CAP just reached. -/
theorem test_witness_BufferInvariantKept : BufferInv midByte ∧ WorkingInv midByte ∧ (nextOf (step midByte)).isSome = true ∧
    (∃ s : State, s.phase = .rle ∧ s.params.bufCap = some 1 ∧ s.params.modeCode.nameOf s.job.fmt = some .i4 ∧
      s.buf.length = s.job.h.toNat * FormatName.rowBytes .i4 s.job.w.toNat ∧ s.buf.length = 1) := by
  have hn : midByte.params.modeCode.nameOf midByte.job.fmt = some .i4 := by decide
  refine ⟨⟨?_, ?_, ?_, ?_, ?_, ?_⟩, test_witness_WorkingInvariantKept.1, by decide,
    ⟨{ inPhase .rle 10 .indexed 2 1 with buf := [0x53], params := { Params.default with bufCap := some 1 } }, by decide⟩⟩
  case refine_3 => intro _ n h; obtain rfl := Option.some_inj.mp (hn.symm.trans h); decide
  case refine_5 => intro h; exact absurd h (by decide)
  case refine_6 => intro h; exact absurd h (by decide)
  all_goals decide

/-- The start of a row of a job that passes CHECK. -/
theorem test_witness_RowBytesOfModes_row :
    ∃ s : State, WorkingInv s ∧ s.host = [] ∧ s.phase = .encode ∧ s.y < s.job.h.toNat ∧ s.x = 0 ∧ s.bits = 0 ∧
      checkJob s.params s.job = none ∧ s.params.modeCode.nameOf s.job.fmt = some .i4 := by
  have h4 : jobPackedWidth (inPhase .encode 10 .indexed 2 1) = some 4 := by decide
  refine ⟨inPhase .encode 10 .indexed 2 1, ⟨?_, ?_, ?_, ?_, ?_, ?_, ?_, ?_, ?_, ?_, ?_, ?_, ?_⟩, ?_⟩
  case refine_3 => rw [h4]; decide
  case refine_4 => intro w h; exact absurd h (by simp [inPhase])
  all_goals decide

/-- P1 when its row has ended: ENCODE.END is enabled and the invariants hold. -/
theorem test_witness_EncodeEndSelectsStage_length :
    ∃ s : State, WorkingInv s ∧ BufferInv s ∧ s.phase = .encode ∧ s.y = s.job.h.toNat ∧
      s.params.modeCode.nameOf s.job.fmt = some .i4 := by
  let s : State := { inPhase .encode 10 .indexed 2 1 with y := 1, buf := [0x53] }
  have h4 : jobPackedWidth s = some 4 := by decide
  have hn : s.params.modeCode.nameOf s.job.fmt = some .i4 := by decide
  refine ⟨s, ⟨?_, ?_, ?_, ?_, ?_, ?_, ?_, ?_, ?_, ?_, ?_, ?_, ?_⟩, ⟨?_, ?_, ?_, ?_, ?_, ?_⟩, by decide⟩
  case refine_3 => rw [h4]; decide
  case refine_4 => intro w h; exact absurd h (by simp [s, inPhase])
  case refine_16 => intro _ n h; obtain rfl := Option.some_inj.mp (hn.symm.trans h); decide
  case refine_18 => intro h; exact absurd h (by decide)
  case refine_19 => intro h; exact absurd h (by decide)
  all_goals decide

theorem test_witness_StatusInvariantKept : StatusInv midByte ∧ StatusInv { State.reset with phase := .fault, cause := 2 } ∧
    (nextOf (step midByte)).isSome = true := by
  refine ⟨⟨?_, ?_, ?_, ?_⟩, ⟨?_, ?_, ?_, ?_⟩, ?_⟩ <;> decide

theorem test_witness_OutputInvariantKept : OutputInv midByte ∧
    OutputInv { State.reset with phase := .done, out := [0x53], outLen := 1 } ∧ (nextOf (step midByte)).isSome = true := by
  refine ⟨⟨?_, ?_, ?_⟩, ⟨?_, ?_, ?_⟩, ?_⟩ <;> decide

theorem test_witness_JobModeInvariantKept :
    JobModeInv { midByte with job := { midByte.job with mode := 0x2A } } ∧
    (nextOf (step { midByte with job := { midByte.job with mode := 0x2A } })).isSome = true := by
  refine ⟨⟨?_, ?_⟩, ?_⟩ <;> decide

theorem test_witness_MemoryInvariantKept : MemoryInv { midByte with host := [.putMask 1 1 4] , phase := .idle } ∧
    (nextOf (step { midByte with host := [.putMask 1 1 4], phase := .idle })).isSome = true := by
  refine ⟨⟨?_, ?_⟩, ?_⟩ <;> decide

theorem test_witness_OperationsKeepForeignState : (nextOf (exec .encodePixel midByte)).isSome = true ∧
    (∀ k v, Instr.encodePixel ≠ .wrreg k v) ∧ (∀ b, Instr.encodePixel ≠ .srst b) ∧ Instr.encodePixel ≠ .start := by
  refine ⟨by decide, ?_, ?_, ?_⟩ <;> simp

/-- P1's registers and image, before its START. -/
theorem test_witness_RunComputesConvert :
    ∃ s : State, s.phase ∈ [Phase.idle, .done, .fault] ∧ s.host = [] ∧ (nextOf (exec .start s)).isSome = true ∧
      s.cfg = 0x010A ∧ s.dimW = 2 ∧ s.dimH = 1 :=
  ⟨{ State.reset with cfg := 0x010A, dimW := 2, dimH := 1, src := [(0, 3), (4, 5)] }, by decide⟩

end Sys2Proof.Machine.Test
end

section
/-!
The invariants of the state chapter (10_state.md R22, R29, R30, R34, R35). First what the operations and the steps can do, one
inversion lemma each; then each invariant as a case analysis over those.
-/

namespace Sys2Proof.Machine

/-! ### What the steps of a conversion do when they answer a next state -/

theorem cursorCase_pixelLeft_iff (s : State) (hp : s.phase = .encode) :
    cursorCase s = .pixelLeft ↔ s.y < s.job.h.toNat ∧ s.x < s.job.w.toNat := by
  simp only [cursorCase, hp]
  split_ifs <;> simp_all

theorem cursorCase_rowDone_iff (s : State) (hp : s.phase = .encode) :
    cursorCase s = .rowDone ↔ s.y < s.job.h.toNat ∧ s.x = s.job.w.toNat := by
  simp only [cursorCase, hp]
  split_ifs <;> simp_all
  omega

theorem cursorCase_imageDone_iff (s : State) (hp : s.phase = .encode) :
    cursorCase s = .imageDone ↔ s.y = s.job.h.toNat := by
  simp only [cursorCase, hp]
  split_ifs <;> simp_all
  all_goals omega

theorem cursorCase_inputDone_iff (s : State) (hp : s.phase = .rle) :
    cursorCase s = .inputDone ↔ s.cur = s.buf.length := by
  simp only [cursorCase, hp]
  split_ifs <;> simp_all
  omega

theorem exec_check_next {s t : State} (h : exec .check s = .next t) :
    s.phase = .check ∧
      ((∃ c, checkJob s.params s.job = some c ∧ t = raise c s) ∨
        (checkJob s.params s.job = none ∧ t = { rowBeginState s with phase := .encode })) := by
  simp only [exec, execCheck] at h
  split at h
  · rename_i hp
    refine ⟨hp, ?_⟩
    split at h <;> rename_i hc <;> cases h
    · exact .inl ⟨_, hc, rfl⟩
    · exact .inr ⟨hc, rfl⟩
  · cases h

theorem exec_encodePixel_next {s t : State} (h : exec .encodePixel s = .next t) :
    s.phase = .encode ∧ s.y < s.job.h.toNat ∧ s.x < s.job.w.toNat ∧
      ((∃ bs, pixelAt s = .bytes bs ∧ t = { bufAppend bs s with x := s.x + 1 }) ∨
        (∃ v w, pixelAt s = .bits v w ∧ packAllowed s w = true ∧ t = { packedState v w s with x := s.x + 1 }) ∨
        (pixelAt s = .unsupported ∧ t = raise .unsupportedTargetMode s)) := by
  simp only [exec, execEncodePixel] at h
  split at h
  · rename_i hc
    obtain ⟨hp, hc⟩ := hc
    obtain ⟨hy, hx⟩ := (cursorCase_pixelLeft_iff s hp).mp hc
    refine ⟨hp, hy, hx, ?_⟩
    split at h
    · rename_i bs hpix
      cases h
      exact .inl ⟨bs, hpix, rfl⟩
    · rename_i v w hpix
      split at h
      · rename_i hw
        cases h
        exact .inr (.inl ⟨v, w, hpix, hw, rfl⟩)
      · cases h
    · rename_i hpix
      cases h
      exact .inr (.inr ⟨hpix, rfl⟩)
    · cases h
  · cases h

theorem exec_encodeRowend_next {s t : State} (h : exec .encodeRowend s = .next t) :
    s.phase = .encode ∧ s.y < s.job.h.toNat ∧ s.x = s.job.w.toNat ∧
      t = rowBeginState { flushRowState s with y := s.y + 1, x := 0 } := by
  simp only [exec, execEncodeRowend] at h
  split at h
  · rename_i hc
    obtain ⟨hp, hc⟩ := hc
    obtain ⟨hy, hx⟩ := (cursorCase_rowDone_iff s hp).mp hc
    cases h
    exact ⟨hp, hy, hx, rfl⟩
  · cases h

theorem exec_encodeEnd_next {s t : State} (h : exec .encodeEnd s = .next t) :
    s.phase = .encode ∧ s.y = s.job.h.toNat ∧
      ((s.job.rle = true ∧ t = { s with cur := 0, lit := [], pay := [], phase := .rle }) ∨
        (s.job.rle = false ∧ t = { s with pay := s.buf, phase := .emit })) := by
  simp only [exec, execEncodeEnd] at h
  split at h
  · rename_i hc
    obtain ⟨hp, hc⟩ := hc
    refine ⟨hp, (cursorCase_imageDone_iff s hp).mp hc, ?_⟩
    split at h <;> rename_i hr <;> cases h
    · exact .inl ⟨hr, rfl⟩
    · exact .inr ⟨by simpa using hr, rfl⟩
  · cases h

theorem exec_rleStep_next {s t : State} (h : exec .rleStep s = .next t) :
    s.phase = .rle ∧ ∃ v rest, s.buf.drop s.cur = v :: rest ∧
      ((2 ≤ runLength v rest ∧ t = takeRun v { s with runlen := runLength v rest }) ∨
        (runLength v rest = 1 ∧ t = takeLit v { s with runlen := runLength v rest })) := by
  simp only [exec, execRleStep] at h
  split at h
  · rename_i hp
    refine ⟨hp, ?_⟩
    split at h
    · cases h
    · rename_i v rest hd
      have hpos := (runLength_bounds v rest).1
      refine ⟨v, rest, hd, ?_⟩
      split at h <;> rename_i hr <;> cases h
      · exact .inl ⟨hr, rfl⟩
      · exact .inr ⟨by omega, rfl⟩
  · cases h

theorem exec_rleEnd_next {s t : State} (h : exec .rleEnd s = .next t) :
    s.phase = .rle ∧ s.cur = s.buf.length ∧
      t = { s with pay := s.pay ++ flushed s.lit, lit := [], phase := .emit } := by
  simp only [exec, execRleEnd] at h
  split at h
  · rename_i hc
    obtain ⟨hp, hc⟩ := hc
    refine ⟨hp, (cursorCase_inputDone_iff s hp).mp hc, ?_⟩
    cases h
    rcases hl : s.lit with _ | ⟨b, bs⟩ <;> simp [flushLit_eq, flushed, hl]
  · cases h

theorem exec_emit_next {s t : State} (h : exec .emit s = .next t) :
    s.phase = .emit ∧
      ((∃ c ∈ blockCauses, t = raise c s) ∨
        t = { s with
          out := memWrite (if s.job.hdrEn then memWrite s.out 0 (jobHeader s.job s.pay.length) else s.out)
            (payloadBase s.job) s.pay
          outLen := payloadBase s.job + s.pay.length, phase := .done }) := by
  simp only [exec, execEmit] at h
  split at h
  · rename_i hp
    refine ⟨hp, ?_⟩
    split at h
    · cases h
      exact .inl ⟨_, by decide, rfl⟩
    · split at h
      · cases h
        exact .inl ⟨_, by decide, rfl⟩
      · cases h
        exact .inr rfl
  · cases h

/-- The block's own steps are enabled in a busy phase only (45_sequencer.md R168). -/
theorem busy_of_exec_blockOps {i : Instr} {s t : State} (hi : i ∈ blockOps) (h : exec i s = .next t) :
    s.phase.busy = true := by
  simp only [blockOps, List.mem_cons, List.not_mem_nil, or_false] at hi
  rcases hi with rfl | rfl | rfl | rfl | rfl | rfl | rfl
  · simp [(exec_check_next h).1, Phase.busy]
  · simp [(exec_encodePixel_next h).1, Phase.busy]
  · simp [(exec_encodeRowend_next h).1, Phase.busy]
  · simp [(exec_encodeEnd_next h).1, Phase.busy]
  · simp [(exec_rleStep_next h).1, Phase.busy]
  · simp [(exec_rleEnd_next h).1, Phase.busy]
  · simp [(exec_emit_next h).1, Phase.busy]

/-! ### What an operation can do -/

/-- `t` is `s` but for the working registers, BUF, PAY, the returned value and PHASE. -/
structure WorksOnly (s t : State) : Prop where
  cause : t.cause = s.cause
  cfg : t.cfg = s.cfg
  srcDesc : t.srcDesc = s.srcDesc
  dimW : t.dimW = s.dimW
  dimH : t.dimH = s.dimH
  hdrAux : t.hdrAux = s.hdrAux
  outLen : t.outLen = s.outLen
  job : t.job = s.job
  out : t.out = s.out
  src : t.src = s.src
  mask : t.mask = s.mask
  host : t.host = s.host
  params : t.params = s.params

theorem worksOnly_withRet (r : Ret) (s : State) : WorksOnly s (withRet r s) := by constructor <;> rfl

theorem worksOnly_takeRun (v : Byte) (r : Nat) (s : State) : WorksOnly s (takeRun v { s with runlen := r }) := by
  rw [takeRun_eq]
  constructor <;> rfl

theorem worksOnly_takeLit (v : Byte) (r : Nat) (s : State) : WorksOnly s (takeLit v { s with runlen := r }) := by
  rw [takeLit_eq]
  split <;> constructor <;> rfl

@[simp] theorem takeRun_phase (v : Byte) (s : State) : (takeRun v s).phase = s.phase := by rw [takeRun_eq]

@[simp] theorem takeLit_phase (v : Byte) (s : State) : (takeLit v s).phase = s.phase := by
  rw [takeLit_eq]
  split <;> rfl

/-- Everything operation `i` can make of `s`, as far as the registers the host sees, OUT and the memories go. -/
inductive OpEffect (i : Instr) (s : State) : State → Prop
  /-- the working registers and buffers alone; PHASE stays or goes from one busy phase to another -/
  | worked {t : State} (frame : WorksOnly s t) (phase : t.phase = s.phase ∨ s.phase.busy = true ∧ t.phase.busy = true) :
      OpEffect i s t
  | raised (c : Cause) (known : c ∈ blockCauses) : OpEffect i s (raise c s)
  /-- HDR.WRITE invoked by name (log 23) -/
  | headed (bs : List Byte) (r : Ret) : OpEffect i s (withRet r { s with out := memWrite s.out 0 bs })
  /-- EMIT -/
  | emitted (out : List Byte) (outLen : Nat) (phase : s.phase = .emit) (fits : outLen ≤ out.length) :
      OpEffect i s { s with out := out, outLen := outLen, phase := .done }
  | reset (names : (∃ b, i = .srst b) ∨ ∃ v, i = .wrreg 0 v) : OpEffect i s (resetState s)
  | started (names : i = .start ∨ ∃ v, i = .wrreg 0 v) : OpEffect i s (startState s)
  | configured (names : ∃ k v, i = .wrreg k v) (c : Half) (d : BitVec 4) (w h a : Half) :
      OpEffect i s { s with cfg := c, srcDesc := d, dimW := w, dimH := h, hdrAux := a }

theorem opEffect_unchanged (i : Instr) (s : State) : OpEffect i s s :=
  .worked (by constructor <;> rfl) (.inl rfl)

theorem opEffect_withRet (i : Instr) (r : Ret) (s : State) : OpEffect i s (withRet r s) :=
  .worked (worksOnly_withRet r s) (.inl rfl)

theorem opEffect_writeRegister (k : Nat) (v : Word) (s : State) : OpEffect (.wrreg k v) s (writeRegister k v s) := by
  rcases writeRegister_cases k v s with e | ⟨rfl, e⟩ | ⟨rfl, e⟩ | ⟨-, -, c, d, w, h, a, e⟩ <;> rw [e]
  · exact opEffect_unchanged _ s
  · exact .reset (.inr ⟨v, rfl⟩)
  · exact .started (.inr ⟨v, rfl⟩)
  · exact .configured ⟨k, v, rfl⟩ c d w h a

/-- A written OUT holds what EMIT declares. -/
theorem emitted_fits (out pay : List Byte) (job : Job) :
    payloadBase job + pay.length ≤
      (memWrite (if job.hdrEn then memWrite out 0 (jobHeader job pay.length) else out) (payloadBase job) pay).length := by
  rw [memWrite_length]
  · exact le_max_right _ _
  · cases hh : job.hdrEn <;> simp [payloadBase, hh, hdrLen, jobHeader, memWrite_length]

theorem opEffect_of_blockOps {i : Instr} {s t : State} (hi : i ∈ blockOps) (h : exec i s = .next t) : OpEffect i s t := by
  simp only [blockOps, List.mem_cons, List.not_mem_nil, or_false] at hi
  rcases hi with rfl | rfl | rfl | rfl | rfl | rfl | rfl
  · obtain ⟨hp, ⟨c, hc, rfl⟩ | ⟨-, rfl⟩⟩ := exec_check_next h
    · refine .raised c ?_
      have := checkJob_some _ _ _ hc
      simp only [blockCauses, List.mem_cons, List.not_mem_nil, or_false] at this ⊢
      tauto
    · exact .worked (by constructor <;> rfl) (.inr ⟨by rw [hp]; rfl, rfl⟩)
  · obtain ⟨-, -, -, ⟨bs, -, rfl⟩ | ⟨v, w, -, -, rfl⟩ | ⟨-, rfl⟩⟩ := exec_encodePixel_next h
    · exact .worked (by constructor <;> rfl) (.inl rfl)
    · exact .worked (by constructor <;> rfl) (.inl rfl)
    · exact .raised _ (by decide)
  · obtain ⟨-, -, -, rfl⟩ := exec_encodeRowend_next h
    exact .worked (by constructor <;> rfl) (.inl rfl)
  · obtain ⟨hp, -, ⟨-, rfl⟩ | ⟨-, rfl⟩⟩ := exec_encodeEnd_next h
    all_goals exact .worked (by constructor <;> rfl) (.inr ⟨by rw [hp]; rfl, rfl⟩)
  · obtain ⟨-, v, rest, -, ⟨-, rfl⟩ | ⟨-, rfl⟩⟩ := exec_rleStep_next h
    · exact .worked (worksOnly_takeRun v _ s) (.inl (takeRun_phase v _))
    · exact .worked (worksOnly_takeLit v _ s) (.inl (takeLit_phase v _))
  · obtain ⟨hp, -, rfl⟩ := exec_rleEnd_next h
    exact .worked (by constructor <;> rfl) (.inr ⟨by rw [hp]; rfl, rfl⟩)
  · obtain ⟨hp, ⟨c, hc, rfl⟩ | rfl⟩ := exec_emit_next h
    · exact .raised c hc
    · exact .emitted _ _ hp (emitted_fits s.out s.pay s.job)

/-- Whatever operation runs, its next state is one of `OpEffect`. -/
theorem exec_effect {i : Instr} {s t : State} (h : exec i s = .next t) : OpEffect i s t := by
  cases i with
  | encAlpha8 | encArgb4444 | encArgb1555 | encRgba4444 | encRgba5551 | encAlpha4 | encAlpha2 | encAlpha1 =>
    obtain rfl := Host.Outcome.next.inj h
    exact .raised .unsupportedTargetMode (by decide)
  | encRgb565 | encArgb8888 | encAi44 | encRgba8888 | encI8 | encI4 | encI2 | encI1 | rdreg | modeDerive | premul
  | rleEncode =>
    obtain rfl := Host.Outcome.next.inj h
    exact opEffect_withRet _ _ s
  | check | encodePixel | encodeRowend | encodeEnd | rleStep | rleEnd | emit =>
    exact opEffect_of_blockOps (by decide) h
  | start =>
    obtain rfl := Host.Outcome.next.inj h
    exact .started (.inl rfl)
  | srst b =>
    obtain rfl := Host.Outcome.next.inj h
    exact .reset (.inl ⟨b, rfl⟩)
  | wrreg k v =>
    obtain rfl := Host.Outcome.next.inj h
    exact opEffect_writeRegister k v s
  | rowBegin | flushRow =>
    obtain rfl := Host.Outcome.next.inj h
    exact .worked (by constructor <;> rfl) (.inl rfl)
  | pack v w =>
    simp only [exec, execPack, packValue] at h
    split at h <;> cases h
    exact .worked (by constructor <;> rfl) (.inl rfl)
  | hdrWrite =>
    simp only [exec, execHdrWrite] at h
    split at h <;> cases h
    · exact .raised _ (by decide)
    · exact .headed _ _
  | resolve name =>
    simp only [exec, execResolve] at h
    split at h <;> cases h <;> exact opEffect_withRet _ _ s
  | rleRun n v =>
    simp only [exec, execRleRun] at h
    split at h <;> cases h
    exact .worked (worksOnly_takeRun v s.runlen s) (.inl (takeRun_phase v s))
  | rleFlush data =>
    simp only [exec, execRleFlush] at h
    split at h <;> cases h
    exact .worked (by constructor <;> rfl) (.inl rfl)
  | rleReserved80 => cases h
  | rleMeasure =>
    simp only [exec, execRleMeasure] at h
    split at h <;> cases h
    exact .worked (by constructor <;> rfl) (.inl rfl)
  | rleLit =>
    simp only [exec, execRleLit] at h
    split at h
    · cases h
    · rename_i v hv
      split at h <;> cases h
      exact .worked (worksOnly_takeLit v s.runlen s) (.inl (takeLit_phase v s))
  | rleBypass =>
    simp only [exec, execRleBypass] at h
    split at h <;> cases h
    exact .worked (by constructor <;> rfl) (.inl rfl)
  | rleDecode bs =>
    simp only [exec, execRleDecode] at h
    split at h <;> cases h
    exact opEffect_withRet _ _ s

/-- Settles O58: each of the things an operation can do, read off for the host's state, the configuration and JOB. -/
theorem operationsKeepForeignState : Obligations.OperationsKeepForeignState := by
  unfold Obligations.OperationsKeepForeignState
  intro i s t h
  cases exec_effect h with
  | worked frame => exact ⟨⟨frame.src, frame.mask, frame.params, frame.host⟩,
      fun _ _ => ⟨frame.cfg, frame.srcDesc, frame.dimW, frame.dimH, frame.hdrAux⟩, fun _ _ _ => frame.job⟩
  | raised | headed | emitted =>
    exact ⟨⟨rfl, rfl, rfl, rfl⟩, fun _ _ => ⟨rfl, rfl, rfl, rfl, rfl⟩, fun _ _ _ => rfl⟩
  | reset names =>
    refine ⟨⟨rfl, rfl, rfl, rfl⟩, fun hw hs => ?_, fun _ hw hs => ?_⟩
    · exact names.elim (fun ⟨b, e⟩ => absurd e (hs b)) (fun ⟨v, e⟩ => absurd e (hw 0 v))
    · exact names.elim (fun ⟨b, e⟩ => absurd e (hs b)) (fun ⟨v, e⟩ => absurd e (hw v))
  | started names =>
    rcases startState_cases s with ⟨-, e⟩ | ⟨-, e⟩ <;> rw [e]
    · exact ⟨⟨rfl, rfl, rfl, rfl⟩, fun _ _ => ⟨rfl, rfl, rfl, rfl, rfl⟩, fun _ _ _ => rfl⟩
    · exact ⟨⟨rfl, rfl, rfl, rfl⟩, fun _ _ => ⟨rfl, rfl, rfl, rfl, rfl⟩,
        fun hn hw _ => names.elim (fun e => absurd e hn) (fun ⟨v, e⟩ => absurd e (hw v))⟩
  | configured names =>
    obtain ⟨k, v, e⟩ := names
    exact ⟨⟨rfl, rfl, rfl, rfl⟩, fun hw _ => absurd e (hw k v), fun _ _ _ => rfl⟩

/-! ### What a step can do -/

/-- What the host does to the block by its own moves: the resets, START, and accesses that change no more than the configuration
registers, its own memories and the returned value. -/
inductive HostEffect (u : State) : State → Prop
  | reset : HostEffect u (resetState u)
  | started : HostEffect u (startState u)
  | accessed (c : Half) (d : BitVec 4) (w h a : Half) (src mask : List Host.Cell) (r : Ret) :
      HostEffect u
        { u with cfg := c, srcDesc := d, dimW := w, dimH := h, hdrAux := a, src := src, mask := mask, ret := r }

theorem hostEffect_unchanged (u : State) : HostEffect u u :=
  .accessed u.cfg u.srcDesc u.dimW u.dimH u.hdrAux u.src u.mask u.ret

theorem hostEffect_withRet (r : Ret) (u : State) : HostEffect u (withRet r u) :=
  .accessed u.cfg u.srcDesc u.dimW u.dimH u.hdrAux u.src u.mask r

theorem hostEffect_of_byRegister {i : Instr} {u t : State} (hi : byRegister i = true) (h : exec i u = .next t) :
    HostEffect u t := by
  cases i with
  | start =>
    obtain rfl := Host.Outcome.next.inj h
    exact .started
  | srst =>
    obtain rfl := Host.Outcome.next.inj h
    exact .reset
  | rdreg =>
    obtain rfl := Host.Outcome.next.inj h
    exact hostEffect_withRet _ u
  | wrreg k v =>
    obtain rfl := Host.Outcome.next.inj h
    rcases writeRegister_cases k v u with e | ⟨-, e⟩ | ⟨-, e⟩ | ⟨-, -, c, d, w, h, a, e⟩ <;> rw [e]
    · exact hostEffect_unchanged u
    · exact .reset
    · exact .started
    · exact .accessed c d w h a u.src u.mask u.ret
  | _ => cases hi

/-- A step is a step of the block, an operation the host names by its word, or a move of the host. -/
theorem step_cases {s t : State} (h : step s = .next t) :
    ∃ u, moveTaken s u ∧
      ((∃ i ∈ blockOps, exec i u = .next t) ∨
        (∃ w i, s.host = .op w :: u.host ∧ decode u.params w = .ok i ∧ exec i u = .next t) ∨
        HostEffect u t) := by
  obtain ⟨u, hu, hc⟩ := step_next_cases s t h
  refine ⟨u, hu, ?_⟩
  rcases hc with hb | hw | rfl | ⟨-, x, y, tok, rfl⟩ | ⟨-, x, y, a, rfl⟩ | ⟨r, rfl⟩ | rfl
  · exact .inl hb
  · exact .inr (.inl hw)
  · exact .inr (.inr (hostEffect_unchanged _))
  · exact .inr (.inr (.accessed u.cfg u.srcDesc u.dimW u.dimH u.hdrAux _ u.mask u.ret))
  · exact .inr (.inr (.accessed u.cfg u.srcDesc u.dimW u.dimH u.hdrAux u.src _ u.ret))
  · exact .inr (.inr (hostEffect_withRet r u))
  · exact .inr (.inr .reset)

/-- Under a host that makes only its own moves (45_sequencer.md R173) no operation of the block is named by its word. -/
theorem step_cases_of_architectural {s t : State} (hs : ∀ m ∈ s.host, m.architectural = true) (h : step s = .next t) :
    ∃ u, moveTaken s u ∧ ((∃ i ∈ blockOps, exec i u = .next t) ∨ HostEffect u t) := by
  obtain ⟨u, hu, hb | ⟨w, i, hw, hd, he⟩ | hh⟩ := step_cases h
  · exact ⟨u, hu, .inl hb⟩
  · have hi := decode_architectural _ _ _ (hs _ (hw ▸ List.mem_cons_self)) hd
    exact ⟨u, hu, .inr (hostEffect_of_byRegister hi he)⟩
  · exact ⟨u, hu, .inr hh⟩

/-- Whoever chooses it, a step runs one operation or is a move of the host. -/
theorem step_runs_or_hostEffect {s t : State} (h : step s = .next t) :
    ∃ u, moveTaken s u ∧ ((∃ i, exec i u = .next t) ∨ HostEffect u t) := by
  obtain ⟨u, hu, ⟨i, -, he⟩ | ⟨-, i, -, -, he⟩ | hh⟩ := step_cases h
  · exact ⟨u, hu, .inl ⟨i, he⟩⟩
  · exact ⟨u, hu, .inl ⟨i, he⟩⟩
  · exact ⟨u, hu, .inr hh⟩

/-- Taking a move off leaves a host that makes only its own moves. -/
theorem moveTaken.architectural {s u : State} (hu : moveTaken s u) (hs : ∀ m ∈ s.host, m.architectural = true) :
    ∀ m ∈ u.host, m.architectural = true := by
  obtain ⟨-, rfl⟩ | ⟨m, rest, hh, rfl⟩ := hu
  · exact hs
  · exact fun m' hm => hs m' (hh ▸ List.mem_cons_of_mem m hm)

/-! ### CAUSE and OUT_LEN (10_state.md R22, R29) -/

theorem StatusInv.of_moveTaken {s u : State} (hi : StatusInv s) (hu : moveTaken s u) : StatusInv u := by
  obtain ⟨-, rfl⟩ | ⟨m, rest, -, rfl⟩ := hu
  · exact hi
  · exact { hi with }

theorem statusInv_resetState (s : State) : StatusInv (resetState s) where
  causeZero _ := rfl
  causeKnown := nofun
  outLenZero _ := rfl
  outLenLe := le_rfl

theorem StatusInv.of_startState {s : State} (hi : StatusInv s) : StatusInv (startState s) := by
  rcases startState_cases s with ⟨-, e⟩ | ⟨-, e⟩ <;> rw [e]
  · exact hi
  · exact ⟨fun _ => rfl, nofun, fun _ => rfl, le_rfl⟩

theorem statusInv_raise (s : State) {c : Cause} (hc : c ∈ blockCauses) : StatusInv (raise c s) where
  causeZero h := absurd rfl h
  causeKnown _ := List.mem_map_of_mem hc
  outLenZero _ := rfl
  outLenLe := Nat.zero_le _

theorem Phase.ne_of_busy {p : Phase} (h : p.busy = true) : p ≠ .idle ∧ p ≠ .done ∧ p ≠ .fault := by
  cases p <;> simp_all [Phase.busy]

/-- Work in the registers no one sees keeps CAUSE and OUT_LEN right, as PHASE moves between busy phases only. -/
theorem StatusInv.of_worksOnly {s t : State} (hi : StatusInv s) (hf : WorksOnly s t)
    (hp : t.phase = s.phase ∨ s.phase.busy = true ∧ t.phase.busy = true) : StatusInv t := by
  obtain hp | ⟨hs, ht⟩ := hp
  · exact ⟨fun h => hf.cause ▸ hi.causeZero (hp ▸ h), fun h => hf.cause ▸ hf.params ▸ hi.causeKnown (hp ▸ h),
      fun h => hf.outLen ▸ hi.outLenZero (hp ▸ h), hf.outLen ▸ hf.out ▸ hi.outLenLe⟩
  · obtain ⟨-, hsd, hsf⟩ := Phase.ne_of_busy hs
    obtain ⟨-, -, htf⟩ := Phase.ne_of_busy ht
    exact ⟨fun _ => hf.cause ▸ hi.causeZero hsf, fun h => absurd h htf, fun _ => hf.outLen ▸ hi.outLenZero hsd,
      hf.outLen ▸ hf.out ▸ hi.outLenLe⟩

theorem StatusInv.of_exec {i : Instr} {s t : State} (hi : StatusInv s) (h : exec i s = .next t) : StatusInv t := by
  cases exec_effect h with
  | worked frame phase => exact hi.of_worksOnly frame phase
  | raised c known => exact statusInv_raise s known
  | headed bs r =>
    refine { hi with outLenLe := ?_ }
    have hlen := memWrite_length s.out 0 bs (Nat.zero_le _)
    exact hi.outLenLe.trans (hlen ▸ le_max_left _ _)
  | emitted out outLen phase fits =>
    exact ⟨fun _ => hi.causeZero (by simp [phase]), nofun, fun h => absurd rfl h, fits⟩
  | reset => exact statusInv_resetState s
  | started => exact hi.of_startState
  | configured => exact { hi with }

theorem StatusInv.of_hostEffect {u t : State} (hi : StatusInv u) (h : HostEffect u t) : StatusInv t := by
  cases h with
  | reset => exact statusInv_resetState u
  | started => exact hi.of_startState
  | accessed => exact { hi with }

/-- Settles O52: whatever a step runs keeps the invariant. -/
theorem statusInvariantKept : Obligations.StatusInvariantKept := by
  unfold Obligations.StatusInvariantKept
  intro s t hi h
  obtain ⟨u, hu, ⟨i, he⟩ | hh⟩ := step_runs_or_hostEffect h
  · exact (hi.of_moveTaken hu).of_exec he
  · exact (hi.of_moveTaken hu).of_hostEffect hh

/-! ### JOB.MODE (10_state.md R30) -/

theorem JobModeInv.of_moveTaken {s u : State} (hi : JobModeInv s) (hu : moveTaken s u) : JobModeInv u := by
  refine ⟨hu.architectural hi.hostMoves, ?_⟩
  obtain ⟨-, rfl⟩ | ⟨m, rest, -, rfl⟩ := hu <;> exact hi.modeDerived

/-- The block's own steps leave JOB, and run only when a START has written it. -/
theorem JobModeInv.of_blockOps {i : Instr} {s t : State} (hi : JobModeInv s) (hb : i ∈ blockOps)
    (h : exec i s = .next t) : JobModeInv t := by
  obtain ⟨⟨-, -, hparams, hhost⟩, -, hjob⟩ := operationsKeepForeignState i s t h
  have hnames : i ≠ .start ∧ (∀ v, i ≠ .wrreg 0 v) ∧ ∀ b, i ≠ .srst b := by
    refine ⟨?_, fun v => ?_, fun b => ?_⟩ <;> rintro rfl <;> simp [blockOps] at hb
  obtain ⟨hstart, hctrl, hsrst⟩ := hnames
  refine ⟨hhost ▸ hi.hostMoves, fun _ => ?_⟩
  rw [hjob hstart hctrl hsrst, hparams]
  exact hi.modeDerived (Phase.ne_of_busy (busy_of_exec_blockOps hb h)).1

theorem JobModeInv.of_hostEffect {u t : State} (hi : JobModeInv u) (h : HostEffect u t) : JobModeInv t := by
  cases h with
  | reset => exact ⟨hi.hostMoves, fun h => absurd rfl h⟩
  | started =>
    rcases startState_cases u with ⟨-, e⟩ | ⟨-, e⟩ <;> rw [e]
    · exact hi
    · exact ⟨hi.hostMoves, fun _ => rfl⟩
  | accessed => exact { hi with }

/-- Settles O54: START writes JOB.MODE as the mode value, and no step of the block writes JOB. -/
theorem jobModeInvariantKept : Obligations.JobModeInvariantKept := by
  unfold Obligations.JobModeInvariantKept
  intro s t hi h
  obtain ⟨u, hu, ⟨i, hb, he⟩ | hh⟩ := step_cases_of_architectural hi.hostMoves h
  · exact (hi.of_moveTaken hu).of_blockOps hb he
  · exact (hi.of_moveTaken hu).of_hostEffect hh

/-! ### The working registers (10_state.md R35) -/

theorem jobPackedWidth_of_bits {s : State} {v : Byte} {w : Nat} (h : pixelAt s = .bits v w) : jobPackedWidth s = some w :=
  (pixelOut_bits _ _ _ _ _ _ h).1

/-- A mode with no transform does not use the packer. -/
theorem jobPackedWidth_of_unsupported {s : State} (h : pixelAt s = .unsupported) : jobPackedWidth s = none := by
  unfold pixelAt pixelOut at h
  unfold jobPackedWidth
  cases hn : s.params.modeCode.nameOf s.job.fmt with
  | none => rfl
  | some n =>
    cases hs : n.supported
    · cases n <;> simp_all [FormatName.supported, FormatName.isDirect, FormatName.isIndexed, FormatName.packedWidth]
    · simp only [hn, hs, if_true] at h
      cases ht : srcRead s.job.layout s.job.idxAlpha s.src s.x s.y with
      | none => simp [ht] at h
      | some tok => cases tok <;> cases n <;> simp [ht, encodeDirect, encodeIndexed] at h

/-- PACK keeps BITS below 8 and a multiple of the width, and ACC below 2^BITS; BUF only grows. -/
theorem push_packer_bounds (v : Byte) (w : Nat) (k : Packer) (hw : k.bits + w ≤ 8) (hm : k.bits % w = 0)
    (ha : k.acc.toNat < 2 ^ k.bits) :
    (k.push v w).bits < 8 ∧ (k.push v w).bits % w = 0 ∧ (k.push v w).acc.toNat < 2 ^ (k.push v w).bits ∧
      k.buf.length ≤ (k.push v w).buf.length := by
  by_cases hf : k.bits + w = 8
  · rw [Packer.push_full _ _ _ hf]
    exact ⟨Nat.zero_lt_succ 7, Nat.zero_mod w, Nat.zero_lt_one, by simp⟩
  · rw [Packer.push_partial _ _ _ hf]
    exact ⟨by simp only; omega, by simp [hm], push_acc_lt _ _ _ _ hw ha, le_rfl⟩

/-- LIT stays the bytes before the cursor when the byte at the cursor joins it (43_rle.md R134). -/
theorem lit_append_byte {lit buf : List Byte} {cur : Nat} {v : Byte} (hl : lit = (buf.take cur).drop (cur - lit.length))
    (hc : cur ≤ buf.length) (hv : buf[cur]? = some v) :
    lit ++ [v] = (buf.take (cur + 1)).drop (cur + 1 - (lit ++ [v]).length) := by
  have htake : buf.take (cur + 1) = buf.take cur ++ [v] := by rw [List.take_add_one, hv, Option.toList_some]
  have hlen : cur + 1 - (lit ++ [v]).length = cur - lit.length := by simp
  rw [htake, hlen, List.drop_append_of_le_length (by simp [hc]), ← hl]

theorem WorkingInv.acc_eq_zero {s : State} (hi : WorkingInv s) (hb : s.bits = 0) : s.acc = 0 := by
  have := hi.accLt
  exact BitVec.eq_of_toNat_eq (by simp_all)

/-- A state with the packer and LIT empty needs only its cursors in range. -/
theorem workingInv_of_empty {s : State} (hostMoves : ∀ m ∈ s.host, m.architectural = true) (bits : s.bits = 0)
    (acc : s.acc = 0) (rowWidth : ∀ w, s.rowWidth = some w → jobPackedWidth s = some w) (lit : s.lit = [])
    (x : s.x ≤ s.job.w.toNat) (y : s.y ≤ s.job.h.toNat) (cur : s.cur ≤ s.buf.length) : WorkingInv s where
  hostMoves := hostMoves
  bitsLt := by simp [bits]
  bitsMod := by cases jobPackedWidth s <;> simp [bits]
  rowWidthJob := rowWidth
  accLt := by simp [bits, acc]
  litLen := by simp [lit]
  litEq := by simp [lit]
  xLe := x
  yLe := y
  curLe := cur
  packerEmpty _ := ⟨acc, bits⟩
  rowsDone _ := bits
  litEmpty _ := lit

theorem WorkingInv.of_moveTaken {s u : State} (hi : WorkingInv s) (hu : moveTaken s u) : WorkingInv u := by
  have hm := hu.architectural hi.hostMoves
  obtain ⟨-, rfl⟩ | ⟨m, rest, -, rfl⟩ := hu
  · exact hi
  · exact { hi with hostMoves := hm }

theorem WorkingInv.of_raise {s : State} (hi : WorkingInv s) (c : Cause) (hb : s.bits = 0) (hl : s.lit = []) :
    WorkingInv (raise c s) :=
  workingInv_of_empty hi.hostMoves hb (hi.acc_eq_zero hb) hi.rowWidthJob hl hi.xLe hi.yLe hi.curLe

theorem WorkingInv.of_check {s t : State} (hi : WorkingInv s) (h : exec .check s = .next t) : WorkingInv t := by
  obtain ⟨hp, ⟨c, -, rfl⟩ | ⟨-, rfl⟩⟩ := exec_check_next h
  · exact hi.of_raise c (hi.packerEmpty (by simp [hp])).2 (hi.litEmpty (by simp [hp]))
  · exact workingInv_of_empty hi.hostMoves rfl rfl (by simp) (hi.litEmpty (by simp [hp])) hi.xLe hi.yLe hi.curLe

theorem WorkingInv.of_encodePixel {s t : State} (hi : WorkingInv s) (h : exec .encodePixel s = .next t) :
    WorkingInv t := by
  obtain ⟨hp, hy, hx, hpixel⟩ := exec_encodePixel_next h
  have hlit : s.lit = [] := hi.litEmpty (by simp [hp])
  have hcur := hi.curLe
  obtain ⟨bs, -, rfl⟩ | ⟨v, w, hpix, hw, rfl⟩ | ⟨hpix, rfl⟩ := hpixel
  · exact { hi with
      litEq := by simp [hlit]
      xLe := hx
      curLe := by simp only [bufAppend_buf, bufAppend_cur, List.length_append]; omega }
  · have hjob := jobPackedWidth_of_bits hpix
    obtain ⟨-, hmod, hfit, -, -⟩ := (packAllowed_iff s w).mp hw
    obtain ⟨hlt, hmod', hacc, hbuf⟩ := push_packer_bounds v w (packerOf s) hfit hmod hi.accLt
    exact { hi with
      bitsLt := hlt
      bitsMod := by
        have hjob' : jobPackedWidth { packedState v w s with x := s.x + 1 } = some w := hjob
        rw [hjob']
        exact hmod'
      rowWidthJob := fun w' hw' => Option.some.inj hw' ▸ hjob
      accLt := hacc
      litEq := by simp [hlit]
      xLe := hx
      curLe := hcur.trans hbuf
      packerEmpty := fun hne => absurd hp hne
      rowsDone := fun hdone => absurd hdone hy.ne }
  · have hbits := hi.bitsMod
    rw [jobPackedWidth_of_unsupported hpix] at hbits
    exact hi.of_raise _ hbits hlit

theorem WorkingInv.of_encodeRowend {s t : State} (hi : WorkingInv s) (h : exec .encodeRowend s = .next t) :
    WorkingInv t := by
  obtain ⟨hp, hy, -, rfl⟩ := exec_encodeRowend_next h
  refine workingInv_of_empty hi.hostMoves rfl rfl (by simp) (hi.litEmpty (by simp [hp])) (Nat.zero_le _) hy ?_
  have hcur := hi.curLe
  simp only [rowBeginState_cur, flushRowState_cur, rowBeginState_buf, flushRowState_buf]
  split
  · simp only [List.length_append]
    omega
  · exact hcur

theorem WorkingInv.of_encodeEnd {s t : State} (hi : WorkingInv s) (h : exec .encodeEnd s = .next t) :
    WorkingInv t := by
  obtain ⟨hp, hy, ⟨-, rfl⟩ | ⟨-, rfl⟩⟩ := exec_encodeEnd_next h
  · have hb := hi.rowsDone hy
    exact workingInv_of_empty hi.hostMoves hb (hi.acc_eq_zero hb) hi.rowWidthJob rfl hi.xLe hi.yLe (Nat.zero_le _)
  · have hb := hi.rowsDone hy
    exact workingInv_of_empty hi.hostMoves hb (hi.acc_eq_zero hb) hi.rowWidthJob (hi.litEmpty (by simp [hp])) hi.xLe
      hi.yLe hi.curLe

theorem WorkingInv.of_rleStep {s t : State} (hi : WorkingInv s) (h : exec .rleStep s = .next t) : WorkingInv t := by
  obtain ⟨hp, v, rest, hd, hrun⟩ := exec_rleStep_next h
  obtain ⟨hacc, hbits⟩ := hi.packerEmpty (by simp [hp])
  have hleft : (v :: rest).length = s.buf.length - s.cur := hd ▸ List.length_drop
  have hrest := (runLength_bounds v rest).2.2
  have hcons : (v :: rest).length = rest.length + 1 := List.length_cons
  obtain ⟨-, rfl⟩ | ⟨-, rfl⟩ := hrun
  · rw [takeRun_eq]
    exact workingInv_of_empty hi.hostMoves hbits hacc hi.rowWidthJob rfl hi.xLe hi.yLe (by simp only; omega)
  · have hv : s.buf[s.cur]? = some v := by rw [← List.head?_drop, hd, List.head?_cons]
    have hlen := hi.litLen
    rw [takeLit_eq]
    split
    · exact workingInv_of_empty hi.hostMoves hbits hacc hi.rowWidthJob rfl hi.xLe hi.yLe (by simp only; omega)
    · rename_i hshort
      exact { hi with
        litLen := by simp only [List.length_append, List.length_singleton] at hshort ⊢; omega
        litEq := lit_append_byte hi.litEq hi.curLe hv
        curLe := by simp only; omega
        litEmpty := fun hne => absurd hp hne }

theorem WorkingInv.of_rleEnd {s t : State} (hi : WorkingInv s) (h : exec .rleEnd s = .next t) : WorkingInv t := by
  obtain ⟨hp, -, rfl⟩ := exec_rleEnd_next h
  obtain ⟨hacc, hbits⟩ := hi.packerEmpty (by simp [hp])
  exact workingInv_of_empty hi.hostMoves hbits hacc hi.rowWidthJob rfl hi.xLe hi.yLe hi.curLe

theorem WorkingInv.of_emit {s t : State} (hi : WorkingInv s) (h : exec .emit s = .next t) : WorkingInv t := by
  obtain ⟨hp, hc⟩ := exec_emit_next h
  obtain ⟨hacc, hbits⟩ := hi.packerEmpty (by simp [hp])
  have hlit := hi.litEmpty (by simp [hp])
  obtain ⟨c, -, rfl⟩ | rfl := hc
  · exact hi.of_raise c hbits hlit
  · exact workingInv_of_empty hi.hostMoves hbits hacc hi.rowWidthJob hlit hi.xLe hi.yLe hi.curLe

theorem WorkingInv.of_blockOps {i : Instr} {s t : State} (hi : WorkingInv s) (hb : i ∈ blockOps)
    (h : exec i s = .next t) : WorkingInv t := by
  simp only [blockOps, List.mem_cons, List.not_mem_nil, or_false] at hb
  rcases hb with rfl | rfl | rfl | rfl | rfl | rfl | rfl
  · exact hi.of_check h
  · exact hi.of_encodePixel h
  · exact hi.of_encodeRowend h
  · exact hi.of_encodeEnd h
  · exact hi.of_rleStep h
  · exact hi.of_rleEnd h
  · exact hi.of_emit h

theorem workingInv_resetState {s : State} (hs : ∀ m ∈ s.host, m.architectural = true) : WorkingInv (resetState s) :=
  workingInv_of_empty hs rfl rfl (by simp) rfl (Nat.zero_le _) (Nat.zero_le _) (Nat.zero_le _)

theorem WorkingInv.of_hostEffect {u t : State} (hi : WorkingInv u) (h : HostEffect u t) : WorkingInv t := by
  cases h with
  | reset => exact workingInv_resetState hi.hostMoves
  | started =>
    rcases startState_cases u with ⟨-, e⟩ | ⟨-, e⟩ <;> rw [e]
    · exact hi
    · exact workingInv_of_empty hi.hostMoves rfl rfl (by simp) rfl (Nat.zero_le _) (Nat.zero_le _) (Nat.zero_le _)
  | accessed => exact { hi with }

/-- Settles O51: each of the block's seven steps keeps the invariant, and so do the host's moves. -/
theorem workingInvariantKept : Obligations.WorkingInvariantKept := by
  unfold Obligations.WorkingInvariantKept
  intro s t hi h
  obtain ⟨u, hu, ⟨i, hb, he⟩ | hh⟩ := step_cases_of_architectural hi.hostMoves h
  · exact (hi.of_moveTaken hu).of_blockOps hb he
  · exact (hi.of_moveTaken hu).of_hostEffect hh

/-! ### Reset (10_state.md R34) -/

theorem noMoves_reset : ∀ m ∈ State.reset.host, m.architectural = true := by simp [State.reset]

theorem bufferInv_reset : BufferInv State.reset := by constructor <;> simp

/-- Settles O56: the reset state is the reset of itself, and in IDLE with everything empty the rest is immediate. -/
theorem invariantsHoldAtReset : Obligations.InvariantsHoldAtReset := by
  unfold Obligations.InvariantsHoldAtReset
  refine ⟨workingInv_resetState noMoves_reset, statusInv_resetState State.reset, ?_, ?_, ?_, bufferInv_reset⟩
  · exact ⟨noMoves_reset, fun _ => ⟨rfl, rfl⟩, nofun⟩
  · exact ⟨noMoves_reset, fun h => absurd rfl h⟩
  · exact ⟨reset_memories_wf.1, reset_memories_wf.2⟩

end Sys2Proof.Machine
end

section
/-!
The memories (20_memory.md): the host's SRC and MASK and the windows in which it has them (R41, R42, R49, R55), the place of a
pixel in a packed row (R45), the length of a row and of BUF (R50, R51).
-/

namespace Sys2Proof.Machine

/-! ### SRC and MASK stay in canonical form (log 3) -/

theorem MemoryInv.of_moveTaken {s u : State} (hi : MemoryInv s) (hu : moveTaken s u) : MemoryInv u := by
  obtain ⟨-, rfl⟩ | ⟨m, rest, -, rfl⟩ := hu
  · exact hi
  · exact { hi with }

/-- No operation writes the host's memories (60_exceptions.md R192). -/
theorem MemoryInv.of_exec {i : Instr} {s t : State} (hi : MemoryInv s) (h : exec i s = .next t) : MemoryInv t := by
  obtain ⟨⟨hsrc, hmask, -, -⟩, -, -⟩ := operationsKeepForeignState i s t h
  exact ⟨hsrc ▸ hi.src, hmask ▸ hi.mask⟩

/-- Settles O55: only the host's own writes touch SRC and MASK, and `Memory.write` keeps the form. -/
theorem memoryInvariantKept : Obligations.MemoryInvariantKept := by
  unfold Obligations.MemoryInvariantKept
  intro s t hs h
  obtain ⟨u, hu, hc⟩ := step_next_cases s t h
  have hi := hs.of_moveTaken hu
  rcases hc with ⟨i, -, he⟩ | ⟨-, i, -, -, he⟩ | rfl | ⟨-, x, y, tok, rfl⟩ | ⟨-, x, y, a, rfl⟩ | ⟨r, rfl⟩ | rfl
  · exact hi.of_exec he
  · exact hi.of_exec he
  · exact hi
  · exact { hi with src := supplyToken_wf _ _ _ tok hi.src }
  · exact { hi with mask := write_wf _ _ a hi.mask }
  · exact { hi with }
  · exact { hi with }

/-! ### A move of the host -/

/-- A step of a host that has a move left is that move. -/
theorem step_move {s : State} {m : HostMove} {rest : List HostMove} (h : s.host = m :: rest) :
    step s = runFetched (fetchMove m { s with host := rest }) := by
  simp only [step_eq, fetch, h]

theorem runFetched_whenNotBusy_of_busy {s : State} (o : Out) (h : s.phase.busy = true) :
    runFetched (whenNotBusy s o) = .refused .hostAccessWhileBusy := by
  simp [whenNotBusy, runFetched, h]

theorem runFetched_whenNotBusy_of_not_busy {s : State} (o : Out) (h : s.phase.busy = false) :
    runFetched (whenNotBusy s o) = o := by
  simp [whenNotBusy, runFetched, h]

theorem hostReadOut_of_lt {s : State} {addr : Nat} {b : Byte} (h : addr < s.outLen) (hb : s.out[addr]? = some b) :
    hostReadOut addr s = .next (withRet (.byte b) s) := by
  simp [hostReadOut, h, hb]

theorem hostReadOut_of_ge {s : State} {addr : Nat} (h : s.outLen ≤ addr) :
    hostReadOut addr s = .fault .outBeyondLength := by
  simp [hostReadOut, Nat.not_lt.mpr h]

/-- Settles O41: BUSY decides for the writes and the reads of OUT, and the reads of SRC and MASK do not ask for it. -/
theorem hostAccessWindows : Obligations.HostAccessWindows := by
  unfold Obligations.HostAccessWindows
  intro s x y tok a addr rest
  refine ⟨fun hp hm => ?_, fun hp hm => ⟨fun b hlt hb => ?_, fun hge => ?_⟩, fun hm => ?_, fun hm => ?_⟩
  · have hbusy := (Phase.busy_iff _).mpr hp
    rcases hm with hm | hm | hm <;> rw [step_move hm]
    all_goals exact runFetched_whenNotBusy_of_busy _ hbusy
  · rw [step_move hm]
    exact (runFetched_whenNotBusy_of_not_busy _ ((Phase.not_busy_iff _).mpr hp)).trans (hostReadOut_of_lt hlt hb)
  · rw [step_move hm]
    exact (runFetched_whenNotBusy_of_not_busy _ ((Phase.not_busy_iff _).mpr hp)).trans (hostReadOut_of_ge hge)
  · rw [step_move hm]
    rfl
  · rw [step_move hm]
    rfl

/-! ### What the host supplies (20_memory.md R41, R42) -/

theorem maskByte_write_same (m : List Host.Cell) (x y : Nat) (a : Byte) :
    maskByte (Memory.write m (maskAddr x y) a) x y = a := by
  simp [maskByte]

theorem maskByte_write_other (m : List Host.Cell) (a : Byte) {x y x' y' : Half} (h : (x', y') ≠ (x, y)) :
    maskByte (Memory.write m (maskAddr x.toNat y.toNat) a) x'.toNat y'.toNat = maskByte m x'.toNat y'.toNat := by
  have hne : maskAddr x'.toNat y'.toNat ≠ maskAddr x.toNat y.toNat := fun e =>
    h (Prod.ext_iff.mpr (maskAddr_inj _ _ _ _ e))
  simp only [maskByte, lookup_write_other _ _ _ _ hne]

/-- The four bytes of a place of SRC are no other place's. -/
theorem srcAddr_ne {x y x' y' : Half} {c c' : Nat} (h : (x', y') ≠ (x, y)) (hc : c < 4) (hc' : c' < 4) :
    srcAddr x'.toNat y'.toNat c' ≠ srcAddr x.toNat y.toNat c := by
  have hne : maskAddr x'.toNat y'.toNat ≠ maskAddr x.toNat y.toNat := fun e =>
    h (Prod.ext_iff.mpr (maskAddr_inj _ _ _ _ e))
  simp only [srcAddr]
  omega

theorem srcByte_write_same (m : List Host.Cell) (x y c : Nat) (b : Byte) :
    srcByte (Memory.write m (srcAddr x y c) b) x y c = b := by
  simp [srcByte]

theorem srcByte_write_other (m : List Host.Cell) (addr : Nat) (b : Byte) {x y c : Nat} (h : srcAddr x y c ≠ addr) :
    srcByte (Memory.write m addr b) x y c = srcByte m x y c := by
  simp only [srcByte, lookup_write_other _ _ _ _ h]

theorem srcByte_write_channel (m : List Host.Cell) (x y : Nat) (b : Byte) {c c' : Nat} (h : c' ≠ c) :
    srcByte (Memory.write m (srcAddr x y c) b) x y c' = srcByte m x y c' :=
  srcByte_write_other m _ b (by simp only [srcAddr]; omega)

theorem srcByte_supplyToken_other (m : List Host.Cell) (tok : Token) {x y x' y' : Half} (h : (x', y') ≠ (x, y))
    {c : Nat} (hc : c < 4) :
    srcByte (supplyToken m x.toNat y.toNat tok) x'.toNat y'.toNat c = srcByte m x'.toNat y'.toNat c := by
  have hne : ∀ k < 4, srcAddr x'.toNat y'.toNat c ≠ srcAddr x.toNat y.toNat k := fun k hk => srcAddr_ne h hk hc
  obtain t | ⟨index, _ | a⟩ := tok <;> simp [supplyToken, srcByte_write_other, hne]

/-- SrcRead looks at the four bytes of its place only. -/
theorem srcRead_congr (layout : Layout) (idxAlpha : Bool) {src src' : List Host.Cell} {x y : Nat}
    (h : ∀ c < 4, srcByte src x y c = srcByte src' x y c) :
    srcRead layout idxAlpha src x y = srcRead layout idxAlpha src' x y := by
  cases layout <;> simp [srcRead, h]

theorem srcRead_supplyToken_direct (m : List Host.Cell) (x y : Nat) (t : Direct) :
    srcRead .rgba false (supplyToken m x y (.direct t)) x y = some (.direct t) ∧
      srcRead .rgb false (supplyToken m x y (.direct t)) x y = some (.direct { t with a := 255 }) := by
  simp [srcRead, supplyToken, srcByte_write_same, srcByte_write_channel]

theorem srcRead_supplyToken_indexed (m : List Host.Cell) (x y : Nat) (t : Indexed) :
    srcRead .indexed t.alpha.isSome (supplyToken m x y (.indexed t)) x y = some (.indexed t) := by
  obtain ⟨index, _ | a⟩ := t <;> simp [srcRead, supplyToken, srcByte_write_same, srcByte_write_channel]

/-- Settles O40: the move stores the byte or the token, and no two places share an address. -/
theorem hostSuppliesSources : Obligations.HostSuppliesSources := by
  unfold Obligations.HostSuppliesSources
  intro s x y rest hp
  have hidle := (Phase.not_busy_iff _).mpr hp
  refine ⟨fun a hm => ⟨_, ?_, maskByte_write_same s.mask _ _ a, fun x' y' hne => maskByte_write_other s.mask a hne⟩,
    fun tok hm => ⟨supplyToken s.src x.toNat y.toNat tok, ?_, ?_, fun x' y' layout idxAlpha hne => ?_⟩⟩
  · rw [step_move hm]
    exact runFetched_whenNotBusy_of_not_busy _ hidle
  · rw [step_move hm]
    exact runFetched_whenNotBusy_of_not_busy _ hidle
  · cases tok with
    | direct t => exact srcRead_supplyToken_direct s.src _ _ t
    | indexed t => exact srcRead_supplyToken_indexed s.src _ _ t
  · exact srcRead_congr layout idxAlpha fun c hc => srcByte_supplyToken_other s.src tok hne hc

/-! ### The place of a pixel in a packed row (20_memory.md R45) -/

/-- Bit `p` of a byte list, least significant bit of the first byte first, 0 beyond its end. -/
def bitOf (bytes : List Byte) (p : Nat) : Bool := (bytes[p / 8]?.getD 0).getLsbD (p % 8)

theorem bitOf_of_getElem? {bytes : List Byte} {j i : Nat} {byte : Byte} (h : bytes[j]? = some byte) (hi : i < 8) :
    bitOf bytes (8 * j + i) = byte.getLsbD i := by
  rw [bitOf, show (8 * j + i) / 8 = j by omega, show (8 * j + i) % 8 = i by omega, h, Option.getD_some]

theorem bitOf_of_ge {bytes : List Byte} {p : Nat} (h : bytes.length ≤ p / 8) : bitOf bytes p = false := by
  simp [bitOf, List.getElem?_eq_none h]

theorem bitOf_append_left {bytes : List Byte} (more : List Byte) {p : Nat} (h : p / 8 < bytes.length) :
    bitOf (bytes ++ more) p = bitOf bytes p := by
  rw [bitOf, List.getElem?_append_left h, bitOf]

theorem bitOf_concat_last {bytes : List Byte} (b : Byte) {p : Nat} (h : p / 8 = bytes.length) :
    bitOf (bytes ++ [b]) p = b.getLsbD (p % 8) := by
  rw [bitOf, h, List.getElem?_concat_length, Option.getD_some]

theorem bitOf_concat_zero (bytes : List Byte) (p : Nat) : bitOf (bytes ++ [0]) p = bitOf bytes p := by
  rcases lt_trichotomy (p / 8) bytes.length with h | h | h
  · exact bitOf_append_left _ h
  · rw [bitOf_concat_last 0 h, bitOf_of_ge h.ge]
    exact BitVec.getLsbD_zero
  · rw [bitOf_of_ge (by simpa using h), bitOf_of_ge h.le]

/-- The bytes handed over and the accumulator after them. -/
def Packer.bytes (k : Packer) : List Byte := k.buf ++ [k.acc]

theorem getLsbD_maskLow (v : Byte) (w i : Nat) : (maskLow v w).getLsbD i = (decide (i < 8 ∧ i < w) && v.getLsbD i) := by
  rw [maskLow, BitVec.getLsbD_and, BitVec.getLsbD_ofNat, Nat.testBit_two_pow_sub_one, Bool.decide_and, Bool.and_comm]

/-- The accumulator after a value, bit by bit (42_bit_pack.md R121). -/
theorem getLsbD_or_maskLow_shiftLeft (acc v : Byte) {bits w : Nat} (hw : bits + w ≤ 8) (j : Nat) :
    (acc ||| (maskLow v w <<< bits)).getLsbD j =
      (acc.getLsbD j || (decide (bits ≤ j ∧ j < bits + w) && v.getLsbD (j - bits))) := by
  rw [BitVec.getLsbD_or, BitVec.getLsbD_shiftLeft, getLsbD_maskLow, ← Bool.and_assoc]
  congr 2
  rw [Bool.eq_iff_iff]
  simp only [Bool.and_eq_true, Bool.not_eq_true', decide_eq_true_eq, decide_eq_false_iff_not]
  omega

/-- A byte handed over stays where it stood as the accumulator, and the accumulator after it is 0. -/
theorem bitOf_bytes_push (v : Byte) (w : Nat) (k : Packer) (p : Nat) :
    bitOf (k.push v w).bytes p = bitOf (k.buf ++ [k.acc ||| (maskLow v w <<< k.bits)]) p := by
  by_cases hf : k.bits + w = 8
  · rw [Packer.push_full _ _ _ hf]
    exact bitOf_concat_zero _ p
  · rw [Packer.push_partial _ _ _ hf]
    rfl

/-- PACK sets the `w` bits after the filled ones and no other (42_bit_pack.md R121). -/
theorem bitOf_bytes_push_eq_or (v : Byte) {w : Nat} {k : Packer} (hw : 0 < w) (hfit : k.bits + w ≤ 8) (p : Nat) :
    bitOf (k.push v w).bytes p =
      (bitOf k.bytes p || (decide (8 * k.buf.length + k.bits ≤ p ∧ p < 8 * k.buf.length + k.bits + w) &&
        v.getLsbD (p - (8 * k.buf.length + k.bits)))) := by
  rw [bitOf_bytes_push, Packer.bytes]
  rcases lt_trichotomy (p / 8) k.buf.length with h | h | h
  · rw [bitOf_append_left _ h, bitOf_append_left _ h, decide_eq_false (by omega), Bool.false_and, Bool.or_false]
  · have hsub : p - (8 * k.buf.length + k.bits) = p % 8 - k.bits := by omega
    have hrange : (8 * k.buf.length + k.bits ≤ p ∧ p < 8 * k.buf.length + k.bits + w) ↔
        k.bits ≤ p % 8 ∧ p % 8 < k.bits + w := by omega
    rw [bitOf_concat_last _ h, bitOf_concat_last _ h, getLsbD_or_maskLow_shiftLeft _ _ hfit, hsub, decide_eq_decide.mpr hrange]
  · rw [bitOf_of_ge (by simpa using h), bitOf_of_ge (by simpa using h), decide_eq_false (by omega), Bool.false_and,
      Bool.or_false]

/-- How many bits PACK adds, in BUF or in the accumulator (42_bit_pack.md R124). -/
theorem Packer.push_filled (v : Byte) (w : Nat) (k : Packer) :
    8 * (k.push v w).buf.length + (k.push v w).bits = 8 * k.buf.length + k.bits + w := by
  by_cases hf : k.bits + w = 8
  · rw [Packer.push_full _ _ _ hf]
    simp only [List.length_append, List.length_singleton]
    omega
  · rw [Packer.push_partial _ _ _ hf, Nat.add_assoc]

/-- FLUSH_ROW fills the last byte up (42_bit_pack.md R122, R124). -/
theorem Packer.length_flush {k : Packer} (h : k.bits < 8) :
    k.flush.buf.length = (8 * k.buf.length + k.bits + 7) / 8 := by
  simp only [Packer.flush]
  split
  · rw [List.length_append, List.length_singleton]
    omega
  · omega

/-- FLUSH_ROW takes the bytes as they stand (42_bit_pack.md R122). -/
theorem Packer.flush_prefix (k : Packer) : k.flush.buf <+: k.bytes := by
  simp only [Packer.flush, Packer.bytes]
  split
  · exact List.prefix_rfl
  · exact List.prefix_append _ _

theorem Packer.getLsbD_flush {k : Packer} {j i : Nat} {byte : Byte} (h : k.flush.buf[j]? = some byte) (hi : i < 8) :
    byte.getLsbD i = bitOf k.bytes (8 * j + i) := by
  obtain ⟨more, hmore⟩ := k.flush_prefix
  have hj : j < k.flush.buf.length := (List.getElem?_eq_some_iff.mp h).1
  rw [← hmore, bitOf_append_left more (by omega), bitOf_of_getElem? h hi]

/-- A row under way: `values` packed with `w` bits each after the first `start` bytes of BUF. -/
structure RowPacked (start w : Nat) (values : List Byte) (k : Packer) : Prop where
  filled : 8 * k.buf.length + k.bits = 8 * start + values.length * w
  bitsLt : k.bits < 8
  placed : ∀ i, bitOf k.bytes (8 * start + i) = (values[i / w]?.getD 0).getLsbD (i % w)

theorem rowPacked_rowBegin (w : Nat) (k : Packer) : RowPacked k.buf.length w [] k.rowBegin where
  filled := by simp [Packer.rowBegin]
  bitsLt := Nat.zero_lt_succ 7
  placed i := by
    have hempty : bitOf k.buf (8 * k.buf.length + i) = false := bitOf_of_ge (by omega)
    exact (bitOf_concat_zero k.buf _).trans (hempty.trans (by simp))

theorem RowPacked.push {start w : Nat} {values : List Byte} {k : Packer} (hi : RowPacked start w values k) (hw : 0 < w)
    (hfit : k.bits + w ≤ 8) (v : Byte) : RowPacked start w (values ++ [v]) (k.push v w) where
  filled := by
    rw [Packer.push_filled, hi.filled, List.length_append, List.length_singleton, Nat.add_mul, Nat.one_mul, Nat.add_assoc]
  bitsLt := by
    by_cases hf : k.bits + w = 8
    · rw [Packer.push_full _ _ _ hf]
      exact Nat.zero_lt_succ 7
    · rw [Packer.push_partial _ _ _ hf]
      exact lt_of_le_of_ne hfit hf
  placed i := by
    have hsub : 8 * start + i - (8 * start + values.length * w) = i - values.length * w := by omega
    have hrange : (8 * start + values.length * w ≤ 8 * start + i ∧
        8 * start + i < 8 * start + values.length * w + w) ↔ i / w = values.length := by
      rw [Nat.div_eq_iff hw]
      omega
    rw [bitOf_bytes_push_eq_or v hw hfit, hi.placed, hi.filled, hsub, decide_eq_decide.mpr hrange]
    rcases lt_trichotomy (i / w) values.length with h | h | h
    · rw [decide_eq_false h.ne, List.getElem?_append_left h, Bool.false_and, Bool.or_false]
    · have hmod : i - values.length * w = i % w := by
        rw [← h, Nat.mul_comm, ← Nat.mod_eq_sub]
      simp [h, hmod]
    · rw [decide_eq_false h.ne', List.getElem?_eq_none h.le, List.getElem?_eq_none (by simpa using h), Bool.false_and,
        Bool.or_false]

/-- Operations run one after the other answer when the first does and the others do from there. -/
theorem execAll_cons_next {i : Instr} {is : List Instr} {s t : State} (h : execAll (i :: is) s = .next t) :
    ∃ u, exec i s = .next u ∧ execAll is u = .next t := by
  rw [execAll] at h
  split at h
  · exact ⟨_, ‹_›, h⟩
  · cases h
  · cases h

theorem exec_pack_next {v : Byte} {w : Nat} {s t : State} (h : exec (.pack v w) s = .next t) :
    packAllowed s w = true ∧ t = packedState v w s := by
  simp only [exec, execPack, packValue] at h
  split at h <;> cases h
  exact ⟨‹_›, rfl⟩

/-- The PACK calls that answer are the further pixels of the row, and FLUSH_ROW hands over what is left. -/
theorem RowPacked.of_execAll {start w : Nat} (hw : 0 < w) {values : List Byte} {t : State} :
    ∀ {packed : List Byte} {s : State}, RowPacked start w packed (packerOf s) →
      execAll (values.map (fun v => .pack v w) ++ [.flushRow]) s = .next t →
      ∃ k, RowPacked start w (packed ++ values) k ∧ t.buf = k.flush.buf := by
  induction values with
  | nil =>
    intro packed s hi h
    obtain rfl := Host.Outcome.next.inj h
    exact ⟨packerOf s, (List.append_nil packed).symm ▸ hi, rfl⟩
  | cons v values ih =>
    intro packed s hi h
    obtain ⟨u, hu, ht⟩ := execAll_cons_next h
    obtain ⟨hallowed, rfl⟩ := exec_pack_next hu
    obtain ⟨-, -, hfit, -, -⟩ := (packAllowed_iff s w).mp hallowed
    simpa using ih (hi.push hw hfit v) ht

/-- The `w` bits of column `x` lie in one byte when `w` divides 8 (20_memory.md R45). -/
theorem pixelPosition_eq {w b : Nat} (x : Nat) (hw : w ∈ [1, 2, 4, 8]) (hb : b < w) :
    x % (8 / w) * w + b < 8 ∧ 8 * (x * w / 8) + (x % (8 / w) * w + b) = x * w + b := by
  simp only [List.mem_cons, List.not_mem_nil, or_false] at hw
  rcases hw with rfl | rfl | rfl | rfl <;> norm_num <;> omega

/-- Settles O20: bit `i` of the row is bit `i mod w` of pixel `i / w`, from ROW_BEGIN on and through every PACK; FLUSH_ROW hands
the bytes over as they stand. -/
theorem packedPixelPosition : Obligations.PackedPixelPosition := by
  unfold Obligations.PackedPixelPosition
  intro s t values w hwidth _ h
  have hw : 0 < w := Nat.pos_of_ne_zero (by rintro rfl; simp at hwidth)
  obtain ⟨u, hu, ht⟩ := execAll_cons_next h
  obtain rfl := Host.Outcome.next.inj hu
  obtain ⟨k, hrow, hbuf⟩ := (rowPacked_rowBegin w (packerOf s)).of_execAll hw ht
  rw [List.nil_append] at hrow
  rw [hbuf]
  refine ⟨fun x b hx hb => ?_, fun j i byte hi hbeyond hbyte => ?_⟩
  · obtain ⟨hlt, hpos⟩ := pixelPosition_eq x hwidth hb
    have hj : s.buf.length + x * w / 8 < k.flush.buf.length := by
      have hfilled := hrow.filled
      have hpixel : (x + 1) * w ≤ values.length * w := Nat.mul_le_mul_right w hx
      rw [Packer.length_flush hrow.bitsLt]
      simp only [packerOf, Nat.add_mul] at hfilled hpixel
      omega
    refine ⟨values[x], _, List.getElem?_eq_getElem hx, List.getElem?_eq_getElem hj, ?_⟩
    have hdiv : (x * w + b) / w = x := by rw [Nat.mul_comm, Nat.mul_add_div hw, Nat.div_eq_of_lt hb, Nat.add_zero]
    have hmod : (x * w + b) % w = b := by rw [Nat.mul_comm, Nat.mul_add_mod, Nat.mod_eq_of_lt hb]
    rw [Packer.getLsbD_flush (List.getElem?_eq_getElem hj) hlt, Nat.mul_add, Nat.add_assoc, hpos]
    refine (hrow.placed _).trans ?_
    rw [hdiv, hmod, List.getElem?_eq_getElem hx, Option.getD_some]
  · rw [Packer.getLsbD_flush hbyte hi, Nat.mul_add, Nat.add_assoc]
    refine (hrow.placed _).trans ?_
    have : values.length ≤ (8 * j + i) / w := (Nat.le_div_iff_mul_le hw).mpr hbeyond
    simp [List.getElem?_eq_none this]

/-! ### The length of a row and of BUF (20_memory.md R50, R51) -/

/-- Every mode's row is its pixels' bits, rounded up to a byte (20_memory.md R50). -/
theorem rowBytes_eq (n : FormatName) (width : Nat) : n.rowBytes width = (width * n.pixelBits + 7) / 8 := by
  cases n <;> simp only [FormatName.rowBytes, FormatName.pixelBits] <;> omega

/-- `t` is `s` after one pixel of mode `n`: its bits stand in BUF or in the accumulator. -/
structure PixelTaken (n : FormatName) (s t : State) : Prop where
  phase : t.phase = s.phase
  job : t.job = s.job
  params : t.params = s.params
  host : t.host = s.host
  y : t.y = s.y
  x : t.x = s.x + 1
  buf : s.buf <+: t.buf
  filled : 8 * t.buf.length + t.bits = 8 * s.buf.length + s.bits + n.pixelBits

theorem Packer.push_buf_prefix (v : Byte) (w : Nat) (k : Packer) : k.buf <+: (k.push v w).buf := by
  by_cases hf : k.bits + w = 8
  · rw [Packer.push_full _ _ _ hf]
    exact List.prefix_append _ _
  · rw [Packer.push_partial _ _ _ hf]

/-- In a job that passes CHECK every pixel has its transform (41_pixel_encode.md R114). -/
theorem pixelAt_of_checked {s : State} (hc : checkJob s.params s.job = none) :
    (∃ bs, pixelAt s = .bytes bs) ∨ ∃ v w, pixelAt s = .bits v w :=
  pixelOut_of_checked s.params s.job s.src s.x s.y _ hc

/-- What ENCODE.PIXEL does in such a job (45_sequencer.md R164). -/
theorem pixelTaken_of_exec {n : FormatName} {s t : State} (hc : checkJob s.params s.job = none)
    (hn : s.params.modeCode.nameOf s.job.fmt = some n) (h : exec .encodePixel s = .next t) : PixelTaken n s t := by
  obtain ⟨-, -, -, ⟨bs, hpix, rfl⟩ | ⟨v, w, hpix, -, rfl⟩ | ⟨hpix, -⟩⟩ := exec_encodePixel_next h
  · obtain ⟨n', hn', -, hlen⟩ := pixelOut_bytes _ _ _ _ _ hpix
    obtain rfl := Option.some.inj (hn.symm.trans hn')
    refine ⟨rfl, rfl, rfl, rfl, rfl, rfl, List.prefix_append _ _, ?_⟩
    simp only [bufAppend_buf, bufAppend_bits, List.length_append]
    omega
  · have hw := jobPackedWidth_of_bits hpix
    rw [jobPackedWidth, hn, Option.bind_some] at hw
    refine ⟨rfl, rfl, rfl, rfl, rfl, rfl, Packer.push_buf_prefix v w (packerOf s), ?_⟩
    rw [(n.packedWidth_eq w hw).1]
    exact Packer.push_filled v w (packerOf s)
  · rcases pixelAt_of_checked hc with ⟨bs, hb⟩ | ⟨v, w, hb⟩ <;> simp [hpix] at hb

theorem flushRowState_buf_length {s : State} (h : s.bits < 8) :
    (flushRowState s).buf.length = (8 * s.buf.length + s.bits + 7) / 8 :=
  Packer.length_flush (k := packerOf s) h

/-! ### The invariant of BUF -/

/-- Where no conversion runs nothing is asked of BUF. -/
theorem bufferInv_of_not_busy {s : State} (h : s.phase.busy = false) : BufferInv s := by
  obtain h | h | h : s.phase = .idle ∨ s.phase = .done ∨ s.phase = .fault := by simpa using (Phase.not_busy_iff _).mp h
  all_goals constructor <;> simp [h]

/-- Whole rows of a job that passed CHECK are within BUF_CAP (45_sequencer.md R163). -/
theorem bufferInv_of_whole {s : State} (hp : s.phase ∈ [.rle, .emit]) (hc : checkJob s.params s.job = none)
    (hw : ∀ n, s.params.modeCode.nameOf s.job.fmt = some n → s.buf.length = s.job.h.toNat * n.rowBytes s.job.w.toNat) :
    BufferInv s where
  started h := by simp [h] at hp
  checked _ := hc
  growing h := by simp [h] at hp
  rowsDone h := by simp [h] at hp
  whole _ := hw
  fits _ cap hcap := by
    obtain ⟨n, hn, -, -, -, -, hfits⟩ := checkJob_none _ _ hc
    have hle : ¬ cap < imageBytes n s.job := fun hlt => by
      simp [(exceeds_iff _ _).mpr ⟨cap, hcap, hlt⟩] at hfits
    rw [hw n hn]
    exact Nat.not_lt.mp hle

theorem BufferInv.of_moveTaken {s u : State} (hi : BufferInv s) (hu : moveTaken s u) : BufferInv u := by
  obtain ⟨-, rfl⟩ | ⟨m, rest, -, rfl⟩ := hu
  · exact hi
  · exact { hi with }

theorem BufferInv.of_check {s t : State} (hi : BufferInv s) (h : exec .check s = .next t) :
    BufferInv t := by
  obtain ⟨hp, ⟨c, -, rfl⟩ | ⟨hc, rfl⟩⟩ := exec_check_next h
  · exact bufferInv_of_not_busy rfl
  · obtain ⟨hbuf, hx, hy⟩ := hi.started hp
    exact ⟨nofun, fun _ => hc, fun _ n _ => by simp [hbuf, hx, hy], fun _ _ => hx, by simp, by simp⟩

theorem BufferInv.of_encodePixel {s t : State} (hi : BufferInv s) (h : exec .encodePixel s = .next t) : BufferInv t := by
  obtain ⟨hp, hy, -, -⟩ := exec_encodePixel_next h
  have hc := hi.checked (by simp [hp])
  obtain ⟨n, hn, -⟩ := checkJob_none _ _ hc
  have ht := pixelTaken_of_exec hc hn h
  have hpt := ht.phase.trans hp
  refine ⟨by simp [hpt], fun _ => ?_, fun _ n' hn' => ?_, fun _ hdone => ?_, by simp [hpt], by simp [hpt]⟩
  · rw [ht.params, ht.job]
    exact hc
  · rw [ht.params, ht.job] at hn'
    obtain rfl := Option.some.inj (hn.symm.trans hn')
    rw [ht.filled, hi.growing hp n hn, ht.y, ht.x, ht.job, Nat.add_mul, Nat.one_mul, Nat.add_assoc]
  · rw [ht.y, ht.job] at hdone
    exact absurd hdone hy.ne

/-- The end of a row rounds its pixels up to `row_bytes` (20_memory.md R50; 45_sequencer.md R165). -/
theorem BufferInv.of_encodeRowend {s t : State} (hw : WorkingInv s) (hi : BufferInv s)
    (h : exec .encodeRowend s = .next t) : BufferInv t := by
  obtain ⟨hp, -, hx, rfl⟩ := exec_encodeRowend_next h
  have hc := hi.checked (by simp [hp])
  refine ⟨by simp [hp], fun _ => hc, fun _ n hn => ?_, fun _ _ => rfl, by simp [hp], by simp [hp]⟩
  have hgrow := hi.growing hp n hn
  have hlen := flushRowState_buf_length hw.bitsLt
  rw [hgrow, hx] at hlen
  simp only [rowBeginState_buf, rowBeginState_bits, rowBeginState_y, rowBeginState_x, rowBeginState_job, flushRowState_job]
  rw [hlen, rowBytes_eq, Nat.add_mul]
  omega

theorem BufferInv.of_encodeEnd {s t : State} (hw : WorkingInv s) (hi : BufferInv s)
    (h : exec .encodeEnd s = .next t) : BufferInv t := by
  obtain ⟨hp, hy, hstage⟩ := exec_encodeEnd_next h
  have hc := hi.checked (by simp [hp])
  have hwhole : ∀ n, s.params.modeCode.nameOf s.job.fmt = some n →
      s.buf.length = s.job.h.toNat * n.rowBytes s.job.w.toNat := fun n hn => by
    have hgrow := hi.growing hp n hn
    rw [hw.rowsDone hy, hi.rowsDone hp hy, hy] at hgrow
    omega
  obtain ⟨-, rfl⟩ | ⟨-, rfl⟩ := hstage
  · exact bufferInv_of_whole (by simp) hc hwhole
  · exact bufferInv_of_whole (by simp) hc hwhole

/-- The RLE stage reads BUF and does not write it (43_rle.md R133, R134). -/
theorem BufferInv.of_rleStep {s t : State} (hi : BufferInv s) (h : exec .rleStep s = .next t) : BufferInv t := by
  obtain ⟨-, v, rest, -, ⟨-, rfl⟩ | ⟨-, rfl⟩⟩ := exec_rleStep_next h
  · rw [takeRun_eq]
    exact { hi with }
  · rw [takeLit_eq]
    split <;> exact { hi with }

theorem BufferInv.of_rleEnd {s t : State} (hi : BufferInv s) (h : exec .rleEnd s = .next t) : BufferInv t := by
  obtain ⟨hp, -, rfl⟩ := exec_rleEnd_next h
  exact bufferInv_of_whole (by simp) (hi.checked (by simp [hp])) (hi.whole (by simp [hp]))

theorem bufferInv_of_emit {s t : State} (h : exec .emit s = .next t) : BufferInv t := by
  obtain ⟨-, ⟨c, -, rfl⟩ | rfl⟩ := exec_emit_next h
  · exact bufferInv_of_not_busy rfl
  · exact bufferInv_of_not_busy rfl

theorem BufferInv.of_blockOps {i : Instr} {s t : State} (hw : WorkingInv s) (hi : BufferInv s) (hb : i ∈ blockOps)
    (h : exec i s = .next t) : BufferInv t := by
  simp only [blockOps, List.mem_cons, List.not_mem_nil, or_false] at hb
  rcases hb with rfl | rfl | rfl | rfl | rfl | rfl | rfl
  · exact hi.of_check h
  · exact hi.of_encodePixel h
  · exact hi.of_encodeRowend hw h
  · exact hi.of_encodeEnd hw h
  · exact hi.of_rleStep h
  · exact hi.of_rleEnd h
  · exact bufferInv_of_emit h

theorem BufferInv.of_hostEffect {u t : State} (hi : BufferInv u) (h : HostEffect u t) : BufferInv t := by
  cases h with
  | reset => exact bufferInv_of_not_busy rfl
  | started =>
    rcases startState_cases u with ⟨-, e⟩ | ⟨-, e⟩ <;> rw [e]
    · exact hi
    · exact ⟨fun _ => ⟨rfl, rfl, rfl⟩, by simp, nofun, nofun, by simp, by simp⟩
  | accessed => exact { hi with }

/-- Settles O60: pixels and row ends keep the count of bits, ENCODE.END finds whole rows, and what follows leaves BUF. -/
theorem bufferInvariantKept : Obligations.BufferInvariantKept := by
  unfold Obligations.BufferInvariantKept
  intro s t hw hi h
  obtain ⟨u, hu, ⟨i, hb, he⟩ | hh⟩ := step_cases_of_architectural hw.hostMoves h
  · exact (hi.of_moveTaken hu).of_blockOps (hw.of_moveTaken hu) hb he
  · exact (hi.of_moveTaken hu).of_hostEffect hh

/-! ### A row of BUF (20_memory.md R50) -/

/-- A step of a silent host runs the operation PHASE and the cursors select. -/
theorem step_silent {s : State} {i : Instr} (hh : s.host = []) (hd : decode s.params (phaseWord s) = .ok i) :
    step s = exec i s := by
  simp only [step_eq, fetch, hh, fetchBlock, hd, runFetched]

theorem step_silent_pixel {s : State} (hh : s.host = []) (hp : s.phase = .encode) (hy : s.y < s.job.h.toNat)
    (hx : s.x < s.job.w.toNat) : step s = exec .encodePixel s := by
  refine step_silent hh ?_
  rw [phaseWord, (cursorCase_pixelLeft_iff s hp).mpr ⟨hy, hx⟩, hp]
  rfl

theorem step_silent_rowend {s : State} (hh : s.host = []) (hp : s.phase = .encode) (hy : s.y < s.job.h.toNat)
    (hx : s.x = s.job.w.toNat) : step s = exec .encodeRowend s := by
  refine step_silent hh ?_
  rw [phaseWord, (cursorCase_rowDone_iff s hp).mpr ⟨hy, hx⟩, hp]
  rfl

/-- In the working invariant the packer takes a value of the job's width (42_bit_pack.md R125). -/
theorem packAllowed_of_workingInv {s : State} (hi : WorkingInv s) {w : Nat} (hj : jobPackedWidth s = some w)
    (hw : w = 1 ∨ w = 2 ∨ w = 4 ∨ w = 8) : packAllowed s w = true := by
  have hmod := hi.bitsMod
  simp only [hj] at hmod
  have hlt := hi.bitsLt
  refine (packAllowed_iff s w).mpr ⟨hw, hmod, ?_, fun w' hw' => ?_, fun w' hw' => Option.some.inj (hj.symm.trans hw')⟩
  · rcases hw with rfl | rfl | rfl | rfl <;> omega
  · exact Option.some.inj (hj.symm.trans (hi.rowWidthJob w' hw'))

/-- A pixel left of a job that passes CHECK is encoded, never refused (45_sequencer.md R164). -/
theorem exec_encodePixel_of_checked {s : State} (hi : WorkingInv s) (hp : s.phase = .encode) (hy : s.y < s.job.h.toNat)
    (hx : s.x < s.job.w.toNat) (hc : checkJob s.params s.job = none) : ∃ t, exec .encodePixel s = .next t := by
  have henabled : s.phase = .encode ∧ cursorCase s = .pixelLeft := ⟨hp, (cursorCase_pixelLeft_iff s hp).mpr ⟨hy, hx⟩⟩
  simp only [exec, execEncodePixel, if_pos henabled]
  rcases pixelAt_of_checked hc with ⟨bs, hpix⟩ | ⟨v, w, hpix⟩
  · exact ⟨_, by rw [hpix]⟩
  · obtain ⟨hj, hw⟩ := pixelOut_bits _ _ _ _ _ _ hpix
    exact ⟨_, by rw [hpix]; exact if_pos (packAllowed_of_workingInv hi hj hw)⟩

theorem exec_encodeRowend_of_rowDone {s : State} (hp : s.phase = .encode) (hy : s.y < s.job.h.toNat)
    (hx : s.x = s.job.w.toNat) : exec .encodeRowend s = .next (rowBeginState { flushRowState s with y := s.y + 1, x := 0 }) :=
  if_pos ⟨hp, (cursorCase_rowDone_iff s hp).mpr ⟨hy, hx⟩⟩

/-- `t` is the start of the row after that of `s`, whose last `k` pixels of mode `n` BUF has taken. -/
structure RowEnded (n : FormatName) (k : Nat) (s t : State) : Prop where
  buf : s.buf <+: t.buf
  length : t.buf.length = (8 * s.buf.length + s.bits + k * n.pixelBits + 7) / 8
  phase : t.phase = .encode
  y : t.y = s.y + 1
  x : t.x = 0
  bits : t.bits = 0

/-- With `k` pixels of the row left, `k + 1` steps of a silent host end it. -/
theorem run_row {n : FormatName} (k : Nat) :
    ∀ {s : State}, WorkingInv s → s.host = [] → s.phase = .encode → s.y < s.job.h.toNat →
      checkJob s.params s.job = none → s.params.modeCode.nameOf s.job.fmt = some n → s.x + k = s.job.w.toNat →
      ∃ t, core.run (k + 1) s = .next t ∧ RowEnded n k s t := by
  induction k with
  | zero =>
    intro s hi hh hp hy hc hn hx
    have hstep := (step_silent_rowend hh hp hy hx).trans (exec_encodeRowend_of_rowDone hp hy hx)
    refine ⟨_, (run_next 0 _ _ hstep).trans (run_zero _), ?_, ?_, hp, rfl, rfl, rfl⟩
    · simp only [rowBeginState_buf, flushRowState_buf]
      split
      · exact List.prefix_append _ _
      · exact List.prefix_rfl
    · rw [Nat.zero_mul, Nat.add_zero]
      exact flushRowState_buf_length hi.bitsLt
  | succ k ih =>
    intro s hi hh hp hy hc hn hx
    have hleft : s.x < s.job.w.toNat := by omega
    obtain ⟨u, hu⟩ := exec_encodePixel_of_checked hi hp hy hleft hc
    have hpix := pixelTaken_of_exec hc hn hu
    obtain ⟨t, hrun, hend⟩ := ih (s := u) (hi.of_encodePixel hu) (hpix.host.trans hh) (hpix.phase.trans hp)
      (by rwa [hpix.y, hpix.job]) (by rwa [hpix.params, hpix.job]) (by rwa [hpix.params, hpix.job])
      (by rw [hpix.x, hpix.job]; omega)
    refine ⟨t, (run_next _ _ _ ((step_silent_pixel hh hp hy hleft).trans hu)).trans hrun,
      hpix.buf.trans hend.buf, ?_, hend.phase, hend.y.trans (by rw [hpix.y]), hend.x, hend.bits⟩
    rw [hend.length, hpix.filled, Nat.add_mul]
    omega

/-- Settles O43: the values mode by mode, and the row by the count of its bits, which its end rounds up. -/
theorem rowBytesOfModes : Obligations.RowBytesOfModes := by
  unfold Obligations.RowBytesOfModes
  refine ⟨fun n width k => ?_, fun s n hi hh hp hy hx hb hc hn => ?_⟩
  · cases n <;> simp [FormatName.rowBytes] <;> omega
  · obtain ⟨t, hrun, hend⟩ := run_row s.job.w.toNat hi hh hp hy hc hn (by omega)
    obtain ⟨row, hrow⟩ := hend.buf
    have hlen := hend.length
    refine ⟨t, row, hrun, hrow.symm, ?_, hend.phase, hend.y, hend.x, hend.bits⟩
    rw [← hrow, List.length_append, hb] at hlen
    rw [rowBytes_eq]
    omega

end Sys2Proof.Machine
end

section
/-!
The encodings (30_encoding.md): what the decoder accepts is in range (R76, R77, R79), the mode words are MODE.DERIVE's (R64), the
reserved control byte (R83), and a write to CTRL (R88). One lemma per word format bounds the operands its
decoder answers.
-/

namespace Sys2Proof.Machine

/-! ### The operand bytes of an operation -/

theorem decodeNoOperand_ok {i j : Instr} {ops : List Byte} (h : decodeNoOperand j ops = .ok i) : i = j := by
  unfold decodeNoOperand at h
  split at h <;> cases h
  rfl

theorem decodeDirect_ok {f : Direct → Instr} {ops : List Byte} {i : Instr} (h : decodeDirect f ops = .ok i) :
    ∃ tok, i = f tok := by
  unfold decodeDirect at h
  split at h <;> cases h
  exact ⟨_, rfl⟩

theorem decodeIndexed_ok {f : Indexed → Instr} {ops : List Byte} {i : Instr} (h : decodeIndexed f ops = .ok i) :
    ∃ tok, i = f tok := by
  unfold decodeIndexed at h
  split at h
  · split at h <;> cases h
    exact ⟨_, rfl⟩
  · cases h

theorem decodeMasked_ok {f : Indexed → Option Byte → Instr} {ops : List Byte} {i : Instr}
    (h : decodeMasked f ops = .ok i) : ∃ tok m, i = f tok m := by
  unfold decodeMasked at h
  split at h
  · split at h <;> cases h
    exact ⟨_, _, rfl⟩
  · cases h

/-! ### MODE16 (30_encoding.md R61, R64) -/

/-- The operands of the ENC operations are confined by their types. -/
theorem wellFormed_of_decodeEnc {n : FormatName} {rle : Bool} {ops : List Byte} {i : Instr}
    (h : decodeEnc n rle ops = .ok i) : i.wellFormed = true := by
  cases n
  case rgb565 | argb8888 | rgba8888 =>
    obtain ⟨tok, rfl⟩ := decodeDirect_ok h
    rfl
  case i8 | i4 | i2 | i1 =>
    obtain ⟨tok, rfl⟩ := decodeIndexed_ok h
    rfl
  case ai44 =>
    obtain ⟨tok, m, rfl⟩ := decodeMasked_ok h
    rfl
  all_goals
    rw [decodeNoOperand_ok h]
    rfl

/-- Every base mode has operand bytes with which its word is an operation. -/
theorem exists_decodeEnc_ok (n : FormatName) (rle : Bool) : ∃ ops i, decodeEnc n rle ops = .ok i := by
  cases n
  case rgb565 | argb8888 | rgba8888 => exact ⟨[0, 0, 0, 0], _, rfl⟩
  case i8 | i4 | i2 | i1 => exact ⟨[0, 0, 0], _, rfl⟩
  case ai44 => exact ⟨[0, 0, 0, 0, 0], _, rfl⟩
  all_goals exact ⟨[], _, rfl⟩

/-- The decoder takes a mode value apart again into the base code and the flag MODE.DERIVE made it from. -/
theorem decodeMode16_modeValue {t : ModeCode} {base : BitVec 4} {n : FormatName} (h : t.nameOf base = some n) (rle : Bool)
    (ops : List Byte) : decodeMode16 t (t.modeValue base rle) ops = decodeEnc n rle ops := by
  obtain ⟨hbase, hrle, -, hreserved⟩ := t.modeValue_fields base rle
  simp only [decodeMode16, hbase, hrle, hreserved, h, ne_eq, not_true_eq_false, if_false]

/-- The decoder accepts no mode word but a mode value. -/
theorem decodeMode16_ok {t : ModeCode} {m : Half} {ops : List Byte} {i : Instr} (h : decodeMode16 t m ops = .ok i) :
    ∃ base rle n, m = t.modeValue base rle ∧ decodeEnc n rle ops = .ok i := by
  simp only [decodeMode16] at h
  split at h
  · cases h
  · split at h
    · cases h
    · rename_i hm
      split at h
      · cases h
      · exact ⟨_, _, _, not_not.mp hm, h⟩

theorem decode_mode16 (p : Params) (lo hi : Byte) (ops : List Byte) :
    decode p ⟨.mode16, lo :: hi :: ops⟩ = decodeMode16 p.modeCode (hi ++ lo) ops := rfl

/-- Settles O3: a mode word that decodes is a mode value, and in an admissible table each mode value's base code has a name, whose
operands exist. -/
theorem modeWordDecodesIffDerivable : Obligations.ModeWordDecodesIffDerivable := by
  unfold Obligations.ModeWordDecodesIffDerivable
  refine fun p lo hi hwf => ⟨fun ⟨ops, i, h⟩ => ?_, fun ⟨base, rle, hm⟩ => ?_⟩
  · rw [decode_mode16] at h
    obtain ⟨base, rle, -, hm, -⟩ := decodeMode16_ok h
    exact ⟨base, rle, hm⟩
  · obtain ⟨n, hn⟩ := p.modeCode.nameOf_isSome hwf base
    obtain ⟨ops, i, henc⟩ := exists_decodeEnc_ok n rle
    exact ⟨ops, i, by rw [decode_mode16, hm, decodeMode16_modeValue hn, henc]⟩

/-! ### The other formats -/

/-- A count of 0 is the reserved byte's (30_encoding.md R83). -/
theorem runCount_ne_zero : ∀ c : Byte, c ≠ 128 → c.getLsbD 7 = true → c.extractLsb' 0 7 ≠ 0 := by decide

/-- A control byte above 0x80 has a count of at least 1, and one below has 1 to 128 bytes after it (30_encoding.md R76, R77, R83). -/
theorem wellFormed_of_decodePacket {bs : List Byte} {i : Instr} (h : decodePacket bs = .ok i) : i.wellFormed = true := by
  unfold decodePacket at h
  split at h
  · cases h
  · rename_i c rest
    split at h
    · cases h
      rfl
    · rename_i hc
      split at h
      · rename_i hrun
        split at h <;> cases h
        exact bne_iff_ne.mpr (runCount_ne_zero c hc hrun)
      · rename_i hlit
        split at h <;> cases h
        rename_i hlen
        have hlt : 2 * c.toNat < 2 ^ 8 := BitVec.msb_eq_false_iff_two_mul_lt.mp (Bool.eq_false_iff.mpr hlit)
        simp only [Instr.wellFormed, Bool.and_eq_true, decide_eq_true_eq]
        omega

/-- A length of four bytes fits 32 bits (30_encoding.md R79). -/
theorem wellFormed_of_decodeHdr14 {bs : List Byte} {i : Instr} (h : decodeHdr14 bs = .ok i) : i.wellFormed = true := by
  unfold decodeHdr14 at h
  split at h
  · rename_i l0 l1 l2 l3
    split at h <;> cases h
    rw [Instr.wellFormed, decide_eq_true_eq]
    calc leValue [l0, l1, l2, l3]
      _ < 256 ^ 4 := leValue_lt _
      _ = 2 ^ 32 := by norm_num
  · cases h

theorem wellFormed_of_decodeCtrl2 {bs : List Byte} {i : Instr} (h : decodeCtrl2 bs = .ok i) : i.wellFormed = true := by
  unfold decodeCtrl2 at h
  split at h
  · split_ifs at h <;> cases h <;> rfl
  · cases h

/-- A register number is one byte (log 19), in a write as well. -/
theorem wellFormed_of_decodeRdreg {bs : List Byte} {i : Instr} (h : decodeRdreg bs = .ok i) : i.wellFormed = true := by
  unfold decodeRdreg at h
  split at h <;> cases h
  exact decide_eq_true (BitVec.isLt _)

theorem wellFormed_of_decodeWrreg {bs : List Byte} {i : Instr} (h : decodeWrreg bs = .ok i) : i.wellFormed = true := by
  unfold decodeWrreg at h
  split at h <;> cases h
  exact decide_eq_true (BitVec.isLt _)

/-- The steps PHASE selects have no operands. -/
theorem wellFormed_of_blockOps : ∀ i ∈ blockOps, i.wellFormed = true := by decide

/-- Of the rows with no bits only PACK has an operand to test, its width, which the decoder tests (42_bit_pack.md R121). -/
theorem wellFormed_of_decodeInternal {o : SubOp} {bs : List Byte} {i : Instr} (h : decodeInternal o bs = .ok i) :
    i.wellFormed = true := by
  cases o
  case resolve | rleEncode | rleDecode =>
    cases h
    rfl
  case modeDerive =>
    obtain _ | ⟨base, _ | ⟨r, _ | _⟩⟩ := bs
    case cons.cons.nil =>
      rw [decodeInternal] at h
      split at h <;> cases h
      rfl
    all_goals cases h
  case premul =>
    obtain ⟨tok, rfl⟩ := decodeDirect_ok h
    rfl
  case pack =>
    obtain _ | ⟨v, _ | ⟨w, _ | _⟩⟩ := bs
    case cons.cons.nil =>
      rw [decodeInternal] at h
      split at h <;> cases h
      rename_i hwidth
      exact hwidth
    all_goals cases h
  all_goals
    rw [decodeNoOperand_ok h]
    rfl

/-- Settles O2: the decoder of each format confines its operands. -/
theorem decodedOperationsAreWellFormed : Obligations.DecodedOperationsAreWellFormed := by
  unfold Obligations.DecodedOperationsAreWellFormed
  rintro p ⟨sel, bs⟩ i h
  cases sel with
  | mode16 =>
    simp only [decode] at h
    split at h
    · obtain ⟨_, _, _, -, henc⟩ := decodeMode16_ok h
      exact wellFormed_of_decodeEnc henc
    · cases h
  | packet => exact wellFormed_of_decodePacket h
  | hdr14 => exact wellFormed_of_decodeHdr14 h
  | ctrl2 => exact wellFormed_of_decodeCtrl2 h
  | rdreg => exact wellFormed_of_decodeRdreg h
  | wrreg => exact wellFormed_of_decodeWrreg h
  | phase3 c => exact wellFormed_of_blockOps i (decode_phase3 p c bs i h)
  | internal o => exact wellFormed_of_decodeInternal h

/-- Settles O4: the decoder run on the eight words. -/
theorem sampleWordsDecode : Obligations.SampleWordsDecode := by
  unfold Obligations.SampleWordsDecode
  decide

/-! ### The reserved control byte (30_encoding.md R83) -/

theorem rleDecode_reserved (rest : List Byte) : rleDecode (0x80 :: rest) = none := by
  simp [rleDecode, unpackLoop]

theorem exec_rleDecode_of_none {stream : List Byte} (h : rleDecode stream = none) (s : State) :
    exec (.rleDecode stream) s = .refused .streamMalformed := by
  simp only [exec, execRleDecode, h]

/-- Settles O25: the byte as an operation is refused, and the reference decoder has no answer for a stream it begins. -/
theorem reservedControlByteStops : Obligations.ReservedControlByteStops := by
  unfold Obligations.ReservedControlByteStops
  exact fun s rest => ⟨rfl, exec_rleDecode_of_none (rleDecode_reserved rest) s⟩

/-! ### Writes to CTRL (30_encoding.md R88) -/

/-- A write to register 0 is a write to CTRL, also while busy (10_state.md R21). -/
theorem exec_wrreg_zero (v : Word) (s : State) : exec (.wrreg 0 v) s = .next (writeCtrl v s) := rfl

/-- A step on a word of the host that decodes runs its operation. -/
theorem step_op_of_ok {s : State} {w : OpWord} {rest : List HostMove} {i : Instr} (hh : s.host = .op w :: rest)
    (hd : decode s.params w = .ok i) : step s = exec i { s with host := rest } := by
  rw [step_move hh]
  simp only [fetchMove, fetchWord, hd, runFetched]

/-- A step on a word the spec calls no operation takes the move off and does nothing else. -/
theorem step_op_of_noOperation {s : State} {w : OpWord} {rest : List HostMove} {e : DecodeError}
    (hh : s.host = .op w :: rest) (hd : decode s.params w = .error e) (he : e.isNoOperation = true) :
    step s = .next { s with host := rest } := by
  rw [step_move hh]
  simp only [fetchMove, fetchWord, hd, runFetched, he, if_true]

/-- A word of CTRL: bit 1 decides before bit 0, and no other bit counts (93_implementation_defined.md U17). -/
theorem decode_ctrl2 (p : Params) (b : Byte) :
    decode p ⟨.ctrl2, [b]⟩ =
      if b.getLsbD 1 then .ok (.srst (b.getLsbD 0)) else if b.getLsbD 0 then .ok .start else .error .noControlBit := rfl

/-- Settles O39: the register and the word of CTRL test the same two bits. -/
theorem controlWrites : Obligations.ControlWrites := by
  unfold Obligations.ControlWrites
  intro s v
  refine ⟨fun h1 => ?_, fun h1 h0 => ?_, fun h1 h0 => ?_, fun b rest hh => ⟨fun h1 => ?_, fun h1 h0 => ?_, fun h1 h0 => ?_⟩⟩
  · rw [exec_wrreg_zero, writeCtrl, h1, if_pos rfl, exec, execSrst]
  · rw [exec_wrreg_zero, writeCtrl, h1, h0, if_neg Bool.false_ne_true, if_pos rfl, exec, execStart]
  · rw [exec_wrreg_zero, writeCtrl, h1, h0, if_neg Bool.false_ne_true, if_neg Bool.false_ne_true]
  · exact step_op_of_ok hh (by rw [decode_ctrl2, h1, if_pos rfl])
  · exact step_op_of_ok hh (by rw [decode_ctrl2, h1, h0, if_neg Bool.false_ne_true, if_pos rfl])
  · refine step_op_of_noOperation hh (e := .noControlBit) ?_ rfl
    rw [decode_ctrl2, h1, h0, if_neg Bool.false_ne_true, if_neg Bool.false_ne_true]

end Sys2Proof.Machine
end

section
/-!
Mode resolution (40_mode_resolve.md): RESOLVE's lookup of a spelled name (R90) and MODE.DERIVE's value as a sum (R91).
-/

namespace Sys2Proof

/-- Different modes are spelled differently (30_encoding.md R85), so that RESOLVE's exact match is unambiguous. -/
theorem FormatName.spelling_injective : Function.Injective FormatName.spelling := fun m n h =>
  have hnodup : (FormatName.all.map FormatName.spelling).Nodup := by decide
  List.inj_on_of_nodup_map hnodup m.mem_all n.mem_all h

theorem resolveName_spelling (t : ModeCode) (n : FormatName) : resolveName t n.spelling = some (t.code n) := by
  unfold resolveName
  cases hf : FormatName.all.find? (fun m => m.spelling == n.spelling) with
  | none =>
    have hno := List.find?_eq_none.mp hf n n.mem_all
    exact absurd BEq.rfl hno
  | some m =>
    have hm := List.find?_some hf
    rw [FormatName.spelling_injective (eq_of_beq hm), Option.map_some]

theorem resolveName_eq_none (t : ModeCode) {name : List Byte} (h : ∀ n : FormatName, name ≠ n.spelling) :
    resolveName t name = none := by
  have hf : FormatName.all.find? (fun n => n.spelling == name) = none :=
    List.find?_eq_none.mpr fun n _ hn => h n (eq_of_beq hn).symm
  rw [resolveName, hf, Option.map_none]

theorem ModeCode.clutForced_iff (t : ModeCode) (base : BitVec 4) :
    t.clutForced base = true ↔ base = t.ai44 ∨ (t.i8.toNat ≤ base.toNat ∧ base.toNat ≤ t.i1.toNat) := by
  simp [ModeCode.clutForced]

namespace Machine

theorem exec_resolve_of_some {name : List Byte} {s : State} {c : BitVec 4} (h : resolveName s.params.modeCode name = some c) :
    exec (.resolve name) s = .next (withRet (.code c) s) := by
  simp only [exec, execResolve, h]

theorem exec_resolve_of_none {name : List Byte} {s : State} (h : resolveName s.params.modeCode name = none) :
    exec (.resolve name) s = .next (withRet (.raised .unknownFormat) s) := by
  simp only [exec, execResolve, h]

theorem exec_modeDerive (base : BitVec 4) (useRle : Bool) (s : State) :
    exec (.modeDerive base useRle) s = .next (withRet (.mode (s.params.modeCode.modeValue base useRle)) s) := rfl

/-- Settles O7: the value returned is the mode value, a sum of the base code and its two flags. -/
theorem modeDeriveValue : Obligations.ModeDeriveValue := by
  unfold Obligations.ModeDeriveValue
  intro s base useRle
  refine ⟨s.params.modeCode.modeValue base useRle, exec_modeDerive base useRle s, ?_⟩
  simp only [ModeCode.modeValue_toNat, ModeCode.clutForced_iff]

/-- Settles O8: a spelling is found under its own mode only, and another name under none. -/
theorem resolveSpelledNames : Obligations.ResolveSpelledNames := by
  unfold Obligations.ResolveSpelledNames
  exact fun s => ⟨fun n => exec_resolve_of_some (resolveName_spelling _ n),
    fun _ hname => exec_resolve_of_none (resolveName_eq_none _ hname)⟩

end Machine
end Sys2Proof
end

section
/-!
The pixel transforms (41_pixel_encode.md): what the premultiplied channels, the pixel words and the AI44 byte are as numbers. Each
operation returns its transform's result and writes nothing else, so its obligation is the value of that result.
-/

namespace Sys2Proof.Machine

/-! ### Scaled channels (41_pixel_encode.md R101, R112) -/

/-- A channel scaled by k is at most k, so that its quantisation to bits that hold k loses nothing (41_pixel_encode.md R112). -/
theorem quantised_toNat (c : Byte) {k w : Nat} (hk : k < 2 ^ w) :
    (BitVec.ofNat w (scale255 c.toNat k)).toNat = c.toNat * k / 255 :=
  Nat.mod_eq_of_lt ((scale255_le c k).trans_lt hk)

theorem premulChannel_toNat (c a : Byte) : (premulChannel c a).toNat = c.toNat * a.toNat / 255 :=
  quantised_toNat c a.isLt

theorem premultiplied_premultiply (l : Layout) (tok : Direct) :
    Premultiplied l tok (premultiply l tok).r (premultiply l tok).g (premultiply l tok).b := by
  cases l with
  | rgba => exact ⟨premulChannel_toNat tok.r tok.a, premulChannel_toNat tok.g tok.a, premulChannel_toNat tok.b tok.a⟩
  | indexed | rgb | other => exact ⟨rfl, rfl, rfl⟩

/-- Settles O9: the channels of the premultiplied token are those the rule names. -/
theorem premulScalesByAlpha : Obligations.PremulScalesByAlpha := by
  unfold Obligations.PremulScalesByAlpha
  exact fun s tok => ⟨_, _, _, rfl, premultiplied_premultiply s.job.layout tok⟩

/-! ### Pixel words (41_pixel_encode.md R102 to R104) -/

/-- Concatenation is a sum of disjoint bit fields. -/
theorem append_toNat {n m : Nat} (x : BitVec n) (y : BitVec m) : (x ++ y).toNat = x.toNat * 2 ^ m + y.toNat := by
  rw [BitVec.toNat_append, ← Nat.shiftLeft_add_eq_or_of_lt y.isLt, Nat.shiftLeft_eq]

theorem rgb565Word_toNat (t : Direct) :
    (rgb565Word t).toNat =
      t.r.toNat * 31 / 255 * 2 ^ 11 + t.g.toNat * 63 / 255 * 2 ^ 5 + t.b.toNat * 31 / 255 := by
  rw [rgb565Word, append_toNat, append_toNat, quantised_toNat t.r (by decide),
    quantised_toNat t.g (by decide), quantised_toNat t.b (by decide)]
  omega

/-- Settles O10: the word of the premultiplied token is its four bytes, and its value is read back in either order. -/
theorem argb8888WordBytes : Obligations.Argb8888WordBytes := by
  unfold Obligations.Argb8888WordBytes
  intro s rle tok r g b h
  refine ⟨argb8888Bytes s.params.wordOrder s.job.layout tok, rfl, orderedBytes_length .., ?_⟩
  rw [argb8888Bytes, premultiply_eq _ _ _ _ _ h, leValue_orderedBytes _ 4 _ (BitVec.isLt _)]
  exact append4_toNat tok.a r g b

/-- Settles O11: as for ENC.ARGB8888, the alpha being the last byte. -/
theorem rgba8888WordBytes : Obligations.Rgba8888WordBytes := by
  unfold Obligations.Rgba8888WordBytes
  intro s rle tok r g b h
  refine ⟨rgba8888Bytes s.params.wordOrder s.job.layout tok, rfl, orderedBytes_length .., ?_⟩
  rw [rgba8888Bytes, premultiply_eq _ _ _ _ _ h, leValue_orderedBytes _ 4 _ (BitVec.isLt _)]
  exact append4_toNat r g b tok.a

/-- Settles O12: no field of the word overflows, since a scaled channel is at most its factor. -/
theorem rgb565WordBytes : Obligations.Rgb565WordBytes := by
  unfold Obligations.Rgb565WordBytes
  intro s rle tok r g b h
  refine ⟨rgb565Bytes s.params.wordOrder s.job.layout tok, rfl, orderedBytes_length .., ?_⟩
  rw [rgb565Bytes, premultiply_eq _ _ _ _ _ h, leValue_orderedBytes _ 2 _ (BitVec.isLt _)]
  exact rgb565Word_toNat ⟨r, g, b, tok.a⟩

/-! ### AI44 (41_pixel_encode.md R105, R110) -/

theorem effAlpha_unmasked (t : Indexed) (m : Option Byte) : effAlpha false t m = t.alpha.getD 255 := by
  cases h : t.alpha <;> simp [effAlpha, h]

/-- The high nibble of one byte over the low nibble of another. -/
theorem nibbles_toNat (a i : Byte) :
    ((a.extractLsb' 4 4 : BitVec 4) ++ (i.extractLsb' 0 4 : BitVec 4)).toNat = a.toNat / 16 * 16 + i.toNat % 16 := by
  have ha := a.isLt
  simp only [append_toNat, BitVec.extractLsb'_toNat, Nat.shiftRight_eq_div_pow]
  omega

theorem ai44Byte_toNat (maskEn : Bool) (t : Indexed) (m : Option Byte) :
    (ai44Byte maskEn t m).toNat =
      if effAlpha maskEn t m = 0 then 0 else (effAlpha maskEn t m).toNat / 16 * 16 + t.index.toNat % 16 := by
  by_cases ha : effAlpha maskEn t m = 0
  · rw [if_pos ha, ai44Byte, if_pos ha]
    rfl
  · rw [if_neg ha, ai44Byte, if_neg ha, nibbles_toNat]

/-- Settles O13: the effective alpha is the model's own, which is the mask byte when there is one and the token's alpha or 255
without a mask. -/
theorem ai44EffectiveAlpha : Obligations.Ai44EffectiveAlpha := by
  unfold Obligations.Ai44EffectiveAlpha
  intro s rle tok m
  refine ⟨effAlpha s.job.maskEn tok m, ai44Byte s.job.maskEn tok m, rfl, fun v hen hm => ?_, fun hen => ?_,
    ai44Byte_toNat _ tok m⟩
  · rw [hen, hm, effAlpha]
  · rw [hen, effAlpha_unmasked]

/-! ### Indexed modes and modes with no transform (41_pixel_encode.md R106 to R109, R111) -/

/-- Settles O14: masking to w bits is the index modulo 2^w, and a byte is its own low 8 bits. -/
theorem indexedModesMaskIndex : Obligations.IndexedModesMaskIndex := by
  unfold Obligations.IndexedModesMaskIndex
  intro s rle tok
  refine ⟨maskLow tok.index 8, maskLow tok.index 4, maskLow tok.index 2, maskLow tok.index 1, ⟨rfl, ?_⟩,
    ⟨rfl, maskLow_toNat _ 4 (by decide)⟩, ⟨rfl, maskLow_toNat _ 2 (by decide)⟩, ⟨rfl, maskLow_toNat _ 1 (by decide)⟩⟩
  rw [maskLow_toNat _ 8 le_rfl, Nat.mod_eq_of_lt tok.index.isLt]

/-- Settles O15: each of the eight operations is the one raise of UnsupportedTargetMode. -/
theorem unsupportedModesRaise : Obligations.UnsupportedModesRaise := by
  unfold Obligations.UnsupportedModesRaise
  intro s rle i hi
  suffices h : exec i s = .next (raise .unsupportedTargetMode s) from h
  simp only [List.mem_cons, List.not_mem_nil, or_false] at hi
  rcases hi with rfl | rfl | rfl | rfl | rfl | rfl | rfl | rfl <;> rfl

end Sys2Proof.Machine
end

section
/-!
The bit packer's operations (42_bit_pack.md): ROW_BEGIN and FLUSH_ROW (R122, R123), a PACK call that meets its precondition
(R121) and one that breaks it (R125), and the length of a row (R124).
-/

namespace Sys2Proof.Machine

/-! ### ROW_BEGIN and FLUSH_ROW (42_bit_pack.md R122, R123) -/

/-- Settles O16: both operations complete from every state, with the states `rowBeginState` and `flushRowState`. -/
theorem rowBoundaryOperations : Obligations.RowBoundaryOperations := by
  unfold Obligations.RowBoundaryOperations
  exact fun s => ⟨rfl, congrArg Host.Outcome.next (flushRowState_eq s)⟩

/-! ### One PACK call (42_bit_pack.md R121, R125) -/

/-- The widths PACK takes, as the model tests them. -/
theorem mem_packWidths_iff {w : Nat} : w ∈ [1, 2, 4, 8] ↔ w = 1 ∨ w = 2 ∨ w = 4 ∨ w = 8 := by
  simp only [List.mem_cons, List.not_mem_nil, or_false]

theorem exec_pack_of_allowed {w : Nat} {s : State} (h : packAllowed s w = true) (v : Byte) :
    exec (.pack v w) s = .next (packedState v w s) := if_pos h

theorem exec_pack_of_not_allowed {w : Nat} {s : State} (h : packAllowed s w ≠ true) (v : Byte) :
    exec (.pack v w) s = .refused .packPrecondition := if_neg h

/-- The accumulator ORed with the masked value at bit offset `bits`: no bit of the value is shifted out of the byte. -/
theorem or_maskLow_shiftLeft_toNat (acc v : Byte) {bits w : Nat} (h : bits + w ≤ 8) :
    (acc ||| (maskLow v w <<< bits)).toNat = acc.toNat ||| (v.toNat % 2 ^ w * 2 ^ bits) := by
  have hlt : v.toNat % 2 ^ w * 2 ^ bits < 2 ^ 8 :=
    calc v.toNat % 2 ^ w * 2 ^ bits
      _ < 2 ^ w * 2 ^ bits := Nat.mul_lt_mul_of_pos_right (Nat.mod_lt _ (Nat.two_pow_pos w)) (Nat.two_pow_pos bits)
      _ = 2 ^ (bits + w) := by rw [Nat.add_comm, Nat.pow_add]
      _ ≤ 2 ^ 8 := Nat.pow_le_pow_right Nat.two_pos h
  rw [BitVec.toNat_or, BitVec.toNat_shiftLeft, Nat.shiftLeft_eq, maskLow_toNat v w (by omega), Nat.mod_eq_of_lt hlt]

/-- The state after PACK, the byte filled or not. -/
theorem packedState_eq (v : Byte) (w : Nat) (s : State) :
    packedState v w s =
      if s.bits + w = 8 then
        { s with acc := 0, bits := 0, rowWidth := some w, buf := s.buf ++ [s.acc ||| (maskLow v w <<< s.bits)] }
      else { s with acc := s.acc ||| (maskLow v w <<< s.bits), bits := s.bits + w, rowWidth := some w } := by
  split <;> rename_i h
  · rw [packedState, Packer.push_full v w (packerOf s) h]
    rfl
  · rw [packedState, Packer.push_partial v w (packerOf s) h]
    rfl

/-- Settles O17: the precondition is `packAllowed`, and the accumulator is the one `Packer.push` makes. -/
theorem packPlacesValue : Obligations.PackPlacesValue := by
  unfold Obligations.PackPlacesValue
  intro s v w hw hmod hfit hrow hjob
  have hallowed : packAllowed s w = true :=
    (packAllowed_iff s w).mpr ⟨mem_packWidths_iff.mp hw, hmod, hfit, hrow, hjob⟩
  exact ⟨_, or_maskLow_shiftLeft_toNat s.acc v hfit,
    (exec_pack_of_allowed hallowed v).trans (congrArg Host.Outcome.next (packedState_eq v w s))⟩

/-- Settles O18: each broken part contradicts its part of `packAllowed`. -/
theorem packRefusesBrokenPrecondition : Obligations.PackRefusesBrokenPrecondition := by
  unfold Obligations.PackRefusesBrokenPrecondition
  refine fun s v w hbroken => exec_pack_of_not_allowed (fun hallowed => ?_) v
  obtain ⟨hw, hmod, hfit, hrow, hjob⟩ := (packAllowed_iff s w).mp hallowed
  rcases hbroken with h | h | h | ⟨rowWidth, h, hne⟩ | ⟨jobWidth, h, hne⟩
  · exact h (mem_packWidths_iff.mpr hw)
  · exact h hmod
  · exact absurd hfit (Nat.not_le.mpr h)
  · exact hne (hrow rowWidth h)
  · exact hne (hjob jobWidth h)

/-! ### The length of a row (42_bit_pack.md R124) -/

/-- The state without what the packer's operations write: two states that agree here differ in BUF, ACC, BITS and the row's width
at most. -/
def outsidePacker (s : State) : State := { s with acc := 0, bits := 0, buf := [], rowWidth := none }

theorem outsidePacker_packedState (v : Byte) (w : Nat) (s : State) : outsidePacker (packedState v w s) = outsidePacker s := rfl

theorem jobPackedWidth_outsidePacker (s : State) : jobPackedWidth (outsidePacker s) = jobPackedWidth s := rfl

theorem flushRowState_eq_of_outsidePacker_eq {s t : State} (h : outsidePacker t = outsidePacker s) :
    flushRowState t =
      { s with acc := 0, bits := 0, rowWidth := none, buf := (if t.bits = 0 then t.buf else t.buf ++ [t.acc]) } :=
  (flushRowState_eq t).trans
    (congrArg (fun r : State => { r with buf := if t.bits = 0 then t.buf else t.buf ++ [t.acc] }) h)

/-- `t` is inside a row begun in `s`, after PACK of `values` with width `w`. -/
structure RowOpen (s : State) (w : Nat) (values : List Byte) (t : State) : Prop where
  packed : RowPacked s.buf.length w values (packerOf t)
  buf : s.buf <+: t.buf
  rowWidth : ∀ w', t.rowWidth = some w' → w = w'
  frame : outsidePacker t = outsidePacker s

theorem rowOpen_rowBeginState (s : State) (w : Nat) : RowOpen s w [] (rowBeginState s) where
  packed := rowPacked_rowBegin w (packerOf s)
  buf := List.prefix_rfl
  rowWidth _ h := nomatch h
  frame := rfl

/-- In a row of values of a width that divides 8 BITS is a multiple of it, so that one more fits (10_state.md R35). -/
theorem RowPacked.bits_mod_and_fits {start w : Nat} {values : List Byte} {k : Packer} (hi : RowPacked start w values k)
    (hw : w = 1 ∨ w = 2 ∨ w = 4 ∨ w = 8) : k.bits % w = 0 ∧ k.bits + w ≤ 8 := by
  have hfilled := hi.filled
  have hlt := hi.bitsLt
  rcases hw with rfl | rfl | rfl | rfl <;> omega

/-- Every further PACK of the row meets its precondition. -/
theorem RowOpen.allowed {s t : State} {w : Nat} {values : List Byte} (hi : RowOpen s w values t) (hw : w ∈ [1, 2, 4, 8])
    (hjob : ∀ jobWidth, jobPackedWidth s = some jobWidth → w = jobWidth) : packAllowed t w = true := by
  have hwidth := mem_packWidths_iff.mp hw
  obtain ⟨hmod, hfit⟩ := hi.packed.bits_mod_and_fits hwidth
  have hsame : jobPackedWidth t = jobPackedWidth s := by
    rw [← jobPackedWidth_outsidePacker t, hi.frame, jobPackedWidth_outsidePacker]
  exact (packAllowed_iff t w).mpr ⟨hwidth, hmod, hfit, hi.rowWidth, hsame ▸ hjob⟩

theorem RowOpen.pack {s t : State} {w : Nat} {values : List Byte} (hi : RowOpen s w values t)
    (h : packAllowed t w = true) (v : Byte) : RowOpen s w (values ++ [v]) (packedState v w t) where
  packed := by
    obtain ⟨hw, -, hfit, -, -⟩ := (packAllowed_iff t w).mp h
    exact hi.packed.push (by omega) hfit v
  buf := hi.buf.trans (Packer.push_buf_prefix v w (packerOf t))
  rowWidth _ hw' := Option.some.inj hw'
  frame := (outsidePacker_packedState v w t).trans hi.frame

theorem execAll_cons_of_next {i : Instr} {s t : State} (h : exec i s = .next t) (is : List Instr) :
    execAll (i :: is) s = execAll is t := by
  rw [execAll, h]

theorem execAll_append_of_next {is : List Instr} (js : List Instr) {t : State} :
    ∀ {s : State}, execAll is s = .next t → execAll (is ++ js) s = execAll js t := by
  induction is with
  | nil => exact fun h => congrArg (execAll js) (Host.Outcome.next.inj h)
  | cons i is ih =>
    intro s h
    obtain ⟨u, hu, ht⟩ := execAll_cons_next h
    exact (execAll_cons_of_next hu _).trans (ih ht)

/-- The PACK calls of a row all complete. -/
theorem RowOpen.execAll_pack {s : State} {w : Nat} (hw : w ∈ [1, 2, 4, 8])
    (hjob : ∀ jobWidth, jobPackedWidth s = some jobWidth → w = jobWidth) (values : List Byte) :
    ∀ {packed : List Byte} {u : State}, RowOpen s w packed u →
      ∃ t, execAll (values.map (fun v => .pack v w)) u = .next t ∧ RowOpen s w (packed ++ values) t := by
  induction values with
  | nil => exact fun {packed u} hi => ⟨u, rfl, (List.append_nil packed).symm ▸ hi⟩
  | cons v values ih =>
    intro packed u hi
    have hallowed := hi.allowed hw hjob
    obtain ⟨t, ht, hopen⟩ := ih (hi.pack hallowed v)
    exact ⟨t, (execAll_cons_of_next (exec_pack_of_allowed hallowed v) _).trans ht, by simpa using hopen⟩

/-- Settles O19: the bits of the row stand in the bytes appended and in the accumulator, which FLUSH_ROW appends when it holds
any. -/
theorem rowLengthLaw : Obligations.RowLengthLaw := by
  unfold Obligations.RowLengthLaw
  intro s values w hw hjob
  obtain ⟨t, ht, hopen⟩ := RowOpen.execAll_pack hw hjob values (rowOpen_rowBeginState s w)
  obtain ⟨packed, hbuf⟩ := hopen.buf
  have hrun : execAll (.rowBegin :: values.map (fun v => .pack v w)) s = .next t :=
    (execAll_cons_of_next rfl _).trans ht
  have hfilled : 8 * packed.length + t.bits = values.length * w := by
    have h : 8 * t.buf.length + t.bits = 8 * s.buf.length + values.length * w := hopen.packed.filled
    rw [← hbuf, List.length_append] at h
    omega
  have hlt : t.bits < 8 := hopen.packed.bitsLt
  have htail : (if t.bits = 0 then [] else [t.acc]).length = if values.length * w % 8 = 0 then 0 else 1 := by
    rw [← hfilled, Nat.mul_add_mod, Nat.mod_eq_of_lt hlt, apply_ite List.length]
    rfl
  refine ⟨t, packed, if t.bits = 0 then [] else [t.acc], hrun, hbuf.symm, by omega, htail, ?_, ?_,
    execAll_append_of_next [.flushRow] hrun⟩
  · rw [List.length_append, htail]
    split <;> omega
  · refine congrArg Host.Outcome.next ((flushRowState_eq_of_outsidePacker_eq hopen.frame).trans ?_)
    rw [← List.append_assoc, hbuf]
    split <;> simp only [List.append_nil]

end Sys2Proof.Machine
end

section
/-!
The run-length compressor as functions of byte lists (43_rle.md): what the reference decoder answers (R140), the packets the
encoder emits (R131, R137), and from the two the round trip (R141) and the size (R138).
-/

namespace Sys2Proof.Machine

/-! ### Packets as bytes (30_encoding.md R76, R77) -/

theorem Packet.serial_run {len : Nat} (h : 1 ≤ len) (v : Byte) : (Packet.run len v).serial = runPacket len v := by
  rw [Packet.serial, runPacket, show 127 + len = 128 + (len - 1) by omega]

theorem Packet.inRange_run_iff (len : Nat) (v : Byte) : (Packet.run len v).inRange = true ↔ 2 ≤ len ∧ len ≤ 128 := by
  simp [Packet.inRange]

theorem Packet.inRange_lit_iff (bs : List Byte) : (Packet.lit bs).inRange = true ↔ 1 ≤ bs.length ∧ bs.length ≤ 128 := by
  simp [Packet.inRange]

/-! ### The reference decoder (43_rle.md R140) -/

/-- A round of the decoder takes a whole packet in range. -/
theorem unpackLoop_serial (fuel : Nat) {q : Packet} (hq : q.inRange = true) (rest : List Byte) :
    unpackLoop (fuel + 1) (q.serial ++ rest) = (unpackLoop fuel rest).map (q.expand ++ ·) := by
  cases q with
  | run len v =>
    obtain ⟨hlow, hhigh⟩ := (Packet.inRange_run_iff len v).mp hq
    rw [Packet.serial_run (by omega)]
    exact unpackLoop_run fuel len v rest hlow hhigh
  | lit bs =>
    obtain ⟨hlow, hhigh⟩ := (Packet.inRange_lit_iff bs).mp hq
    exact unpackLoop_lit fuel bs rest hlow hhigh

theorem unpackLoop_of_packets {ps : List Packet} :
    ∀ {fuel : Nat}, ps.length ≤ fuel → (∀ q ∈ ps, q.inRange = true) →
      unpackLoop fuel (ps.flatMap Packet.serial) = some (ps.flatMap Packet.expand) := by
  induction ps with
  | nil => intro fuel _ _; cases fuel <;> rfl
  | cons q ps ih =>
    intro fuel hfuel hrange
    obtain ⟨fuel, rfl⟩ := Nat.exists_eq_succ_of_ne_zero (n := fuel) (by rintro rfl; simp at hfuel)
    rw [List.forall_mem_cons] at hrange
    rw [List.flatMap_cons, unpackLoop_serial fuel hrange.1, ih (Nat.le_of_succ_le_succ hfuel) hrange.2]
    rfl

theorem Packet.serial_length_pos (q : Packet) : 1 ≤ q.serial.length := by
  cases q <;> simp [Packet.serial]

theorem length_le_serial_length (ps : List Packet) : ps.length ≤ (ps.flatMap Packet.serial).length := by
  induction ps with
  | nil => exact Nat.le_refl 0
  | cons q ps ih =>
    have := q.serial_length_pos
    simp only [List.length_cons, List.flatMap_cons, List.length_append]
    omega

theorem rleDecode_of_packets {ps : List Packet} (h : ∀ q ∈ ps, q.inRange = true) :
    rleDecode (ps.flatMap Packet.serial) = some (ps.flatMap Packet.expand) :=
  unpackLoop_of_packets (length_le_serial_length ps) h

/-- A round that does not refuse has found a packet in range at the front. -/
theorem packet_of_unpackLoop_cons {fuel : Nat} {c : Byte} {stream out : List Byte}
    (h : unpackLoop (fuel + 1) (c :: stream) = some out) :
    ∃ (q : Packet) (rest out' : List Byte), q.inRange = true ∧ c :: stream = q.serial ++ rest ∧
      unpackLoop fuel rest = some out' := by
  have hc : c.toNat < 256 := c.isLt
  simp only [unpackLoop] at h
  split_ifs at h with hrun hreserved hshort
  · cases stream with
    | nil => cases h
    | cons v rest =>
      obtain ⟨out', hout, -⟩ := Option.map_eq_some_iff.mp h
      refine ⟨.run (c.toNat - 127) v, rest, out', (Packet.inRange_run_iff _ _).mpr (by omega), ?_, hout⟩
      rw [Packet.serial, show 127 + (c.toNat - 127) = c.toNat by omega, BitVec.ofNat_toNat, BitVec.setWidth_eq]
      rfl
  · obtain ⟨out', hout, -⟩ := Option.map_eq_some_iff.mp h
    have hlength : (stream.take (c.toNat + 1)).length = c.toNat + 1 := List.length_take_of_le (by omega)
    refine ⟨.lit (stream.take (c.toNat + 1)), _, out', (Packet.inRange_lit_iff _).mpr (by omega), ?_, hout⟩
    rw [Packet.serial, hlength, Nat.add_sub_cancel, BitVec.ofNat_toNat, BitVec.setWidth_eq, List.cons_append,
      List.take_append_drop]

theorem packets_of_unpackLoop {fuel : Nat} :
    ∀ {stream out : List Byte}, unpackLoop fuel stream = some out →
      ∃ ps : List Packet, (∀ q ∈ ps, q.inRange = true) ∧ stream = ps.flatMap Packet.serial := by
  induction fuel with
  | zero =>
    intro stream out h
    cases stream with
    | nil => exact ⟨[], by simp, rfl⟩
    | cons c stream => cases h
  | succ fuel ih =>
    intro stream out h
    cases stream with
    | nil => exact ⟨[], by simp, rfl⟩
    | cons c stream =>
      obtain ⟨q, rest, out', hq, hstream, hrest⟩ := packet_of_unpackLoop_cons h
      obtain ⟨ps, hrange, rfl⟩ := ih hrest
      exact ⟨q :: ps, List.forall_mem_cons.mpr ⟨hq, hrange⟩, hstream⟩

theorem exec_rleDecode_of_some {stream b : List Byte} (h : rleDecode stream = some b) (s : State) :
    exec (.rleDecode stream) s = .next { s with ret := .bytes b } := by
  simp only [exec, execRleDecode, h, withRet]

/-- Settles O24: the decoder takes packets in range one by one, and what it takes without refusing are such packets. -/
theorem rleDecodeAnswersPacketStreams : Obligations.RleDecodeAnswersPacketStreams := by
  unfold Obligations.RleDecodeAnswersPacketStreams
  refine fun s stream => ⟨?_, fun hno => ?_⟩
  · rintro ps hrange rfl
    exact exec_rleDecode_of_some (rleDecode_of_packets hrange) s
  · cases h : rleDecode stream with
    | none => exact exec_rleDecode_of_none h s
    | some b => exact absurd (packets_of_unpackLoop h) hno

/-! ### The rounds of the encoder (43_rle.md R131) -/

@[simp] theorem rleLoop_nil (fuel : Nat) (lit : List Byte) : rleLoop fuel [] lit = flushed lit := by
  cases fuel <;> rfl

theorem rleLoop_of_run {v : Byte} {rest : List Byte} (h : 2 ≤ runLength v rest) (fuel : Nat) (lit : List Byte) :
    rleLoop (fuel + 1) (v :: rest) lit =
      flushed lit ++ (runPacket (runLength v rest) v ++ rleLoop fuel ((v :: rest).drop (runLength v rest)) []) := by
  rw [rleLoop, if_pos h, List.append_assoc]

theorem rleLoop_of_cap {v : Byte} {rest lit : List Byte} (h : runLength v rest = 1) (hcap : lit.length + 1 = 128)
    (fuel : Nat) : rleLoop (fuel + 1) (v :: rest) lit = flushed (lit ++ [v]) ++ rleLoop fuel rest [] := by
  have hlength : (lit ++ [v]).length = litMax := by rw [List.length_append]; exact hcap
  rw [rleLoop, if_neg (by omega), if_pos hlength, flushed_eq (lit ++ [v]) (by simp)]

theorem rleLoop_of_lit {v : Byte} {rest lit : List Byte} (h : runLength v rest = 1) (hcap : lit.length + 1 ≠ 128)
    (fuel : Nat) : rleLoop (fuel + 1) (v :: rest) lit = rleLoop fuel rest (lit ++ [v]) := by
  have hlength : (lit ++ [v]).length ≠ litMax := by rw [List.length_append]; exact hcap
  rw [rleLoop, if_neg (by omega), if_neg hlength]

theorem runLength_eq_one {v : Byte} {rest : List Byte} (h : ¬ 2 ≤ runLength v rest) : runLength v rest = 1 := by
  have := (runLength_bounds v rest).1
  omega

/-- A measured run leaves an input no longer than the rest of the fuel. -/
theorem length_drop_runLength_le {v : Byte} {rest : List Byte} {fuel : Nat} (h : (v :: rest).length ≤ fuel + 1) :
    ((v :: rest).drop (runLength v rest)).length ≤ fuel := by
  have := (runLength_bounds v rest).1
  rw [List.length_drop]
  omega

/-! ### The greedy rule (43_rle.md R137) -/

theorem noEqualNeighbours_iff (bs : List Byte) : noEqualNeighbours bs = true ↔ bs.IsChain (· ≠ ·) := by
  induction bs using List.twoStepInduction with
  | nil => simp [noEqualNeighbours]
  | singleton a => simp [noEqualNeighbours]
  | cons_cons a b bs _ ih => simp [noEqualNeighbours, ih]

theorem greedy_cons_iff (q : Packet) (ps : List Packet) :
    greedy (q :: ps) = true ↔
      (∀ bs, q = .lit bs → bs.IsChain (· ≠ ·)) ∧ (∀ p ∈ ps.head?, q.greedyBefore p = true) ∧ greedy ps = true := by
  cases q <;> cases ps <;> simp [greedy, noEqualNeighbours_iff, and_assoc]

/-- A run may stand before every packet that begins with another byte, and at the cap before every packet. -/
theorem Packet.greedyBefore_of_run {len : Nat} {v : Byte} {q : Packet} (hq : q.inRange = true)
    (h : len < 128 → q.expand.head? ≠ some v) (hlen : len ≤ 128) : (Packet.run len v).greedyBefore q = true := by
  rcases Nat.lt_or_eq_of_le hlen with hlt | rfl
  · have hhead := h hlt
    cases q with
    | run len' v' =>
      obtain ⟨hlow, -⟩ := (Packet.inRange_run_iff len' v').mp hq
      have hv : v' ≠ v := by
        rintro rfl
        exact hhead (by rw [Packet.expand, List.head?_replicate, if_neg (by omega)])
      simp [Packet.greedyBefore, hv.symm]
    | lit bs => simpa [Packet.greedyBefore, Packet.expand] using Or.inl hhead
  · cases q <;> simp [Packet.greedyBefore]

theorem Packet.greedyBefore_of_full {bs : List Byte} (h : bs.length = 128) (q : Packet) :
    (Packet.lit bs).greedyBefore q = true := by
  cases q <;> simp [Packet.greedyBefore, h]

theorem Packet.expand_ne_nil {q : Packet} (hq : q.inRange = true) : q.expand ≠ [] := by
  rw [← List.length_pos_iff]
  cases q with
  | run len v =>
    obtain ⟨hlow, -⟩ := (Packet.inRange_run_iff len v).mp hq
    simp only [Packet.expand, List.length_replicate]
    omega
  | lit bs => exact ((Packet.inRange_lit_iff bs).mp hq).1

/-- `ps` are packets as 43_rle.md R137 has them, `out` their bytes and `input` what they stand for. -/
structure GreedyStream (input out : List Byte) (ps : List Packet) : Prop where
  inRange : ∀ q ∈ ps, q.inRange = true
  serial : out = ps.flatMap Packet.serial
  expand : ps.flatMap Packet.expand = input
  rule : greedy ps = true

theorem greedyStream_nil : GreedyStream [] [] [] := ⟨by simp, rfl, rfl, rfl⟩

theorem GreedyStream.cons {input out : List Byte} {ps : List Packet} (h : GreedyStream input out ps) {q : Packet}
    (hq : q.inRange = true) (hown : ∀ bs, q = .lit bs → bs.IsChain (· ≠ ·))
    (hnext : ∀ p ∈ ps.head?, q.greedyBefore p = true) :
    GreedyStream (q.expand ++ input) (q.serial ++ out) (q :: ps) where
  inRange := List.forall_mem_cons.mpr ⟨hq, h.inRange⟩
  serial := by rw [h.serial, List.flatMap_cons]
  expand := by rw [List.flatMap_cons, h.expand]
  rule := (greedy_cons_iff q ps).mpr ⟨hown, hnext, h.rule⟩

/-- The input of a stream begins with what its first packet stands for. -/
theorem GreedyStream.head_expand {input out : List Byte} {ps : List Packet} (h : GreedyStream input out ps) {q : Packet}
    (hq : q ∈ ps.head?) : q.inRange = true ∧ q.expand.head? = input.head? := by
  cases ps with
  | nil => cases hq
  | cons p ps =>
    obtain rfl := Option.some.inj hq
    have hrange := h.inRange p (List.mem_cons_self ..)
    rw [← h.expand, List.flatMap_cons, List.head?_append_of_ne_nil _ (Packet.expand_ne_nil hrange)]
    exact ⟨hrange, rfl⟩

/-- A measured run before a stream of what follows it. -/
theorem GreedyStream.cons_run {v : Byte} {rest out : List Byte} {ps : List Packet}
    (h : GreedyStream ((v :: rest).drop (runLength v rest)) out ps) (hr : 2 ≤ runLength v rest) :
    GreedyStream (v :: rest) (runPacket (runLength v rest) v ++ out) (.run (runLength v rest) v :: ps) := by
  have hle := (runLength_bounds v rest).2.1
  have hnext : ∀ p ∈ ps.head?, (Packet.run (runLength v rest) v).greedyBefore p = true := fun p hp => by
    obtain ⟨hrange, hhead⟩ := h.head_expand hp
    refine Packet.greedyBefore_of_run hrange (fun hlt => ?_) hle
    rw [hhead, List.head?_drop]
    exact runLength_stop v rest hlt
  have hcons := h.cons ((Packet.inRange_run_iff _ v).mpr ⟨hr, hle⟩) (by simp) hnext
  rwa [Packet.expand, ← runLength_take, List.take_append_drop, Packet.serial_run (by omega)] at hcons

/-- A flushed literal block before a stream of what follows it. -/
theorem GreedyStream.exists_flushed {lit input out : List Byte} {ps : List Packet} (h : GreedyStream input out ps)
    (hlen : lit.length ≤ 128) (hlit : lit.IsChain (· ≠ ·))
    (hnext : ∀ p ∈ ps.head?, (Packet.lit lit).greedyBefore p = true) :
    ∃ ps', GreedyStream (lit ++ input) (flushed lit ++ out) ps' := by
  by_cases hempty : lit = []
  · subst hempty
    exact ⟨ps, h⟩
  · rw [flushed_eq lit hempty]
    have hpos := List.length_pos_iff.mpr hempty
    exact ⟨_, h.cons ((Packet.inRange_lit_iff lit).mpr ⟨hpos, hlen⟩) (fun bs e => Packet.lit.inj e ▸ hlit) hnext⟩

/-- What the loop of the encoder knows of its pending literal block before the input `b`. -/
structure PendingBlock (lit b : List Byte) : Prop where
  short : lit.length < 128
  distinct : (lit ++ b.take 1).IsChain (· ≠ ·)

theorem pendingBlock_nil (b : List Byte) : PendingBlock [] b where
  short := by simp
  distinct := by cases b <;> simp

theorem PendingBlock.exists_greedyStream_at_end {lit : List Byte} (h : PendingBlock lit []) (fuel : Nat) :
    ∃ ps, GreedyStream (lit ++ []) (rleLoop fuel [] lit) ps := by
  have hlit : lit.IsChain (· ≠ ·) := by simpa using h.distinct
  rw [rleLoop_nil, ← List.append_nil (flushed lit)]
  exact greedyStream_nil.exists_flushed h.short.le hlit (by simp)

/-- A byte that starts no run differs from the byte after it. -/
theorem isChain_append_of_runLength_one {v : Byte} {rest lit : List Byte} (h : runLength v rest = 1)
    (hlit : (lit ++ [v]).IsChain (· ≠ ·)) : ((lit ++ [v]) ++ rest.take 1).IsChain (· ≠ ·) := by
  have hstop := runLength_stop v rest (by omega)
  rw [h] at hstop
  cases rest with
  | nil => simpa using hlit
  | cons b rest =>
    have hb : v ≠ b := by rintro rfl; exact hstop rfl
    simpa using ⟨hlit, hb⟩

/-- The loop of the encoder emits a greedy stream of its pending block and its input. -/
theorem rleLoop_greedyStream {fuel : Nat} :
    ∀ {b lit : List Byte}, b.length ≤ fuel → PendingBlock lit b →
      ∃ ps, GreedyStream (lit ++ b) (rleLoop fuel b lit) ps := by
  induction fuel with
  | zero =>
    intro b lit hb hp
    obtain rfl := List.eq_nil_of_length_eq_zero (Nat.le_zero.mp hb)
    exact hp.exists_greedyStream_at_end 0
  | succ fuel ih =>
    intro b lit hb hp
    cases b with
    | nil => exact hp.exists_greedyStream_at_end _
    | cons v rest =>
      have hdistinct : (lit ++ [v]).IsChain (· ≠ ·) := hp.distinct
      by_cases hr : 2 ≤ runLength v rest
      · obtain ⟨ps, hps⟩ := ih (length_drop_runLength_le hb) (pendingBlock_nil _)
        rw [rleLoop_of_run hr]
        refine (GreedyStream.cons_run hps hr).exists_flushed hp.short.le hdistinct.left_of_append fun p hfirst => ?_
        obtain rfl := Option.some.inj hfirst
        rfl
      · have hone := runLength_eq_one hr
        have hrest : rest.length ≤ fuel := Nat.le_of_succ_le_succ hb
        by_cases hcap : lit.length + 1 = 128
        · have hfull : (lit ++ [v]).length = 128 := by rw [List.length_append]; exact hcap
          obtain ⟨ps, hps⟩ := ih hrest (pendingBlock_nil rest)
          rw [rleLoop_of_cap hone hcap]
          simpa using hps.exists_flushed hfull.le hdistinct fun p _ => Packet.greedyBefore_of_full hfull p
        · rw [rleLoop_of_lit hone hcap]
          have hshort : (lit ++ [v]).length < 128 := by
            have := hp.short
            rw [List.length_append, List.length_singleton]
            omega
          simpa using ih hrest ⟨hshort, isChain_append_of_runLength_one hone hdistinct⟩

theorem rleEncode_greedyStream (b : List Byte) : ∃ ps, GreedyStream b (rleEncode b) ps :=
  rleLoop_greedyStream (Nat.le_refl _) (pendingBlock_nil b)

/-- Settles O23: every round of the loop keeps the stream of what is left greedy when its packets are put before it. -/
theorem rleOutputIsGreedyPackets : Obligations.RleOutputIsGreedyPackets := by
  unfold Obligations.RleOutputIsGreedyPackets
  intro b
  obtain ⟨ps, hps⟩ := rleEncode_greedyStream b
  exact ⟨ps, hps.inRange, hps.serial, hps.expand, hps.rule⟩

/-! ### The round trip (43_rle.md R141) -/

theorem rleDecode_rleEncode (b : List Byte) : rleDecode (rleEncode b) = some b := by
  obtain ⟨ps, hps⟩ := rleEncode_greedyStream b
  rw [hps.serial, rleDecode_of_packets hps.inRange, hps.expand]

/-- Settles O21: the encoder's output is a stream of packets in range, and the decoder gives back what such packets stand for. -/
theorem rleRoundTrip : Obligations.RleRoundTrip := by
  unfold Obligations.RleRoundTrip
  exact ⟨fun s b => ⟨rfl, exec_rleDecode_of_some (rleDecode_rleEncode b) s⟩, rfl, fun _ => rfl⟩

/-! ### Size (43_rle.md R138) -/

/-- A packet costs at most twice what it stands for, and exactly twice only as a literal of one byte. -/
theorem Packet.serial_length_le {q : Packet} (hq : q.inRange = true) :
    q.serial.length ≤ 2 * q.expand.length ∧
      (q.serial.length = 2 * q.expand.length → ∃ x, q = .lit [x]) := by
  cases q with
  | run len v =>
    obtain ⟨hlow, -⟩ := (Packet.inRange_run_iff len v).mp hq
    simp only [Packet.serial, Packet.expand, List.length_cons, List.length_nil, List.length_replicate]
    exact ⟨by omega, fun h => by omega⟩
  | lit bs =>
    obtain ⟨hlow, -⟩ := (Packet.inRange_lit_iff bs).mp hq
    simp only [Packet.serial, Packet.expand, List.length_cons, Packet.lit.injEq, ← List.length_eq_one_iff]
    exact ⟨by omega, fun h => by omega⟩

/-- Two packets that double what they stand for are no neighbours, so a stream that doubles has at most one packet. -/
theorem serial_length_le_of_greedy {ps : List Packet} (hrange : ∀ q ∈ ps, q.inRange = true) (hrule : greedy ps = true) :
    (ps.flatMap Packet.serial).length ≤ 2 * (ps.flatMap Packet.expand).length ∧
      ((ps.flatMap Packet.serial).length = 2 * (ps.flatMap Packet.expand).length → ps = [] ∨ ∃ x, ps = [.lit [x]]) := by
  induction ps with
  | nil => exact ⟨Nat.le_refl 0, fun _ => .inl rfl⟩
  | cons q ps ih =>
    rw [List.forall_mem_cons] at hrange
    obtain ⟨-, hnext, htail⟩ := (greedy_cons_iff q ps).mp hrule
    obtain ⟨hle, hdouble⟩ := Packet.serial_length_le hrange.1
    obtain ⟨hle', hdouble'⟩ := ih hrange.2 htail
    simp only [List.flatMap_cons, List.length_append]
    refine ⟨by omega, fun h => .inr ?_⟩
    obtain ⟨x, rfl⟩ := hdouble (by omega)
    obtain rfl | ⟨y, rfl⟩ := hdouble' (by omega)
    · exact ⟨x, rfl⟩
    · exact absurd (hnext (.lit [y]) rfl) (by simp [Packet.greedyBefore])

theorem GreedyStream.length_le {input out : List Byte} {ps : List Packet} (h : GreedyStream input out ps) :
    out.length ≤ 2 * input.length ∧ (out.length = 2 * input.length → input.length ≤ 1) := by
  obtain ⟨hle, hdouble⟩ := serial_length_le_of_greedy h.inRange h.rule
  rw [h.serial, ← h.expand]
  refine ⟨hle, fun hlen => ?_⟩
  obtain rfl | ⟨x, rfl⟩ := hdouble hlen <;> simp [Packet.expand]

theorem runLength_replicate (v : Byte) (n : Nat) : runLength v (List.replicate n v) = min (n + 1) 128 := by
  obtain ⟨-, hcap, hlen⟩ := runLength_bounds v (List.replicate n v)
  have hstop := runLength_stop v (List.replicate n v)
  rw [← List.replicate_succ] at hlen hstop
  rw [List.length_replicate] at hlen
  rw [List.getElem?_replicate] at hstop
  by_contra hne
  exact hstop (by omega) (if_pos (by omega))

/-- The loop on equal bytes with no block pending: one packet per 128 bytes, and one for the rest. -/
theorem rleLoop_replicate_length (v : Byte) {fuel : Nat} :
    ∀ {n : Nat}, n ≤ fuel → (rleLoop fuel (List.replicate n v) []).length = 2 * ((n + 127) / 128) := by
  induction fuel with
  | zero =>
    intro n hn
    obtain rfl := Nat.le_zero.mp hn
    rfl
  | succ fuel ih =>
    intro n hn
    match n with
    | 0 => rfl
    | 1 =>
      rw [List.replicate_succ, rleLoop_of_lit (lit := []) (runLength_replicate v 0) (by decide), List.replicate_zero,
        rleLoop_nil]
      rfl
    | m + 2 =>
      have hrun := runLength_replicate v (m + 1)
      have hrest := ih (n := m + 2 - min (m + 2) 128) (by omega)
      rw [List.replicate_succ, rleLoop_of_run (by omega), hrun, ← List.replicate_succ, List.drop_replicate,
        List.length_append, List.length_append, hrest, runPacket_length, flushed_nil, List.length_nil]
      omega

/-- Settles O22: the bound and its equality case from the greedy stream, the uniform inputs from the loop's rounds. -/
theorem rleEncodeSize : Obligations.RleEncodeSize := by
  unfold Obligations.RleEncodeSize
  refine ⟨fun b => ?_, fun n v => rleLoop_replicate_length v List.length_replicate.ge⟩
  obtain ⟨ps, hps⟩ := rleEncode_greedyStream b
  exact hps.length_le

end Sys2Proof.Machine
end

section
/-!
The run-length compressor's operations on the block's state (43_rle.md R132 to R135, R139), where they stop, and the RLE phase,
whose passes are the rounds of the encoder (R131; 45_sequencer.md R166, R175).
-/

namespace Sys2Proof.Machine

/-! ### RLE.MEASURE (43_rle.md R132) -/

theorem exec_rleMeasure_of_some {s : State} {r : Nat} (h : measureAt s = some r) :
    exec .rleMeasure s = .next { s with runlen := r } := by
  simp only [exec, execRleMeasure, h]

theorem exec_rleMeasure_of_none {s : State} (h : measureAt s = none) : exec .rleMeasure s = .refused .conditionNotMet := by
  simp only [exec, execRleMeasure, h]

/-- Each of the measured bytes is the first one. -/
theorem getElem?_of_lt_runLength {v : Byte} {rest : List Byte} {k : Nat} (h : k < runLength v rest) :
    (v :: rest)[k]? = some v := by
  rw [← List.getElem?_take_of_lt h, runLength_take, List.getElem?_replicate, if_pos h]

/-- Settles O26: the bytes from the cursor on are the list whose run is measured. -/
theorem rleMeasureMaximalRun : Obligations.RleMeasureMaximalRun := by
  unfold Obligations.RleMeasureMaximalRun
  intro s hcur
  obtain ⟨v, hv, hdrop, hmeasure⟩ := measureAt_of_lt s hcur
  obtain ⟨hpos, hcap, hlen⟩ := runLength_bounds v (s.buf.drop (s.cur + 1))
  have hbyte : ∀ k, s.buf[s.cur + k]? = (v :: s.buf.drop (s.cur + 1))[k]? := fun k => by rw [← hdrop, List.getElem?_drop]
  rw [← hdrop, List.length_drop] at hlen
  refine ⟨_, exec_rleMeasure_of_some hmeasure, hpos, hcap, by omega, fun k hk => ?_, fun hlt => ?_⟩
  · rw [hbyte, hv, getElem?_of_lt_runLength hk]
  · rw [hbyte, hv]
    exact runLength_stop v _ hlt

/-! ### RLE.RUN, RLE.LIT, RLE.FLUSH and RLE.BYPASS (43_rle.md R133, R134, R135, R139) -/

theorem flushed_eq_ite (lit : List Byte) : flushed lit = if lit = [] then [] else litPacket lit := by
  split
  next h => rw [h, flushed_nil]
  next h => exact flushed_eq lit h

/-- Settles O27: the condition holds, and `takeRun_eq` gives the state. -/
theorem rleRunEmitsPacket : Obligations.RleRunEmitsPacket := by
  unfold Obligations.RleRunEmitsPacket
  intro s n v hlow hword hbyte
  have hrun : exec (.rleRun n v) s = .next (takeRun v s) := if_pos ⟨hlow, hword, hbyte⟩
  rw [hrun, takeRun_eq, flushed_eq_ite]
  rfl

theorem exec_rleLit_of_byte {s : State} {v : Byte} (h : s.buf[s.cur]? = some v) :
    exec .rleLit s = if s.runlen = 1 then .next (takeLit v s) else .refused .conditionNotMet := by
  simp only [exec, execRleLit, h]

theorem exec_rleLit_of_no_byte {s : State} (h : s.buf[s.cur]? = none) : exec .rleLit s = .refused .conditionNotMet := by
  simp only [exec, execRleLit, h]

/-- Settles O28: the condition holds, and the literal packet of 128 bytes has control byte 7F. -/
theorem rleLitExtendsBlock : Obligations.RleLitExtendsBlock := by
  unfold Obligations.RleLitExtendsBlock
  intro s v hrunlen hbyte
  rw [exec_rleLit_of_byte hbyte, if_pos hrunlen, takeLit_eq]
  by_cases hcap : s.lit.length + 1 = 128
  · have hpacket : litPacket (s.lit ++ [v]) = 0x7F :: (s.lit ++ [v]) := by
      rw [litPacket, List.length_append, List.length_singleton, hcap]
      rfl
    rw [if_pos hcap, if_pos hcap, hpacket]
  · rw [if_neg hcap, if_neg hcap]

/-- Settles O29: a length of 1 to 128 less one fits the control byte. -/
theorem rleFlushEmitsLiteral : Obligations.RleFlushEmitsLiteral := by
  unfold Obligations.RleFlushEmitsLiteral
  exact fun s hlow hhigh => ⟨BitVec.ofNat 8 (s.lit.length - 1), Nat.mod_eq_of_lt (by omega), if_pos ⟨hlow, hhigh, rfl⟩⟩

theorem exec_rleBypass (s : State) :
    exec .rleBypass s = if s.job.rle = true then .refused .conditionNotMet else .next { s with pay := s.buf } := rfl

/-- Settles O30: JOB.RLE = 0 is the test of the operation. -/
theorem rleBypassCopiesBuffer : Obligations.RleBypassCopiesBuffer := by
  unfold Obligations.RleBypassCopiesBuffer
  intro s h
  rw [exec_rleBypass, if_neg (by simp [h])]

/-! ### Where the operations stop -/

theorem exec_rleRun_of_not {n : BitVec 7} {v : Byte} {s : State}
    (h : ¬(2 ≤ s.runlen ∧ s.runlen = n.toNat + 1 ∧ s.buf[s.cur]? = some v)) :
    exec (.rleRun n v) s = .refused .conditionNotMet := if_neg h

theorem exec_rleLit_of_runlen_ne_one {s : State} (h : s.runlen ≠ 1) : exec .rleLit s = .refused .conditionNotMet := by
  cases hbyte : s.buf[s.cur]? with
  | none => exact exec_rleLit_of_no_byte hbyte
  | some v => rw [exec_rleLit_of_byte hbyte, if_neg h]

theorem exec_rleFlush_of_not {data : List Byte} {s : State}
    (h : ¬(1 ≤ s.lit.length ∧ s.lit.length ≤ 128 ∧ s.lit = data)) :
    exec (.rleFlush data) s = .refused .conditionNotMet := if_neg h

/-- Settles O31: each clause is the negation of the condition its operation tests. -/
theorem rleConditionsStop : Obligations.RleConditionsStop := by
  unfold Obligations.RleConditionsStop
  refine fun s n v data => ⟨fun h => ⟨?_, ?_⟩, fun h => ?_, exec_rleLit_of_runlen_ne_one, fun h => ?_, fun h => ?_⟩
  · exact exec_rleMeasure_of_none (measureAt_of_ge s h)
  · exact exec_rleLit_of_no_byte (List.getElem?_eq_none h)
  · refine exec_rleRun_of_not fun ⟨hlow, hword, hbyte⟩ => ?_
    rcases h with h | h | h
    · omega
    · exact h hword
    · exact h hbyte
  · refine exec_rleFlush_of_not fun ⟨hlow, hhigh, hdata⟩ => ?_
    rcases h with h | h | h
    · simp [h] at hlow
    · omega
    · exact h hdata.symm
  · rw [exec_rleBypass, if_pos h]

/-! ### The RLE phase (45_sequencer.md R166, R175) -/

theorem cursorCase_inputLeft_iff (s : State) (hp : s.phase = .rle) :
    cursorCase s = .inputLeft ↔ s.cur < s.buf.length := by
  simp only [cursorCase, hp]
  split_ifs <;> simp_all

theorem step_silent_rleStep {s : State} (hh : s.host = []) (hp : s.phase = .rle) (hcur : s.cur < s.buf.length) :
    step s = exec .rleStep s := by
  refine step_silent hh ?_
  rw [phaseWord, (cursorCase_inputLeft_iff s hp).mpr hcur, hp]
  rfl

theorem step_silent_rleEnd {s : State} (hh : s.host = []) (hp : s.phase = .rle) (hcur : s.cur = s.buf.length) :
    step s = exec .rleEnd s := by
  refine step_silent hh ?_
  rw [phaseWord, (cursorCase_inputDone_iff s hp).mpr hcur, hp]
  rfl

theorem exec_rleStep_of_run {s : State} {v : Byte} {rest : List Byte} (hp : s.phase = .rle)
    (hd : s.buf.drop s.cur = v :: rest) (hr : 2 ≤ runLength v rest) :
    exec .rleStep s = .next (takeRun v { s with runlen := runLength v rest }) := by
  simp only [exec, execRleStep, hd, if_pos hp, if_pos hr]

theorem exec_rleStep_of_lit {s : State} {v : Byte} {rest : List Byte} (hp : s.phase = .rle)
    (hd : s.buf.drop s.cur = v :: rest) (hr : runLength v rest = 1) :
    exec .rleStep s = .next (takeLit v { s with runlen := 1 }) := by
  simp only [exec, execRleStep, hd, if_pos hp, hr, Nat.reduceLeDiff, if_false]

theorem exec_rleEnd_of_inputDone {s : State} (hp : s.phase = .rle) (hcur : s.cur = s.buf.length) :
    exec .rleEnd s = .next { s with pay := s.pay ++ flushed s.lit, lit := [], phase := .emit } := by
  have hcase := (cursorCase_inputDone_iff s hp).mpr hcur
  have hsome : exec .rleEnd s = .next { (if 0 < s.lit.length then flushLit s else s) with phase := .emit } :=
    if_pos ⟨hp, hcase⟩
  rw [hsome, (exec_rleEnd_next hsome).2.2]

/-- The end of the RLE phase from `s`, with `out` appended to PAY and `r` the last measured run. -/
def rlePhaseEnd (s : State) (out : List Byte) (r : Nat) : State :=
  { s with phase := .emit, pay := s.pay ++ out, lit := [], cur := s.buf.length, runlen := r }

theorem run_rlePhase_of_inputDone {s : State} (hp : s.phase = .rle) (hh : s.host = []) (hcur : s.cur = s.buf.length)
    (fuel : Nat) :
    core.run 1 s = .next (rlePhaseEnd s (rleLoop fuel (s.buf.drop s.cur) s.lit) s.runlen) := by
  have hstep := (step_silent_rleEnd hh hp hcur).trans (exec_rleEnd_of_inputDone hp hcur)
  have hloop : rleLoop fuel (s.buf.drop s.cur) s.lit = flushed s.lit := by
    rw [List.drop_eq_nil_of_le hcur.ge, rleLoop_nil]
  rw [run_next 0 _ _ hstep, run_zero, hloop, rlePhaseEnd, ← hcur]

/-- `t` is `s` after one pass of the phase: a round of the encoder's loop, after which the phase has the same end. -/
structure RlePass (s t : State) : Prop where
  phase : t.phase = .rle
  host : t.host = []
  buf : t.buf = s.buf
  curLt : s.cur < t.cur
  curLe : t.cur ≤ s.buf.length
  sameEnd : ∀ fuel r, rlePhaseEnd t (rleLoop fuel (t.buf.drop t.cur) t.lit) r =
    rlePhaseEnd s (rleLoop (fuel + 1) (s.buf.drop s.cur) s.lit) r

theorem rlePass_takeRun {s : State} {v : Byte} {rest : List Byte} (hp : s.phase = .rle) (hh : s.host = [])
    (hd : s.buf.drop s.cur = v :: rest) (hr : 2 ≤ runLength v rest) :
    RlePass s (takeRun v { s with runlen := runLength v rest }) := by
  have hlen := (runLength_bounds v rest).2.2
  rw [← hd, List.length_drop] at hlen
  rw [takeRun_eq]
  refine ⟨hp, hh, rfl, by simp only; omega, by simp only; omega, fun fuel r => ?_⟩
  rw [hd, rleLoop_of_run hr, ← hd, List.drop_drop]
  simp only [rlePhaseEnd, List.append_assoc]

theorem rlePass_takeLit {s : State} {v : Byte} {rest : List Byte} (hp : s.phase = .rle) (hh : s.host = [])
    (hd : s.buf.drop s.cur = v :: rest) (hr : runLength v rest = 1) : RlePass s (takeLit v { s with runlen := 1 }) := by
  have hcur : s.cur < s.buf.length := by
    by_contra h
    rw [List.drop_eq_nil_of_le (Nat.le_of_not_lt h)] at hd
    cases hd
  have hrest : s.buf.drop (s.cur + 1) = rest := by rw [← List.drop_drop, hd, List.drop_one, List.tail_cons]
  rw [takeLit_eq]
  split
  next hcap =>
    refine ⟨hp, hh, rfl, Nat.lt_succ_self _, hcur, fun fuel r => ?_⟩
    rw [hd, rleLoop_of_cap hr hcap, flushed_eq _ (by simp)]
    simp only [rlePhaseEnd, hrest, List.append_assoc]
  next hcap =>
    refine ⟨hp, hh, rfl, Nat.lt_succ_self _, hcur, fun fuel r => ?_⟩
    rw [hd, rleLoop_of_lit hr hcap]
    simp only [rlePhaseEnd, hrest]

theorem exists_rlePass {s : State} (hp : s.phase = .rle) (hh : s.host = []) (hcur : s.cur < s.buf.length) :
    ∃ t, step s = .next t ∧ RlePass s t := by
  have hstep := step_silent_rleStep hh hp hcur
  have hd := List.drop_eq_getElem_cons hcur
  by_cases hr : 2 ≤ runLength s.buf[s.cur] (s.buf.drop (s.cur + 1))
  · exact ⟨_, hstep.trans (exec_rleStep_of_run hp hd hr), rlePass_takeRun hp hh hd hr⟩
  · have hone := runLength_eq_one hr
    exact ⟨_, hstep.trans (exec_rleStep_of_lit hp hd hone), rlePass_takeLit hp hh hd hone⟩

/-- With at most `fuel` bytes left, one step per pass and RLE.END bring the phase to the end that the encoder's loop gives. -/
theorem run_rlePhase {fuel : Nat} :
    ∀ {s : State}, s.phase = .rle → s.host = [] → s.cur ≤ s.buf.length → s.buf.length ≤ s.cur + fuel →
      ∃ k r, k ≤ fuel + 1 ∧ core.run k s = .next (rlePhaseEnd s (rleLoop fuel (s.buf.drop s.cur) s.lit) r) := by
  induction fuel with
  | zero =>
    intro s hp hh hle hfuel
    exact ⟨1, s.runlen, Nat.le_refl 1, run_rlePhase_of_inputDone hp hh (Nat.le_antisymm hle hfuel) 0⟩
  | succ fuel ih =>
    intro s hp hh hle hfuel
    rcases Nat.eq_or_lt_of_le hle with hdone | hleft
    · exact ⟨1, s.runlen, by omega, run_rlePhase_of_inputDone hp hh hdone _⟩
    · obtain ⟨t, hstep, hpass⟩ := exists_rlePass hp hh hleft
      have hlt := hpass.curLt
      obtain ⟨k, r, hk, hrun⟩ := ih hpass.phase hpass.host (by rw [hpass.buf]; exact hpass.curLe)
        (by rw [hpass.buf]; omega)
      exact ⟨k + 1, r, Nat.succ_le_succ hk, by rw [run_next k s t hstep, hrun, hpass.sameEnd]⟩

/-- Settles O32: the loop of the encoder on all of BUF. -/
theorem rlePhaseComputesEncoding : Obligations.RlePhaseComputesEncoding := by
  unfold Obligations.RlePhaseComputesEncoding
  intro s hp hcur hlit hpay hh
  have hdrop : s.buf.drop s.cur = s.buf := by rw [hcur, List.drop_zero]
  obtain ⟨k, r, hk, hrun⟩ := run_rlePhase (fuel := s.buf.length) hp hh (by omega) (by omega)
  refine ⟨k, r, hk, ?_⟩
  rw [hrun, rlePhaseEnd, hdrop, hlit, hpay, List.nil_append, rleEncode]

end Sys2Proof.Machine
end

section
/-!
The binary header writer (44_header.md): what HDR.WRITE answers for a length within 32 bits and beyond (R152), and where each
field stands in the header's bytes (R151).
-/

namespace Sys2Proof.Machine

/-! ### HDR.WRITE (44_header.md R152) -/

theorem exec_hdrWrite_of_lt {len : Nat} (h : len < 2 ^ 32) (width height : Half) (flags kind : Byte) (mode : Half) (s : State) :
    exec (.hdrWrite width height flags kind mode len) s = .next
      { s with out := hdrBytes width height flags kind mode len ++ s.out.drop 14,
               ret := .bytes (hdrBytes width height flags kind mode len) } := by
  have hfits : ¬ lenMax < len := Nat.not_lt.mpr (Nat.le_sub_one_of_lt h)
  simp only [exec, execHdrWrite, if_neg hfits, memWrite_zero, hdrBytes_length, withRet]

theorem exec_hdrWrite_of_ge {len : Nat} (h : 2 ^ 32 ≤ len) (width height : Half) (flags kind : Byte) (mode : Half) (s : State) :
    exec (.hdrWrite width height flags kind mode len) s = .next (raise .headerFieldRange s) :=
  if_pos (Nat.sub_one_lt_of_le (by decide) h)

/-! ### The fields of the header (44_header.md R151) -/

section
variable (width height : Half) (flags kind : Byte) (mode : Half) (len : Nat)

theorem hdrBytes_magic : (hdrBytes width height flags kind mode len).take 2 = [0x44, 0x32] := rfl

theorem hdrBytes_width : ((hdrBytes width height flags kind mode len).drop 2).take 2 = leBytes 2 width.toNat := rfl

theorem hdrBytes_height : ((hdrBytes width height flags kind mode len).drop 4).take 2 = leBytes 2 height.toNat := rfl

theorem hdrBytes_flags_kind : ((hdrBytes width height flags kind mode len).drop 6).take 2 = [flags, kind] := rfl

theorem hdrBytes_mode : ((hdrBytes width height flags kind mode len).drop 8).take 2 = leBytes 2 mode.toNat := rfl

theorem hdrBytes_payloadLength : (hdrBytes width height flags kind mode len).drop 10 = leBytes 4 len := rfl

end

theorem leValue_leBytes_half (v : Half) : leValue (leBytes 2 v.toNat) = v.toNat :=
  leValue_leBytes_of_lt (n := 2) v.isLt

/-- Settles O33: the bytes are `hdrBytes`, whose fields are little-endian words that fit, and the other length is the one raise. -/
theorem headerWriteBytes : Obligations.HeaderWriteBytes := by
  unfold Obligations.HeaderWriteBytes
  intro s width height mode flags kind len
  refine ⟨fun hlen => ⟨hdrBytes width height flags kind mode len, hdrBytes_length .., exec_hdrWrite_of_lt hlen ..,
    hdrBytes_magic .., ?width, ?height, hdrBytes_flags_kind .., ?mode, ?payloadLength⟩,
    fun hlen => exec_hdrWrite_of_ge hlen ..⟩
  case width => rw [hdrBytes_width, leValue_leBytes_half]
  case height => rw [hdrBytes_height, leValue_leBytes_half]
  case mode => rw [hdrBytes_mode, leValue_leBytes_half]
  case payloadLength => rw [hdrBytes_payloadLength, leValue_leBytes_of_lt (n := 4) hlen]

end Sys2Proof.Machine
end

section
/-!
The round trip of the encodings (30_encoding.md R61, R64, R76, R77, R79, R88): for each word format the decoder reads back the
operands the encoder wrote.
-/

namespace Sys2Proof.Machine

/-! ### Words of two and four bytes, low byte first -/

theorem append_bytes_half (v : Half) : (BitVec.ofNat 8 (v.toNat / 256) ++ BitVec.ofNat 8 v.toNat : Half) = v := by
  have hlt := v.isLt
  apply BitVec.eq_of_toNat_eq
  rw [append_toNat, BitVec.toNat_ofNat, BitVec.toNat_ofNat]
  omega

theorem append_bytes_word (v : Word) :
    (BitVec.ofNat 8 (v.toNat / 256 / 256 / 256) ++ BitVec.ofNat 8 (v.toNat / 256 / 256) ++ BitVec.ofNat 8 (v.toNat / 256) ++
      BitVec.ofNat 8 v.toNat : Word) = v := by
  have hlt := v.isLt
  apply BitVec.eq_of_toNat_eq
  simp only [append4_toNat, BitVec.toNat_ofNat]
  omega

/-! ### MODE16 -/

theorem decodeOption_encodeOption (o : Option Byte) :
    ∃ present value, encodeOption o = [present, value] ∧ decodeOption present value = some o := by
  cases o with
  | none => exact ⟨0, 0, rfl, rfl⟩
  | some v => exact ⟨1, v, rfl, rfl⟩

theorem decodeDirect_bytes (f : Direct → Instr) (tok : Direct) : decodeDirect f tok.bytes = .ok (f tok) := rfl

theorem decodeIndexed_bytes (f : Indexed → Instr) (tok : Indexed) : decodeIndexed f tok.bytes = .ok (f tok) := by
  obtain ⟨present, value, hbytes, hdecode⟩ := decodeOption_encodeOption tok.alpha
  simp only [Indexed.bytes, hbytes, decodeIndexed, hdecode]

theorem decodeMasked_bytes (f : Indexed → Option Byte → Instr) (tok : Indexed) (m : Option Byte) :
    decodeMasked f (tok.bytes ++ encodeOption m) = .ok (f tok m) := by
  obtain ⟨present, value, hbytes, hdecode⟩ := decodeOption_encodeOption tok.alpha
  obtain ⟨maskPresent, maskValue, hmaskBytes, hmaskDecode⟩ := decodeOption_encodeOption m
  simp only [Indexed.bytes, hbytes, hmaskBytes, List.cons_append, List.nil_append, decodeMasked, hdecode, hmaskDecode]

/-- In an admissible table the mode word names its mode (30_encoding.md R63, R64). -/
theorem decode_encodeEnc {p : Params} (hwf : p.modeCode.wf) (n : FormatName) (rle : Bool) (ops : List Byte) :
    decode p (encodeEnc p.modeCode n rle ops) = decodeEnc n rle ops := by
  rw [← decodeMode16_modeValue (p.modeCode.nameOf_code hwf n) rle ops]
  exact congrArg (decodeMode16 p.modeCode · ops) (append_bytes_half _)

/-! ### The other formats -/

/-- A run's control byte is the count below a set bit (30_encoding.md R76). -/
theorem runControl_fields : ∀ n : BitVec 7, n ≠ 0 →
    (1#1 ++ n : Byte) ≠ 128 ∧ (1#1 ++ n : Byte).getLsbD 7 = true ∧ (1#1 ++ n : Byte).extractLsb' 0 7 = n := by decide

theorem decodePacket_run {n : BitVec 7} (h : n ≠ 0) (v : Byte) : decodePacket [(1#1 ++ n : Byte), v] = .ok (.rleRun n v) := by
  obtain ⟨hreserved, hbit, hcount⟩ := runControl_fields n h
  rw [decodePacket, if_neg hreserved, if_pos hbit, hcount]

/-- A literal's control byte is below 0x80 (30_encoding.md R77). -/
theorem decodePacket_lit {data : List Byte} (hlow : 1 ≤ data.length) (hhigh : data.length ≤ 128) :
    decodePacket (litPacket data) = .ok (.rleFlush data) := by
  have hval : (BitVec.ofNat 8 (data.length - 1)).toNat = data.length - 1 := Nat.mod_eq_of_lt (by omega)
  have hreserved : BitVec.ofNat 8 (data.length - 1) ≠ 128 := fun h => by
    have : data.length - 1 = 128 := hval.symm.trans (congrArg BitVec.toNat h)
    omega
  have hbit : ¬ (BitVec.ofNat 8 (data.length - 1)).getLsbD 7 = true := by
    have hmsb : (BitVec.ofNat 8 (data.length - 1)).msb = false := BitVec.msb_eq_false_iff_two_mul_lt.mpr (by omega)
    exact Bool.eq_false_iff.mp hmsb
  exact (if_neg hreserved).trans ((if_neg hbit).trans (if_pos (by omega)))

theorem decodeHdr14_hdrBytes (width height : Half) (flags kind : Byte) (mode : Half) {len : Nat} (h : len < 2 ^ 32) :
    decodeHdr14 (hdrBytes width height flags kind mode len) = .ok (.hdrWrite width height flags kind mode len) := by
  have hlen : leValue (leBytes 4 len) = len := leValue_leBytes_of_lt (n := 4) h
  have hfields : decodeHdr14 (hdrBytes width height flags kind mode len) =
      .ok (.hdrWrite (BitVec.ofNat 8 (width.toNat / 256) ++ BitVec.ofNat 8 width.toNat)
        (BitVec.ofNat 8 (height.toNat / 256) ++ BitVec.ofNat 8 height.toNat) flags kind
        (BitVec.ofNat 8 (mode.toNat / 256) ++ BitVec.ofNat 8 mode.toNat) (leValue (leBytes 4 len))) := rfl
  rw [hfields, append_bytes_half, append_bytes_half, append_bytes_half, hlen]

theorem registerByte_toNat {k : Nat} (h : k < 256) : (BitVec.ofNat 8 k).toNat = k := Nat.mod_eq_of_lt h

theorem decodeWrreg_bytes {k : Nat} (h : k < 256) (v : Word) :
    decodeWrreg (BitVec.ofNat 8 k :: leBytes 4 v.toNat) = .ok (.wrreg k v) := by
  have hfields : decodeWrreg (BitVec.ofNat 8 k :: leBytes 4 v.toNat) =
      .ok (.wrreg (BitVec.ofNat 8 k).toNat (BitVec.ofNat 8 (v.toNat / 256 / 256 / 256) ++
        BitVec.ofNat 8 (v.toNat / 256 / 256) ++ BitVec.ofNat 8 (v.toNat / 256) ++ BitVec.ofNat 8 v.toNat)) := rfl
  rw [hfields, registerByte_toNat h, append_bytes_word]

theorem decodeInternal_modeDerive (base : BitVec 4) (useRle : Bool) :
    decodeInternal .modeDerive [base.setWidth 8, if useRle then 1 else 0] = .ok (.modeDerive base useRle) := by
  revert base useRle
  decide

theorem decodeInternal_pack (value : Byte) {w : Nat} (h : (Instr.pack value w).wellFormed = true) :
    decodeInternal .pack [value, BitVec.ofNat 8 w] = .ok (.pack value w) := by
  have hw : (BitVec.ofNat 8 w).toNat = w := by
    simp only [Instr.wellFormed, Bool.or_eq_true, beq_iff_eq] at h
    exact registerByte_toNat (by omega)
  rw [decodeInternal, hw, if_pos h]

/-- Settles O1: each operation's word goes back to it through the decoder of its format. -/
theorem decodeEncodeRoundTrip : Obligations.DecodeEncodeRoundTrip := by
  unfold Obligations.DecodeEncodeRoundTrip
  intro p i hwf hi
  cases i with
  | encAlpha8 | encArgb4444 | encArgb1555 | encRgba4444 | encRgba5551 | encAlpha4 | encAlpha2 | encAlpha1 =>
    exact decode_encodeEnc hwf _ _ _
  | encRgb565 | encArgb8888 | encRgba8888 => exact (decode_encodeEnc hwf _ _ _).trans (decodeDirect_bytes _ _)
  | encI8 | encI4 | encI2 | encI1 => exact (decode_encodeEnc hwf _ _ _).trans (decodeIndexed_bytes _ _)
  | encAi44 => exact (decode_encodeEnc hwf _ _ _).trans (decodeMasked_bytes _ _ _)
  | rleRun n v => exact decodePacket_run (bne_iff_ne.mp hi) v
  | rleFlush data =>
    obtain ⟨hlow, hhigh⟩ := Bool.and_eq_true_iff.mp hi
    exact decodePacket_lit (of_decide_eq_true hlow) (of_decide_eq_true hhigh)
  | hdrWrite width height flags kind mode len => exact decodeHdr14_hdrBytes _ _ _ _ _ (of_decide_eq_true hi)
  | srst startBit => cases startBit <;> rfl
  | rdreg k => exact congrArg (fun j => Except.ok (Instr.rdreg j)) (registerByte_toNat (of_decide_eq_true hi))
  | wrreg k v => exact decodeWrreg_bytes (of_decide_eq_true hi) v
  | modeDerive base useRle => exact decodeInternal_modeDerive base useRle
  | pack value w => exact decodeInternal_pack value hi
  | rleReserved80 | start | check | encodePixel | encodeRowend | encodeEnd | rleStep | rleEnd | emit => rfl
  | resolve | premul | rowBegin | flushRow | rleEncode | rleMeasure | rleLit | rleBypass | rleDecode => rfl

end Sys2Proof.Machine
end

section
/-!
The sequencer (45_sequencer.md), operation by operation: what a silent host's step runs (section 3, R168), the host's register accesses
(R161, R162, R169), and the seven steps of a conversion (R163 to R167, R174, R175).
-/

namespace Sys2Proof.Machine

/-! ### What a step runs (45_sequencer.md section 3) -/

/-- Settles O5: the host's word is decoded and its operation executed on the state with the move taken off. -/
theorem stepRunsHostWord : Obligations.StepRunsHostWord := by
  unfold Obligations.StepRunsHostWord
  exact fun s w rest i hh hd => step_op_of_ok hh hd

/-- A host with no move left and a host whose move is silent leave the step to the block. -/
theorem step_of_silent {s t : State}
    (h : s.host = [] ∧ t = s ∨ ∃ rest, s.host = .silent :: rest ∧ t = { s with host := rest }) :
    step s = runFetched (fetchBlock t) := by
  obtain ⟨hh, rfl⟩ | ⟨rest, hh, rfl⟩ := h
  · simp only [step_eq, fetch, hh]
  · exact step_move hh

theorem decode_phaseWord_of_enabled {s : State} {c : CursorCase} {p : Phase} {i : Instr} (hc : cursorCase s = c)
    (hp : s.phase = p) (h : decodePhase3 c [p.code] = .ok i) : decode s.params (phaseWord s) = .ok i := by
  rw [phaseWord, hc, hp]
  exact h

theorem runFetched_fetchBlock {s : State} {i : Instr} (h : decode s.params (phaseWord s) = .ok i) :
    runFetched (fetchBlock s) = exec i s := by
  simp only [fetchBlock, h, runFetched]

theorem cursorCase_check {s : State} (hp : s.phase = .check) : cursorCase s = .any := by simp only [cursorCase, hp]

theorem cursorCase_emit {s : State} (hp : s.phase = .emit) : cursorCase s = .any := by simp only [cursorCase, hp]

/-- In IDLE, DONE and FAULT nothing is enabled (45_sequencer.md R168). -/
theorem fetchBlock_of_held {s : State} (hp : s.phase = .idle ∨ s.phase = .done ∨ s.phase = .fault) :
    fetchBlock s = .answer (.next s) := by
  have hd : decode s.params (phaseWord s) = .error .noStepInPhase := by
    rcases hp with hp | hp | hp <;> simp only [phaseWord, cursorCase, hp] <;> rfl
  simp only [fetchBlock, hd]

/-- Settles O6: in each phase the cursors select one PHASE3 word, which decodes to the enabled operation or to none. -/
theorem silentStepRunsEnabledOperation : Obligations.SilentStepRunsEnabledOperation := by
  unfold Obligations.SilentStepRunsEnabledOperation
  intro s t h
  rw [step_of_silent h]
  have hsame : t.phase = s.phase ∧ t.job = s.job ∧ t.x = s.x ∧ t.y = s.y ∧ t.cur = s.cur ∧ t.buf = s.buf := by
    obtain ⟨-, rfl⟩ | ⟨rest, -, rfl⟩ := h <;> exact ⟨rfl, rfl, rfl, rfl, rfl, rfl⟩
  obtain ⟨hphase, hjob, hx, hy, hcur, hbuf⟩ := hsame
  rw [← hphase, ← hjob, ← hx, ← hy, ← hcur, ← hbuf]
  refine ⟨fun hp => ?check, fun hp hy hx => ?pixel, fun hp hy hx => ?rowend, fun hp hy => ?imageEnd, fun hp hc => ?rleStep,
    fun hp hc => ?rleEnd, fun hp => ?emit, fun hp => ?held⟩
  case held => rw [fetchBlock_of_held hp, runFetched]
  all_goals apply runFetched_fetchBlock
  case check => exact decode_phaseWord_of_enabled (cursorCase_check hp) hp rfl
  case pixel => exact decode_phaseWord_of_enabled ((cursorCase_pixelLeft_iff t hp).mpr ⟨hy, hx⟩) hp rfl
  case rowend => exact decode_phaseWord_of_enabled ((cursorCase_rowDone_iff t hp).mpr ⟨hy, hx⟩) hp rfl
  case imageEnd => exact decode_phaseWord_of_enabled ((cursorCase_imageDone_iff t hp).mpr hy) hp rfl
  case rleStep => exact decode_phaseWord_of_enabled ((cursorCase_inputLeft_iff t hp).mpr hc) hp rfl
  case rleEnd => exact decode_phaseWord_of_enabled ((cursorCase_inputDone_iff t hp).mpr hc) hp rfl
  case emit => exact decode_phaseWord_of_enabled (cursorCase_emit hp) hp rfl

/-! ### The host's operations (45_sequencer.md R161, R162, R169) -/

theorem exec_start (s : State) : exec .start s = .next (startState s) := rfl

/-- Settles O34: the latch by its fields. -/
theorem startLatchesJob : Obligations.StartLatchesJob := by
  unfold Obligations.StartLatchesJob
  refine fun s => ⟨fun hp => ?_, fun hp => ?_⟩
  · rw [exec_start, startState_of_busy s ((Phase.busy_iff _).mpr hp)]
  · rw [exec_start, startState_of_not_busy s ((Phase.not_busy_iff _).mpr hp), latchJob, descLayout_eq]
    rfl

/-- Settles O35: SRST and the reset input are both `resetState`, whose values are those of `State.reset`. -/
theorem resetsGiveResetState : Obligations.ResetsGiveResetState := by
  unfold Obligations.ResetsGiveResetState
  exact fun s startBit rest => ⟨rfl, fun hh => step_move hh, rfl⟩

/-- Settles O36: register by register; STATUS is the sum of its flags. -/
theorem registerReadValues : Obligations.RegisterReadValues := by
  unfold Obligations.RegisterReadValues
  refine fun s k => ⟨readRegister s k, rfl, ?_⟩
  unfold readRegister
  split
  case h_1 => simp only [status_toNat, Phase.busy_iff, if_true]
  case h_9 h1 h2 h3 h4 h5 h6 h7 h8 =>
    rw [if_neg h1, if_neg h2, if_neg h3, if_neg h4, if_neg h5, if_neg h6, if_neg h7, if_neg h8]
  all_goals rfl

theorem exec_wrreg_of_not_busy {s : State} (hb : s.phase.busy = false) {k : Nat} (hk : k ≠ 0) (v : Word) :
    exec (.wrreg k v) s = .next (writeConfig k v s) := by
  simp only [exec, execWrreg, writeRegister, if_neg hk, hb, Bool.false_eq_true, if_false]

theorem exec_wrreg_of_busy {s : State} (hb : s.phase.busy = true) {k : Nat} (hk : k ≠ 0) (v : Word) :
    exec (.wrreg k v) s = .next s := by
  simp only [exec, execWrreg, writeRegister, if_neg hk, hb, if_true]

theorem setWidth_eq_ofNat_mod (v : Word) {n m : Nat} (h : 2 ^ n = m) : v.setWidth n = BitVec.ofNat n (v.toNat % m) :=
  BitVec.eq_of_toNat_eq (by simp [← h])

/-- The writable bits of CFG (10_state.md R23). -/
theorem getLsbD_cfgWritable : ∀ b < 16, cfgWritable.getLsbD b = decide (b ∈ [0, 1, 2, 3, 4, 8, 9]) := by decide

/-- Settles O37: each register takes its low bits of the data, CFG masked. -/
theorem configurationWrites : Obligations.ConfigurationWrites := by
  unfold Obligations.ConfigurationWrites
  intro s v hp
  have hb := (Phase.not_busy_iff _).mpr hp
  have hwrite : ∀ k, k ≠ 0 → exec (.wrreg k v) s = .next (writeConfig k v s) := fun k hk => exec_wrreg_of_not_busy hb hk v
  refine ⟨⟨v.setWidth 16 &&& cfgWritable, hwrite 2 (by decide), fun b hlt => ?_⟩, ?_, ?_, ?_, ?_⟩
  · rw [BitVec.getLsbD_and, BitVec.getLsbD_setWidth, getLsbD_cfgWritable b hlt, decide_eq_true hlt, Bool.true_and]
  · rw [hwrite 3 (by decide), writeConfig, setWidth_eq_ofNat_mod v (by decide : 2 ^ 4 = 16)]
  · rw [hwrite 4 (by decide), writeConfig, setWidth_eq_ofNat_mod v (by decide : 2 ^ 16 = 65536)]
  · rw [hwrite 5 (by decide), writeConfig, setWidth_eq_ofNat_mod v (by decide : 2 ^ 16 = 65536)]
  · rw [hwrite 6 (by decide), writeConfig, setWidth_eq_ofNat_mod v (by decide : 2 ^ 16 = 65536)]

theorem writeConfig_of_not_writable {k : Nat} (hk : k ∉ [2, 3, 4, 5, 6]) (v : Word) (s : State) : writeConfig k v s = s := by
  unfold writeConfig
  split <;> simp_all

/-- Settles O38: BUSY stops every write but CTRL's, and a number outside 2 to 6 names no writable register. -/
theorem ignoredRegisterWrites : Obligations.IgnoredRegisterWrites := by
  unfold Obligations.IgnoredRegisterWrites
  intro s k v h
  have hk : k ≠ 0 := by
    rintro rfl
    simp at h
  cases hb : s.phase.busy with
  | true => exact exec_wrreg_of_busy hb hk v
  | false =>
    have hout : k ∉ [2, 3, 4, 5, 6] := by
      rcases h with ⟨-, hp⟩ | hro | hlt
      · rw [(Phase.busy_iff _).mpr hp] at hb
        cases hb
      · simp only [List.mem_cons, List.not_mem_nil, or_false] at hro ⊢
        omega
      · simp only [List.mem_cons, List.not_mem_nil, or_false]
        omega
    rw [exec_wrreg_of_not_busy hb hk, writeConfig_of_not_writable hout]

end Sys2Proof.Machine
end

section
/-!
The seven steps of a conversion, one by one (45_sequencer.md R163 to R167, R174, R175).
-/

namespace Sys2Proof

/-! ### CHECK (45_sequencer.md R163) -/

theorem FormatName.mem_direct_iff (n : FormatName) : n ∈ [.argb8888, .rgba8888, .rgb565] ↔ n.isDirect = true := by
  cases n <;> decide

theorem FormatName.mem_indexed_iff (n : FormatName) : n ∈ [.ai44, .i8, .i4, .i2, .i1] ↔ n.isIndexed = true := by
  cases n <;> decide

theorem FormatName.mem_supported_iff (n : FormatName) :
    n ∈ [.argb8888, .rgba8888, .rgb565, .ai44, .i8, .i4, .i2, .i1] ↔ n.supported = true := by
  cases n <;> decide

namespace Machine

/-- CHECK is the fault `checkJob` gives, or the start of ENCODE. -/
theorem exec_check_eq {s : State} (hp : s.phase = .check) :
    exec .check s = (checkJob s.params s.job).elim
      (.next { s with acc := 0, bits := 0, rowWidth := none, phase := .encode }) (fun c => .next (raise c s)) := by
  simp only [exec, execCheck, if_pos hp]
  cases checkJob s.params s.job <;> rfl

theorem exec_check_of_some {s : State} {c : Cause} (hp : s.phase = .check) (h : checkJob s.params s.job = some c) :
    exec .check s = .next (raise c s) := by
  rw [exec_check_eq hp, h, Option.elim_some]

theorem exec_check_of_none {s : State} (hp : s.phase = .check) (h : checkJob s.params s.job = none) :
    exec .check s = .next { s with acc := 0, bits := 0, rowWidth := none, phase := .encode } := by
  rw [exec_check_eq hp, h, Option.elim_none]

theorem exceeds_eq_any (cap : Option Nat) (n : Nat) : exceeds cap n = cap.any (fun c => decide (c < n)) := by
  cases cap <;> rfl

/-- The tests of CHECK on a job whose code names the mode `n`. -/
theorem checkJob_of_nameOf {p : Params} {job : Job} {n : FormatName} (h : p.modeCode.nameOf job.fmt = some n) :
    checkJob p job =
      if job.layout = .other then some .unsupportedSourcePixelLayout
      else if job.maskEn = true ∧ job.maskOk = false then some .maskUnavailableOrInvalid
      else if n.supported = false then some .unsupportedTargetMode
      else if n.isDirect = true ∧ job.layout = .indexed then some .unsupportedSourcePixelLayout
      else if n.isIndexed = true ∧ job.layout ∈ [.rgb, .rgba] then some .unsupportedSourcePixelLayout
      else if exceeds p.bufCap (imageBytes n job) then some .capacityExceeded
      else none := by
  simp only [checkJob, h, Bool.and_eq_true, Bool.not_eq_true', Bool.or_eq_true, beq_iff_eq, List.mem_cons, List.not_mem_nil,
    or_false]

/-- Settles O42: the code names the mode, and the tests of `checkJob` on it are those of the statement, one by one. -/
theorem checkTestsInOrder : Obligations.CheckTestsInOrder := by
  unfold Obligations.CheckTestsInOrder
  intro s n hwf hp hfmt
  have hn : s.params.modeCode.nameOf s.job.fmt = some n := hfmt ▸ s.params.modeCode.nameOf_code hwf n
  rw [exec_check_eq hp, checkJob_of_nameOf hn, exceeds_eq_any, imageBytes]
  simp only [FormatName.mem_direct_iff, FormatName.mem_indexed_iff, FormatName.mem_supported_iff, Bool.not_eq_true]
  split_ifs <;> rfl

/-! ### ENCODE.PIXEL (45_sequencer.md R164) -/

section
variable {s : State} (hp : s.phase = .encode) (hy : s.y < s.job.h.toNat) (hx : s.x < s.job.w.toNat)
include hp hy hx

theorem exec_encodePixel_of_bytes {bs : List Byte} (h : pixelAt s = .bytes bs) :
    exec .encodePixel s = .next { s with buf := s.buf ++ bs, x := s.x + 1 } := by
  have henabled : s.phase = .encode ∧ cursorCase s = .pixelLeft := ⟨hp, (cursorCase_pixelLeft_iff s hp).mpr ⟨hy, hx⟩⟩
  simp only [exec, execEncodePixel, if_pos henabled, h, bufAppend]

theorem exec_encodePixel_of_bits {v : Byte} {w : Nat} (h : pixelAt s = .bits v w) (hw : packAllowed s w = true) :
    exec .encodePixel s = .next { packedState v w s with x := s.x + 1 } := by
  have henabled : s.phase = .encode ∧ cursorCase s = .pixelLeft := ⟨hp, (cursorCase_pixelLeft_iff s hp).mpr ⟨hy, hx⟩⟩
  simp only [exec, execEncodePixel, if_pos henabled, h, if_pos hw]

end

/-- The transform of a mode that has one, on a direct token (41_pixel_encode.md R100). -/
theorem pixelAt_direct {s : State} {n : FormatName} {tok : Direct} (hn : s.params.modeCode.nameOf s.job.fmt = some n)
    (hs : n.supported = true) (ht : srcRead s.job.layout s.job.idxAlpha s.src s.x s.y = some (.direct tok)) :
    pixelAt s = encodeDirect s.params.wordOrder s.job.layout n tok := by
  simp only [pixelAt, pixelOut, hn, hs, ht, if_true]

theorem pixelAt_indexed {s : State} {n : FormatName} {tok : Indexed} (hn : s.params.modeCode.nameOf s.job.fmt = some n)
    (hs : n.supported = true) (ht : srcRead s.job.layout s.job.idxAlpha s.src s.x s.y = some (.indexed tok)) :
    pixelAt s = encodeIndexed s.job.maskEn n tok (maskRead s.params.modeCode s.job s.mask s.x s.y) := by
  simp only [pixelAt, pixelOut, hn, hs, ht, if_true]

/-- MaskRead on an AI44 job (20_memory.md R42). -/
theorem maskRead_ai44 {t : ModeCode} {job : Job} (h : job.fmt = t.ai44) (mask : List Host.Cell) (x y : Nat) :
    maskRead t job mask x y = if job.maskEn then some (maskByte mask x y) else none := by
  simp only [maskRead, h, beq_self_eq_true, Bool.and_true]

/-- Settles O44: the code names the mode, whose transform is the one its ENC operation returns. -/
theorem encodePixelRunsTransform : Obligations.EncodePixelRunsTransform := by
  unfold Obligations.EncodePixelRunsTransform
  intro s hwf hp hy hx
  have hname : ∀ n, s.job.fmt = s.params.modeCode.code n → s.params.modeCode.nameOf s.job.fmt = some n :=
    fun n h => h ▸ s.params.modeCode.nameOf_code hwf n
  refine ⟨fun tok enc ht henc => ?direct, fun tok ht hfmt => ?ai44, fun tok enc w ht henc hlt hmod hrow => ?packed⟩
  case direct =>
    have hbytes : ∀ (n : FormatName) (bs : List Byte), s.job.fmt = s.params.modeCode.code n → n.supported = true →
        encodeDirect s.params.wordOrder s.job.layout n tok = .bytes bs →
        exec .encodePixel s = .next { s with buf := s.buf ++ bs, x := s.x + 1 } := fun n bs hfmt hs hout =>
      exec_encodePixel_of_bytes hp hy hx ((pixelAt_direct (hname n hfmt) hs ht).trans hout)
    rcases henc with ⟨hfmt, rfl⟩ | ⟨hfmt, rfl⟩ | ⟨hfmt, rfl⟩
    · exact ⟨_, rfl, hbytes .argb8888 _ hfmt rfl rfl⟩
    · exact ⟨_, rfl, hbytes .rgba8888 _ hfmt rfl rfl⟩
    · exact ⟨_, rfl, hbytes .rgb565 _ hfmt rfl rfl⟩
  case ai44 =>
    have hpix := pixelAt_indexed (hname .ai44 hfmt) rfl ht
    rw [maskRead_ai44 hfmt] at hpix
    exact ⟨_, rfl, exec_encodePixel_of_bytes hp hy hx hpix⟩
  case packed =>
    have hbits : ∀ n : FormatName, s.job.fmt = s.params.modeCode.code n → n.supported = true → n.packedWidth = some w →
        encodeIndexed s.job.maskEn n tok (maskRead s.params.modeCode s.job s.mask s.x s.y) = .bits (maskLow tok.index w) w →
        ∃ t, exec (.pack (maskLow tok.index w) w) s = .next t ∧ exec .encodePixel s = .next { t with x := s.x + 1 } := by
      intro n hfmt hs hwidth hout
      have hpix := (pixelAt_indexed (hname n hfmt) hs ht).trans hout
      have hjob := jobPackedWidth_of_bits hpix
      have hw := (n.packedWidth_eq w hwidth).2
      have hallowed : packAllowed s w = true := (packAllowed_iff s w).mpr
        ⟨hw, hmod, by rcases hw with rfl | rfl | rfl | rfl <;> omega, hrow, fun w' hw' => Option.some.inj (hjob.symm.trans hw')⟩
      exact ⟨_, exec_pack_of_allowed hallowed _, exec_encodePixel_of_bits hp hy hx hpix hallowed⟩
    rcases henc with ⟨hfmt, rfl, rfl⟩ | ⟨hfmt, rfl, rfl⟩ | ⟨hfmt, rfl, rfl⟩ | ⟨hfmt, rfl, rfl⟩
    · obtain ⟨t, hpack, hpixel⟩ := hbits .i8 hfmt rfl rfl rfl
      exact ⟨_, t, rfl, hpack, hpixel⟩
    · obtain ⟨t, hpack, hpixel⟩ := hbits .i4 hfmt rfl rfl rfl
      exact ⟨_, t, rfl, hpack, hpixel⟩
    · obtain ⟨t, hpack, hpixel⟩ := hbits .i2 hfmt rfl rfl rfl
      exact ⟨_, t, rfl, hpack, hpixel⟩
    · obtain ⟨t, hpack, hpixel⟩ := hbits .i1 hfmt rfl rfl rfl
      exact ⟨_, t, rfl, hpack, hpixel⟩

/-! ### ENCODE.ROWEND and ENCODE.END (45_sequencer.md R165, R174) -/

/-- Settles O45: the flush of the row, with the cursor at the next one. -/
theorem encodeRowendFlushes : Obligations.EncodeRowendFlushes := by
  unfold Obligations.EncodeRowendFlushes
  intro s hp hy hx
  rw [exec_encodeRowend_of_rowDone hp hy hx, flushRowState_eq]
  rfl

theorem step_silent_encodeEnd {s : State} (hh : s.host = []) (hp : s.phase = .encode) (hy : s.y = s.job.h.toNat) :
    step s = exec .encodeEnd s :=
  step_silent hh (decode_phaseWord_of_enabled ((cursorCase_imageDone_iff s hp).mpr hy) hp rfl)

theorem exec_encodeEnd_of_imageDone {s : State} (hp : s.phase = .encode) (hy : s.y = s.job.h.toNat) :
    exec .encodeEnd s = .next
      (if s.job.rle then { s with cur := 0, lit := [], pay := [], phase := .rle } else { s with pay := s.buf, phase := .emit }) := by
  have henabled : s.phase = .encode ∧ cursorCase s = .imageDone := ⟨hp, (cursorCase_imageDone_iff s hp).mpr hy⟩
  simp only [exec, execEncodeEnd, if_pos henabled, apply_ite Host.Outcome.next]

/-- When the last row has ended BUF holds all rows (20_memory.md R51). -/
theorem buf_length_of_imageDone {s : State} (hw : WorkingInv s) (hi : BufferInv s) (hp : s.phase = .encode)
    (hy : s.y = s.job.h.toNat) {n : FormatName} (hn : s.params.modeCode.nameOf s.job.fmt = some n) :
    s.buf.length = imageBytes n s.job := by
  have hgrow := hi.growing hp n hn
  rw [hw.rowsDone hy, hi.rowsDone hp hy, hy] at hgrow
  rw [imageBytes]
  omega

/-- Settles O46: JOB.RLE decides the stage; the buffer's length is the invariant's count of bits with the cursor at the end. -/
theorem encodeEndSelectsStage : Obligations.EncodeEndSelectsStage := by
  unfold Obligations.EncodeEndSelectsStage
  exact fun s hp hy => ⟨exec_encodeEnd_of_imageDone hp hy, fun hw hi n hn => buf_length_of_imageDone hw hi hp hy hn⟩

/-! ### RLE.STEP and RLE.END (45_sequencer.md R166, R175) -/

theorem takeLit_cur (v : Byte) (s : State) : (takeLit v s).cur = s.cur + 1 := by
  rw [takeLit_eq]
  split <;> rfl

/-- Settles O47: the measured run decides; a run of 2 to 128 is one less than a 7-bit count away from its packet's word. -/
theorem rleStepMeasuresAndTakes : Obligations.RleStepMeasuresAndTakes := by
  unfold Obligations.RleStepMeasuresAndTakes
  intro s v hp hv
  have hcur : s.cur < s.buf.length := (List.getElem?_eq_some_iff.mp hv).1
  obtain ⟨v', hv', hdrop, hmeasure⟩ := measureAt_of_lt s hcur
  obtain rfl := Option.some.inj (hv'.symm.trans hv)
  obtain ⟨-, hcap, -⟩ := runLength_bounds v' (s.buf.drop (s.cur + 1))
  by_cases hr : 2 ≤ runLength v' (s.buf.drop (s.cur + 1))
  · have hword : runLength v' (s.buf.drop (s.cur + 1)) =
        (BitVec.ofNat 7 (runLength v' (s.buf.drop (s.cur + 1)) - 1)).toNat + 1 := by
      rw [BitVec.toNat_ofNat, Nat.mod_eq_of_lt (by omega)]
      omega
    refine ⟨_, _, exec_rleMeasure_of_some hmeasure, ?_, exec_rleStep_of_run hp hdrop hr, by rw [takeRun_eq]⟩
    rw [if_pos hr]
    exact if_pos ⟨hr, hword, hv⟩
  · have hone := runLength_eq_one hr
    have hlit := exec_rleLit_of_byte (s := { s with runlen := runLength v' (s.buf.drop (s.cur + 1)) }) hv
    refine ⟨_, _, exec_rleMeasure_of_some hmeasure, ?_, exec_rleStep_of_lit hp hdrop hone, ?_⟩
    · rw [if_neg hr, hlit, if_pos hone, hone]
    · rw [takeLit_cur, hone]

/-- Settles O48: what is pending goes to PAY as a packet, or nothing does. -/
theorem rleEndFlushes : Obligations.RleEndFlushes := by
  unfold Obligations.RleEndFlushes
  intro s hp hcur
  rw [exec_rleEnd_of_inputDone hp hcur, flushed_eq_ite]
  rfl

/-! ### EMIT (45_sequencer.md R167) -/

/-- The end of a conversion with a result: the output in OUT and DONE, or the fault raised. -/
def conversionEnd (s : State) : Except Cause (List Byte) → State
  | .ok out => { s with out := out, outLen := out.length, phase := .done }
  | .error c => raise c s

/-- What stands before the payload: the header when the job asks for one (44_header.md R153). -/
def headerPart (job : Job) (payloadLength : Nat) : List Byte := if job.hdrEn then jobHeader job payloadLength else []

theorem headerPart_of_hdrEn {job : Job} (h : job.hdrEn = true) (n : Nat) : headerPart job n = jobHeader job n := if_pos h

theorem headerPart_of_not_hdrEn {job : Job} (h : job.hdrEn = false) (n : Nat) : headerPart job n = [] := by
  simp [headerPart, h]

@[simp] theorem headerPart_length (job : Job) (n : Nat) : (headerPart job n).length = payloadBase job := by
  cases h : job.hdrEn <;> simp [headerPart, payloadBase, h, jobHeader, hdrLen]

theorem outputOf_eq (p : Params) (job : Job) (pay : List Byte) :
    outputOf p job pay =
      if job.hdrEn && decide (lenMax < pay.length) then .error .headerFieldRange
      else if exceeds p.outCap (payloadBase job + pay.length) then .error .capacityExceeded
      else .ok (headerPart job pay.length ++ pay) := by
  have hlen : (headerPart job pay.length ++ pay).length = payloadBase job + pay.length := by
    rw [List.length_append, headerPart_length]
  rw [← hlen]
  rfl

/-- EMIT's writes on an empty OUT leave the header and the payload there. -/
theorem memWrite_headerPart (job : Job) (pay : List Byte) :
    memWrite (if job.hdrEn then memWrite [] 0 (jobHeader job pay.length) else []) (payloadBase job) pay =
      headerPart job pay.length ++ pay := by
  have hhead : (if job.hdrEn then memWrite [] 0 (jobHeader job pay.length) else []) = headerPart job pay.length := by
    rw [memWrite_zero, List.drop_nil, List.append_nil, headerPart]
  rw [hhead, ← headerPart_length job pay.length, memWrite_end]

/-- EMIT ends the conversion with the output of PAY, when OUT is empty. -/
theorem exec_emit_eq {s : State} (hp : s.phase = .emit) (ho : s.out = []) :
    exec .emit s = .next (conversionEnd s (outputOf s.params s.job s.pay)) := by
  have hlen : (headerPart s.job s.pay.length ++ s.pay).length = payloadBase s.job + s.pay.length := by
    rw [List.length_append, headerPart_length]
  simp only [exec, execEmit, if_pos hp, ho, memWrite_headerPart, outputOf_eq]
  split_ifs
  · rfl
  · rfl
  · rw [conversionEnd, hlen]

/-- Settles O49: the two tests of `outputOf` and the bytes it gives, the header being the one HDR.WRITE returns. -/
theorem emitTestsThenWrites : Obligations.EmitTestsThenWrites := by
  unfold Obligations.EmitTestsThenWrites
  intro s hp ho
  rw [exec_emit_eq hp ho, outputOf_eq]
  have hlong : (s.job.hdrEn && decide (lenMax < s.pay.length)) = true ↔ s.job.hdrEn = true ∧ 2 ^ 32 - 1 < s.pay.length := by
    rw [Bool.and_eq_true, decide_eq_true_eq, lenMax]
  have hbase : (if s.job.hdrEn then 14 else 0) = payloadBase s.job := rfl
  rw [hbase]
  refine ⟨fun hh hlen => ?_, fun hshort => ?_⟩
  · rw [if_pos (hlong.mpr ⟨hh, hlen⟩)]
    rfl
  · rw [if_neg fun h => Nat.not_lt.mpr (hshort (hlong.mp h).1) (hlong.mp h).2]
    refine ⟨fun cap hcap hover => ?_, fun hfits => ?_⟩
    · rw [if_pos ((exceeds_iff _ _).mpr ⟨cap, hcap, hover⟩)]
      rfl
    · have hcap : ¬ exceeds s.params.outCap (payloadBase s.job + s.pay.length) = true := fun h =>
        have ⟨cap, hsome, hover⟩ := (exceeds_iff _ _).mp h
        Nat.not_lt.mpr (hfits cap hsome) hover
      rw [if_neg hcap]
      refine ⟨headerPart s.job s.pay.length, fun hh => headerPart_of_not_hdrEn hh _, fun hh => ?_, ?_⟩
      · have hlen : s.pay.length < 2 ^ 32 := Nat.lt_of_le_sub_one (by decide) (hshort hh)
        rw [headerPart_of_hdrEn hh]
        exact ⟨hdrBytes_length .., _, rfl, exec_hdrWrite_of_lt hlen ..⟩
      · simp only [conversionEnd, List.length_append]

end Machine
end Sys2Proof
end

section
/-!
A run from START computes `convert` (45_sequencer.md R160, R170, R172): the steps of a row are the row of `convert`, the rows one after the
other its rows, and the stages after ENCODE its payload and output. First that the encoding never stops (R164).
-/

namespace Sys2Proof.Machine

/-! ### The encoding never stops (45_sequencer.md R164) -/

/-- Settles O57: CHECK has passed, so a pixel has its transform, and the end of a row or of the image always completes. -/
theorem encodingNeverStops : Obligations.EncodingNeverStops := by
  unfold Obligations.EncodingNeverStops
  intro s u hi hp hh hcheck hu
  have hc : checkJob s.params s.job = none := by
    obtain ⟨-, ⟨c, -, rfl⟩ | ⟨hc, -⟩⟩ := exec_check_next hcheck
    · cases hu
    · exact hc
  rcases hi.yLe.lt_or_eq with hy | hy
  · rcases hi.xLe.lt_or_eq with hx | hx
    · obtain ⟨t, ht⟩ := exec_encodePixel_of_checked hi hp hy hx hc
      obtain ⟨n, hn, -⟩ := checkJob_none _ _ hc
      refine ⟨t, (step_silent_pixel hh hp hy hx).trans ht, ?_⟩
      rw [(pixelTaken_of_exec hc hn ht).phase, hp]
      decide
    · refine ⟨_, (step_silent_rowend hh hp hy hx).trans (exec_encodeRowend_of_rowDone hp hy hx), ?_⟩
      simp [hp]
  · refine ⟨_, (step_silent_encodeEnd hh hp hy).trans (exec_encodeEnd_of_imageDone hp hy), ?_⟩
    split <;> simp

/-! ### Runs -/

/-- A run that answers a next state has made its first step and answers from there. -/
theorem run_succ_next {k : Nat} {s t : State} (h : core.run (k + 1) s = .next t) :
    ∃ u, step s = .next u ∧ core.run k u = .next t := by
  cases hs : step s with
  | next u => exact ⟨u, rfl, (run_next k s u hs).symm.trans h⟩
  | fault f => simp [Host.Core.run, core, hs] at h
  | refused r => simp [Host.Core.run, core, hs] at h

theorem run_add {j : Nat} {t : State} (k : Nat) : ∀ {s : State}, core.run j s = .next t → core.run (j + k) s = core.run k t := by
  induction j with
  | zero =>
    intro s h
    obtain rfl := Host.Outcome.next.inj h
    rw [Nat.zero_add]
  | succ j ih =>
    intro s h
    obtain ⟨u, hu, ht⟩ := run_succ_next h
    rw [Nat.succ_add, run_next _ _ _ hu, ih ht]

/-- What every step keeps, a run keeps. -/
theorem run_keeps {P : State → Prop} (hstep : ∀ s t, P s → step s = .next t → P t) {k : Nat} {t : State} :
    ∀ {s : State}, P s → core.run k s = .next t → P t := by
  induction k with
  | zero => exact fun hs h => Host.Outcome.next.inj h ▸ hs
  | succ k ih =>
    intro s hs h
    obtain ⟨u, hu, ht⟩ := run_succ_next h
    exact ih (hstep s u hs hu) ht

/-- Within `b` steps of a run `t` stands where `s` stood. -/
def Reaches (b : Nat) (s t : State) : Prop := ∃ k ≤ b, core.run k s = .next t

theorem reaches_of_run {k : Nat} {s t : State} (h : core.run k s = .next t) : Reaches k s t := ⟨k, le_rfl, h⟩

theorem reaches_of_step {s t : State} (h : step s = .next t) : Reaches 1 s t :=
  reaches_of_run ((run_next 0 s t h).trans (run_zero t))

theorem Reaches.trans {b b' : Nat} {s t u : State} (h : Reaches b s t) (h' : Reaches b' t u) : Reaches (b + b') s u := by
  obtain ⟨j, hj, hs⟩ := h
  obtain ⟨k, hk, ht⟩ := h'
  exact ⟨j + k, Nat.add_le_add hj hk, (run_add k hs).trans ht⟩

theorem Reaches.mono {b b' : Nat} {s t : State} (h : Reaches b s t) (hb : b ≤ b') : Reaches b' s t :=
  let ⟨k, hk, hrun⟩ := h
  ⟨k, hk.trans hb, hrun⟩

/-- In DONE and FAULT a silent host's block holds for ever (45_sequencer.md R168). -/
theorem run_of_held {s : State} (hh : s.host = []) (hp : s.phase = .idle ∨ s.phase = .done ∨ s.phase = .fault) (k : Nat) :
    core.run k s = .next s := by
  have hstep : step s = .next s := by rw [step_of_silent (.inl ⟨hh, rfl⟩), fetchBlock_of_held hp, runFetched]
  induction k with
  | zero => rfl
  | succ k ih => rw [run_next k s s hstep, ih]

/-- The end of a conversion, once reached, is where a longer run stands as well. -/
theorem Reaches.run_of_held {b : Nat} {s t : State} (h : Reaches b s t) (hh : t.host = [])
    (hp : t.phase = .idle ∨ t.phase = .done ∨ t.phase = .fault) : core.run b s = .next t := by
  obtain ⟨k, hk, hrun⟩ := h
  rw [← Nat.add_sub_cancel' hk, run_add _ hrun, Machine.run_of_held hh hp]

/-! ### ENCODE: the rows of `convert` -/

/-- ENCODE.PIXEL is the pixel of `convert`, with the row's width recorded (log 15). -/
theorem exists_convertPixel {s : State} (hi : WorkingInv s) (hp : s.phase = .encode) (hy : s.y < s.job.h.toNat)
    (hx : s.x < s.job.w.toNat) (hc : checkJob s.params s.job = none) :
    ∃ k width, convertPixel s.params s.job s.src s.mask s.x s.y (packerOf s) = .ok k ∧
      exec .encodePixel s = .next { withPacker k s with rowWidth := width, x := s.x + 1 } := by
  rcases pixelAt_of_checked hc with ⟨bs, hpix⟩ | ⟨v, w, hpix⟩
  · refine ⟨{ packerOf s with buf := s.buf ++ bs }, s.rowWidth, ?_, exec_encodePixel_of_bytes hp hy hx hpix⟩
    rw [pixelAt] at hpix
    rw [convertPixel, hpix, packerOf]
  · obtain ⟨hj, hw⟩ := pixelOut_bits _ _ _ _ _ _ hpix
    refine ⟨(packerOf s).push v w, some w, ?_, exec_encodePixel_of_bits hp hy hx hpix (packAllowed_of_workingInv hi hj hw)⟩
    rw [pixelAt] at hpix
    rw [convertPixel, hpix]

/-- The start of row `y` of the conversion of `s`, with `buf` the rows before it. -/
def rowStart (s : State) (y : Nat) (buf : List Byte) : State :=
  { s with acc := 0, bits := 0, rowWidth := none, x := 0, y := y, buf := buf }

/-- `n + 1` steps encode the last `n` pixels of a row as `convert` does and end the row. -/
theorem run_convertRow (n : Nat) :
    ∀ {s : State}, WorkingInv s → s.host = [] → s.phase = .encode → s.y < s.job.h.toNat →
      checkJob s.params s.job = none → s.x + n = s.job.w.toNat →
      ∃ k, convertRow s.params s.job s.src s.mask s.y n s.x (packerOf s) = .ok k ∧
        core.run (n + 1) s = .next (rowStart s (s.y + 1) k.flush.buf) := by
  induction n with
  | zero =>
    intro s hi hh hp hy hc hx
    have hstep := (step_silent_rowend hh hp hy hx).trans (exec_encodeRowend_of_rowDone hp hy hx)
    exact ⟨packerOf s, rfl, (run_next 0 _ _ hstep).trans (run_zero _)⟩
  | succ n ih =>
    intro s hi hh hp hy hc hx
    have hleft : s.x < s.job.w.toNat := by omega
    obtain ⟨k, width, hpixel, hexec⟩ := exists_convertPixel hi hp hy hleft hc
    obtain ⟨k', hrow, hrun⟩ := ih (hi.of_encodePixel hexec) hh hp hy hc (by simp only [withPacker_job]; omega)
    refine ⟨k', ?_, (run_next _ _ _ ((step_silent_pixel hh hp hy hleft).trans hexec)).trans hrun⟩
    rw [convertRow, hpixel]
    exact hrow

section
variable {s : State} (hh : s.host = []) (hlit : s.lit = []) (hcur : s.cur = 0)
include hh hlit hcur

theorem workingInv_rowStart {y : Nat} (hy : y ≤ s.job.h.toNat) (buf : List Byte) : WorkingInv (rowStart s y buf) :=
  workingInv_of_empty (by simp [rowStart, hh]) rfl rfl nofun hlit (Nat.zero_le _) hy (by simp [rowStart, hcur])

variable (hp : s.phase = .encode) (hc : checkJob s.params s.job = none)
include hp hc

/-- The last `n` rows, one step per pixel and one per row end, are those of `convert`. -/
theorem run_convertRows (n : Nat) :
    ∀ {y : Nat} {buf : List Byte}, y + n = s.job.h.toNat →
      ∃ buf', convertRows s.params s.job s.src s.mask n y buf = .ok buf' ∧
        core.run (n * (s.job.w.toNat + 1)) (rowStart s y buf) = .next (rowStart s s.job.h.toNat buf') := by
  induction n with
  | zero =>
    intro y buf hy
    exact ⟨buf, rfl, by rw [Nat.zero_mul, ← hy, run_zero, Nat.add_zero]⟩
  | succ n ih =>
    intro y buf hy
    have hlt : y < s.job.h.toNat := by omega
    obtain ⟨k, hrow, hrun⟩ := run_convertRow (s := rowStart s y buf) s.job.w.toNat
      (workingInv_rowStart hh hlit hcur hlt.le buf) hh hp hlt hc (Nat.zero_add _)
    have hrow' : convertRow s.params s.job s.src s.mask y s.job.w.toNat 0 { acc := 0, bits := 0, buf := buf } = .ok k := hrow
    obtain ⟨buf', hrows, hrest⟩ := ih (y := y + 1) (buf := k.flush.buf) (by omega)
    refine ⟨buf', ?_, ?_⟩
    · simp only [convertRows, hrow']
      exact hrows
    · rw [Nat.succ_mul, Nat.add_comm, run_add _ hrun]
      exact hrest

/-- ENCODE gives the buffer of `convert`, of the length the spec has for it (20_memory.md R51). -/
theorem run_encode {n : FormatName} (hn : s.params.modeCode.nameOf s.job.fmt = some n) :
    ∃ buf, convertRows s.params s.job s.src s.mask s.job.h.toNat 0 [] = .ok buf ∧ buf.length = imageBytes n s.job ∧
      core.run (s.job.h.toNat * (s.job.w.toNat + 1)) (rowStart s 0 []) = .next (rowStart s s.job.h.toNat buf) := by
  obtain ⟨buf, hrows, hrun⟩ := run_convertRows hh hlit hcur hp hc s.job.h.toNat (buf := []) (Nat.zero_add _)
  have hbuffer : BufferInv (rowStart s 0 []) := by
    refine ⟨?_, fun _ => hc, fun _ n _ => by simp [rowStart], fun _ _ => rfl, ?_, ?_⟩ <;> simp [rowStart, hp]
  have hkept : ∀ t t', WorkingInv t ∧ BufferInv t → step t = .next t' → WorkingInv t' ∧ BufferInv t' := fun t t' hi h =>
    ⟨workingInvariantKept t t' hi.1 h, bufferInvariantKept t t' hi.1 hi.2 h⟩
  obtain ⟨hw, hb⟩ := run_keeps hkept ⟨workingInv_rowStart hh hlit hcur (Nat.zero_le _) [], hbuffer⟩ hrun
  exact ⟨buf, hrows, buf_length_of_imageDone hw hb hp rfl hn, hrun⟩

end

/-! ### The payload and the output -/

/-- From the end of the image to EMIT: PAY is the payload of BUF (43_rle.md R131, R139). -/
theorem reaches_emit {s : State} (hh : s.host = []) (hp : s.phase = .encode) (hy : s.y = s.job.h.toNat) :
    ∃ e, WorksOnly s e ∧ e.phase = .emit ∧ e.pay = payloadOf s.job s.buf ∧
      Reaches (1 + if s.job.rle then s.buf.length + 1 else 0) s e := by
  have hstep := (step_silent_encodeEnd hh hp hy).trans (exec_encodeEnd_of_imageDone hp hy)
  cases hr : s.job.rle with
  | false =>
    rw [hr, if_neg Bool.false_ne_true] at hstep
    refine ⟨_, ?_, ?_, ?_, reaches_of_step hstep⟩
    · constructor <;> rfl
    · rfl
    · rw [payloadOf, hr, if_neg Bool.false_ne_true]
  | true =>
    rw [hr, if_pos rfl] at hstep
    obtain ⟨k, r, hk, hrun⟩ := rlePhaseComputesEncoding { s with cur := 0, lit := [], pay := [], phase := .rle }
      rfl rfl rfl rfl hh
    refine ⟨_, ?_, ?_, ?_, (reaches_of_step hstep).trans ⟨k, hk, hrun⟩⟩
    · constructor <;> rfl
    · rfl
    · rw [payloadOf, hr, if_pos rfl]

/-- EMIT, when OUT is still empty. -/
theorem reaches_conversionEnd_of_emit {e : State} (hh : e.host = []) (hp : e.phase = .emit) (ho : e.out = []) :
    Reaches 1 e (conversionEnd e (outputOf e.params e.job e.pay)) :=
  reaches_of_step ((step_silent hh (decode_phaseWord_of_enabled (cursorCase_emit hp) hp rfl)).trans (exec_emit_eq hp ho))

/-! ### The whole conversion -/

/-- The state START leaves a silent host's block in, as far as the conversion reads it (45_sequencer.md R161). -/
structure JustStarted (u : State) : Prop where
  phase : u.phase = .check
  host : u.host = []
  x : u.x = 0
  y : u.y = 0
  cur : u.cur = 0
  lit : u.lit = []
  buf : u.buf = []
  out : u.out = []
  cause : u.cause = 0

theorem justStarted_of_exec_start {s u : State} (hp : s.phase ∈ [.idle, .done, .fault]) (hh : s.host = [])
    (h : exec .start s = .next u) : JustStarted u := by
  obtain rfl := Host.Outcome.next.inj h
  rw [startState_of_not_busy s ((Phase.not_busy_iff _).mpr hp)]
  exact ⟨rfl, hh, rfl, rfl, rfl, rfl, rfl, rfl, rfl⟩

theorem step_check {u : State} (hu : JustStarted u) : step u = exec .check u :=
  step_silent hu.host (decode_phaseWord_of_enabled (cursorCase_check hu.phase) hu.phase rfl)

/-- A job that passes CHECK starts its first row (45_sequencer.md R163). -/
theorem step_check_of_none {u : State} (hu : JustStarted u) (hc : checkJob u.params u.job = none) :
    step u = .next (rowStart { u with phase := .encode } 0 []) := by
  rw [step_check hu, exec_check_of_none hu.phase hc]
  simp only [rowStart, hu.x, hu.y, hu.buf]

theorem convert_of_rows {p : Params} {job : Job} {src mask : List Host.Cell} {buf : List Byte} (hc : checkJob p job = none)
    (hrows : convertRows p job src mask job.h.toNat 0 [] = .ok buf) :
    convert p job src mask = outputOf p job (payloadOf job buf) := by
  simp only [convert, hc, hrows]

theorem convert_of_check {p : Params} {job : Job} {c : Cause} (hc : checkJob p job = some c) (src mask : List Host.Cell) :
    convert p job src mask = .error c := by
  simp only [convert, hc]

theorem stepBound_of_nameOf {p : Params} {job : Job} {n : FormatName} (hn : p.modeCode.nameOf job.fmt = some n) :
    stepBound p job =
      1 + job.h.toNat * (job.w.toNat + 1) + 1 + 1 + if job.rle then imageBytes n job + 1 else 0 := by
  simp only [stepBound, hn]

/-- From START the block reaches the end that `convert` gives, within the spec's bound (45_sequencer.md R170). -/
theorem reaches_convert {u : State} (hu : JustStarted u) :
    ∃ e, WorksOnly u e ∧
      Reaches (stepBound u.params u.job) u (conversionEnd e (convert u.params u.job u.src u.mask)) := by
  cases hc : checkJob u.params u.job with
  | some c =>
    have hstep : step u = .next (raise c u) := (step_check hu).trans (exec_check_of_some hu.phase hc)
    rw [convert_of_check hc]
    exact ⟨u, by constructor <;> rfl, (reaches_of_step hstep).mono (by rw [stepBound]; omega)⟩
  | none =>
    obtain ⟨n, hn, -⟩ := checkJob_none _ _ hc
    obtain ⟨buf, hrows, hlen, hrun⟩ := run_encode (s := { u with phase := .encode }) hu.host hu.lit hu.cur rfl hc hn
    obtain ⟨e, hworks, hp, hpay, hstage⟩ := reaches_emit (s := rowStart { u with phase := .encode } u.job.h.toNat buf)
      hu.host rfl rfl
    have hemit := reaches_conversionEnd_of_emit (hworks.host.trans hu.host) hp (hworks.out.trans hu.out)
    rw [hworks.params, hworks.job, hpay] at hemit
    have hbuf : (rowStart { u with phase := .encode } u.job.h.toNat buf).buf.length = imageBytes n u.job := hlen
    rw [hbuf] at hstage
    rw [convert_of_rows hc hrows]
    have hsteps : 1 + u.job.h.toNat * (u.job.w.toNat + 1) + (1 + if u.job.rle then imageBytes n u.job + 1 else 0) + 1 =
        stepBound u.params u.job := by
      rw [stepBound_of_nameOf hn]
      omega
    exact ⟨e, { hworks with }, ((((reaches_of_step (step_check_of_none hu hc)).trans (reaches_of_run hrun)).trans hstage).trans
      hemit).mono hsteps.le⟩

/-- Settles O59: the end of the conversion that `convert` gives is reached within the bound, and the block holds there. -/
theorem runComputesConvert : Obligations.RunComputesConvert := by
  unfold Obligations.RunComputesConvert
  intro s u hp hh hstart
  have hu := justStarted_of_exec_start hp hh hstart
  obtain ⟨e, hworks, hreach⟩ := reaches_convert hu
  cases hconvert : convert u.params u.job u.src u.mask with
  | ok out =>
    rw [hconvert] at hreach
    exact ⟨_, hreach.run_of_held (hworks.host.trans hu.host) (.inr (.inl rfl)), rfl, hworks.cause.trans hu.cause, rfl, rfl⟩
  | error c =>
    rw [hconvert] at hreach
    refine ⟨_, hreach.run_of_held (hworks.host.trans hu.host) (.inr (.inr rfl)), rfl, ?_, rfl⟩
    rw [conversionEnd, raise_cause, hworks.params]

end Sys2Proof.Machine
end

section
/-!
No partial output (60_exceptions.md R192; 10_state.md R29): of the block's steps only EMIT writes OUT, and it finds OUT empty and
leaves the whole output there; every other way into or out of DONE leaves OUT empty.
-/

namespace Sys2Proof.Machine

/-- A step of the block before EMIT works in a busy phase, or raises. -/
theorem worksOnly_or_raise_of_blockOps {i : Instr} {s t : State} (hb : i ∈ blockOps) (hne : i ≠ .emit)
    (h : exec i s = .next t) : (WorksOnly s t ∧ t.phase.busy = true) ∨ ∃ c, t = raise c s := by
  have hbusy := busy_of_exec_blockOps hb h
  simp only [blockOps, List.mem_cons, List.not_mem_nil, or_false] at hb
  rcases hb with rfl | rfl | rfl | rfl | rfl | rfl | rfl
  · obtain ⟨-, ⟨c, -, rfl⟩ | ⟨-, rfl⟩⟩ := exec_check_next h
    · exact .inr ⟨c, rfl⟩
    · exact .inl ⟨by constructor <;> rfl, rfl⟩
  · obtain ⟨-, -, -, ⟨bs, -, rfl⟩ | ⟨v, w, -, -, rfl⟩ | ⟨-, rfl⟩⟩ := exec_encodePixel_next h
    · exact .inl ⟨by constructor <;> rfl, hbusy⟩
    · exact .inl ⟨by constructor <;> rfl, hbusy⟩
    · exact .inr ⟨_, rfl⟩
  · obtain ⟨-, -, -, rfl⟩ := exec_encodeRowend_next h
    exact .inl ⟨by constructor <;> rfl, hbusy⟩
  · obtain ⟨-, -, ⟨-, rfl⟩ | ⟨-, rfl⟩⟩ := exec_encodeEnd_next h
    all_goals exact .inl ⟨by constructor <;> rfl, rfl⟩
  · obtain ⟨-, v, rest, -, ⟨-, rfl⟩ | ⟨-, rfl⟩⟩ := exec_rleStep_next h
    · exact .inl ⟨worksOnly_takeRun v _ s, (congrArg Phase.busy (takeRun_phase v _)).trans hbusy⟩
    · exact .inl ⟨worksOnly_takeLit v _ s, (congrArg Phase.busy (takeLit_phase v _)).trans hbusy⟩
  · obtain ⟨-, -, rfl⟩ := exec_rleEnd_next h
    exact .inl ⟨by constructor <;> rfl, rfl⟩
  · exact absurd rfl hne

/-- Outside DONE the invariant is an empty OUT of length 0. -/
theorem outputInv_of_empty {s : State} (hostMoves : ∀ m ∈ s.host, m.architectural = true) (phase : s.phase ≠ .done)
    (out : s.out = []) (outLen : s.outLen = 0) : OutputInv s :=
  ⟨hostMoves, fun _ => ⟨out, outLen⟩, fun h => absurd h phase⟩

theorem OutputInv.of_moveTaken {s u : State} (hi : OutputInv s) (hu : moveTaken s u) : OutputInv u := by
  have hm := hu.architectural hi.hostMoves
  obtain ⟨-, rfl⟩ | ⟨m, rest, -, rfl⟩ := hu
  · exact hi
  · exact { hi with hostMoves := hm }

/-- A fault before the first write to OUT leaves no partial output. -/
theorem OutputInv.of_raise {s : State} (hi : OutputInv s) (hp : s.phase ≠ .done) (c : Cause) : OutputInv (raise c s) :=
  outputInv_of_empty hi.hostMoves nofun (hi.outEmpty hp).1 rfl

/-- A conversion ends with the whole output, or with a fault and none. -/
theorem OutputInv.of_conversionEnd {s : State} (hi : OutputInv s) (hp : s.phase ≠ .done) (r : Except Cause (List Byte)) :
    OutputInv (conversionEnd s r) := by
  cases r with
  | ok out => exact ⟨hi.hostMoves, fun h => absurd rfl h, fun _ => rfl⟩
  | error c => exact hi.of_raise hp c

/-- OUT is empty when a step of the block runs, so EMIT's output is all of it, and the other steps leave it empty. -/
theorem OutputInv.of_blockOps {i : Instr} {s t : State} (hi : OutputInv s) (hb : i ∈ blockOps)
    (h : exec i s = .next t) : OutputInv t := by
  obtain ⟨-, hp, -⟩ := Phase.ne_of_busy (busy_of_exec_blockOps hb h)
  obtain ⟨hout, hlen⟩ := hi.outEmpty hp
  by_cases hemit : i = .emit
  · subst hemit
    rw [exec_emit_eq (exec_emit_next h).1 hout] at h
    obtain rfl := Host.Outcome.next.inj h
    exact hi.of_conversionEnd hp _
  · obtain ⟨hworks, hbusy⟩ | ⟨c, rfl⟩ := worksOnly_or_raise_of_blockOps hb hemit h
    · exact outputInv_of_empty (hworks.host ▸ hi.hostMoves) (Phase.ne_of_busy hbusy).2.1 (hworks.out.trans hout)
        (hworks.outLen.trans hlen)
    · exact hi.of_raise hp c

theorem OutputInv.of_hostEffect {u t : State} (hi : OutputInv u) (h : HostEffect u t) : OutputInv t := by
  cases h with
  | reset => exact outputInv_of_empty hi.hostMoves nofun rfl rfl
  | started =>
    rcases startState_cases u with ⟨-, e⟩ | ⟨-, e⟩ <;> rw [e]
    · exact hi
    · exact outputInv_of_empty hi.hostMoves nofun rfl rfl
  | accessed => exact { hi with }

/-- Settles O53: the block's steps find OUT empty and only EMIT fills it, whole; the host's moves keep OUT or empty it. -/
theorem outputInvariantKept : Obligations.OutputInvariantKept := by
  unfold Obligations.OutputInvariantKept
  intro s t hi h
  obtain ⟨u, hu, ⟨i, hb, he⟩ | hh⟩ := step_cases_of_architectural hi.hostMoves h
  · exact (hi.of_moveTaken hu).of_blockOps hb he
  · exact (hi.of_moveTaken hu).of_hostEffect hh

end Sys2Proof.Machine
end

section
/-!
The steps of a conversion where their "Enabled" line is false (45_sequencer.md section 3): each stops, one lemma for each.
-/

namespace Sys2Proof.Machine

section
variable {s : State}

theorem exec_check_of_not_enabled (h : ¬ s.phase = .check) : exec .check s = .refused .stepNotEnabled := if_neg h

theorem exec_encodePixel_of_not_enabled (h : ¬ (s.phase = .encode ∧ s.y < s.job.h.toNat ∧ s.x < s.job.w.toNat)) :
    exec .encodePixel s = .refused .stepNotEnabled :=
  if_neg fun ⟨hp, hc⟩ => h ⟨hp, (cursorCase_pixelLeft_iff s hp).mp hc⟩

theorem exec_encodeRowend_of_not_enabled (h : ¬ (s.phase = .encode ∧ s.y < s.job.h.toNat ∧ s.x = s.job.w.toNat)) :
    exec .encodeRowend s = .refused .stepNotEnabled :=
  if_neg fun ⟨hp, hc⟩ => h ⟨hp, (cursorCase_rowDone_iff s hp).mp hc⟩

theorem exec_encodeEnd_of_not_enabled (h : ¬ (s.phase = .encode ∧ s.y = s.job.h.toNat)) :
    exec .encodeEnd s = .refused .stepNotEnabled :=
  if_neg fun ⟨hp, hc⟩ => h ⟨hp, (cursorCase_imageDone_iff s hp).mp hc⟩

/-- RLE.STEP reads its input from the cursor on: past the end of BUF there is none. -/
theorem exec_rleStep_of_not_enabled (h : ¬ (s.phase = .rle ∧ s.cur < s.buf.length)) :
    exec .rleStep s = .refused .stepNotEnabled := by
  by_cases hp : s.phase = .rle
  · have hdrop : s.buf.drop s.cur = [] := List.drop_eq_nil_of_le (not_lt.mp fun hc => h ⟨hp, hc⟩)
    simp only [exec, execRleStep, if_pos hp, hdrop]
  · exact if_neg hp

theorem exec_rleEnd_of_not_enabled (h : ¬ (s.phase = .rle ∧ s.cur = s.buf.length)) :
    exec .rleEnd s = .refused .stepNotEnabled :=
  if_neg fun ⟨hp, hc⟩ => h ⟨hp, (cursorCase_inputDone_iff s hp).mp hc⟩

theorem exec_emit_of_not_enabled (h : ¬ s.phase = .emit) : exec .emit s = .refused .stepNotEnabled := if_neg h

end

/-- Settles O50: each hypothesis is the negation of the step's "Enabled" line. -/
theorem disabledStepsStop : Obligations.DisabledStepsStop := by
  unfold Obligations.DisabledStepsStop
  simp only [ne_eq, ← not_lt, ← not_and_or]
  exact fun s => ⟨exec_check_of_not_enabled, exec_encodePixel_of_not_enabled, exec_encodeRowend_of_not_enabled,
    exec_encodeEnd_of_not_enabled, exec_rleStep_of_not_enabled, exec_rleEnd_of_not_enabled, exec_emit_of_not_enabled⟩

end Sys2Proof.Machine
end
